-- ==== Sys2Proof/Word.lean ====
section
/-! DEFINITION. The word types of the zoiadpy converter core (00_scope.md R13, R14): every value is unsigned, a byte has
8 bits, bit 0 is the least significant. -/

namespace Sys2Proof

/-- An unsigned 8-bit value (R13). -/
abbrev Byte := BitVec 8

/-- A rectangle coordinate field, `COORD_W` = 16 bits (R11, R86). -/
abbrev Coord := BitVec 16

/-- An error counter or the publish-wait timer, 32 bits (R79, R81, R69; `CNT_W` = 32). -/
abbrev Count := BitVec 32

/-- Bit `k` of a byte as R14 numbers it: `(v / 2^k) mod 2`. -/
abbrev Byte.bit (v : Byte) (k : Nat) : Bool := v.getLsbD k

end Sys2Proof
end

