-- ==== Sys2Proof/Syntax.lean ====
section
/-! DEFINITION. The instructions of the core: one constructor per row of spec/opcode_table.json (30_encoding.md, 40_decoder.md),
with the decoder states that choose how a byte is read (R60, R150). -/

namespace Sys2Proof

/-- `dec_state` (R60): the Protocol Decoder's state. The value 0b11 is reached by no rule (I6) and is excluded by the type.
DEDUCED, log entry 17. -/
inductive DecState where
  | idle
  | awaitArg
  | pixel
deriving DecidableEq, Repr, Inhabited

/-- The encoding of `dec_state[1:0]` that `dec_state_o` shows (R60, R83). -/
def DecState.code : DecState → BitVec 2
  | .idle => 0b00
  | .awaitArg => 0b01
  | .pixel => 0b10

/-- The eleven one-argument commands, in the document's order (R153). -/
inductive OneArg where
  | contrast
  | muxRatio
  | displayOffset
  | chargePump
  | addrMode
  | segRemap
  | comPins
  | precharge
  | vcom
  | clockDiv
  | startLine
deriving DecidableEq, Repr, Inhabited

/-- All eleven, in the document's order. -/
def OneArg.all : List OneArg :=
  [.contrast, .muxRatio, .displayOffset, .chargePump, .addrMode, .segRemap, .comPins, .precharge, .vcom, .clockDiv, .startLine]

/-- One decoder step's instruction. A one-argument command carries the code byte that selected it: its code set is a parameter
and may hold several bytes (R153), and `pending_cmd` takes that byte. The argument is an instruction of its own, the next
byte, read in AWAIT_ARG (R151, R216). -/
inductive Instr where
  /-- DISPLAY_OFF (R203). -/
  | displayOff
  /-- DISPLAY_ON (R204). -/
  | displayOn
  /-- SET_CONTRAST (R205). -/
  | setContrast (code : Byte)
  /-- SET_MUX_RATIO (R206). -/
  | setMuxRatio (code : Byte)
  /-- SET_DISPLAY_OFFSET (R207). -/
  | setDisplayOffset (code : Byte)
  /-- SET_CHARGE_PUMP (R208). -/
  | setChargePump (code : Byte)
  /-- SET_ADDR_MODE (R209). -/
  | setAddrMode (code : Byte)
  /-- SET_SEG_REMAP (R210); under the default map bit 0 of the code is the table's field `r`. -/
  | setSegRemap (code : Byte)
  /-- SET_COM_PINS (R211). -/
  | setComPins (code : Byte)
  /-- SET_PRECHARGE (R212). -/
  | setPrecharge (code : Byte)
  /-- SET_VCOM (R213). -/
  | setVcom (code : Byte)
  /-- SET_CLOCK_DIV (R214). -/
  | setClockDiv (code : Byte)
  /-- SET_START_LINE (R215). -/
  | setStartLine (code : Byte)
  /-- IGNORED (R217): any byte of IDLE that the command map does not list. -/
  | ignored (b : Byte)
  /-- ARGUMENT (R216). -/
  | argument (arg : Byte)
  /-- PIXEL_DATA (R218). -/
  | pixelData (d : Byte)
deriving DecidableEq, Repr, Inhabited

/-- The instruction a code byte of one-argument command `k` stands for (R154). -/
def OneArg.instr (k : OneArg) (code : Byte) : Instr :=
  match k with
  | .contrast => .setContrast code
  | .muxRatio => .setMuxRatio code
  | .displayOffset => .setDisplayOffset code
  | .chargePump => .setChargePump code
  | .addrMode => .setAddrMode code
  | .segRemap => .setSegRemap code
  | .comPins => .setComPins code
  | .precharge => .setPrecharge code
  | .vcom => .setVcom code
  | .clockDiv => .setClockDiv code
  | .startLine => .setStartLine code

/-- The decoder state in which an instruction's byte is read: the `Condition` of R203 to R218, one state per format of R150
(CMD in IDLE, ARG in AWAIT_ARG, DATA in PIXEL). -/
def Instr.readIn : Instr → DecState
  | .displayOff | .displayOn => .idle
  | .setContrast _ | .setMuxRatio _ | .setDisplayOffset _ | .setChargePump _ | .setAddrMode _ | .setSegRemap _
  | .setComPins _ | .setPrecharge _ | .setVcom _ | .setClockDiv _ | .setStartLine _ => .idle
  | .ignored _ => .idle
  | .argument _ => .awaitArg
  | .pixelData _ => .pixel

end Sys2Proof
end

