-- ==== Sys2Proof/Config.lean ====
section
/-! DEFINITION. What is fixed at elaboration (00_scope.md R11, 30_encoding.md R153), the inputs the environment chooses
(10_state.md R84 to R86, R88), and the free values: contents and choices that the spec leaves open. -/

namespace Sys2Proof

/-- `POLICY` (R11): the Frame Exchange's policy. -/
inductive Policy where
  | dropOldest
  | bounded
deriving DecidableEq, Repr, Inhabited

/-- The command-code map (R153, D5): `CMD_OFF`, `CMD_ON` and one set of codes per one-argument command. -/
structure CmdMap where
  cmdOff : Byte
  cmdOn : Byte
  contrast : List Byte
  muxRatio : List Byte
  displayOffset : List Byte
  chargePump : List Byte
  addrMode : List Byte
  segRemap : List Byte
  comPins : List Byte
  precharge : List Byte
  vcom : List Byte
  clockDiv : List Byte
  startLine : List Byte
deriving DecidableEq, Repr, Inhabited

/-- `ONE_ARG[k]` (R153). -/
def CmdMap.codes (m : CmdMap) : OneArg → List Byte
  | .contrast => m.contrast
  | .muxRatio => m.muxRatio
  | .displayOffset => m.displayOffset
  | .chargePump => m.chargePump
  | .addrMode => m.addrMode
  | .segRemap => m.segRemap
  | .comPins => m.comPins
  | .precharge => m.precharge
  | .vcom => m.vcom
  | .clockDiv => m.clockDiv
  | .startLine => m.startLine

/-- The default map of R153. PRESUMED by the spec itself (G1: from general knowledge): unsafe for a host that uses other
codes, log entry 2. -/
def CmdMap.standard : CmdMap where
  cmdOff := 0xAE
  cmdOn := 0xAF
  contrast := [0x81]
  muxRatio := [0xA8]
  displayOffset := [0xD3]
  chargePump := [0x8D]
  addrMode := [0x20]
  segRemap := [0xA0, 0xA1]
  comPins := [0xDA]
  precharge := [0xD9]
  vcom := [0xDB]
  clockDiv := [0xD5]
  startLine := [0x40]

/-- The elaboration parameters of R11. They never change while the core runs (R88). -/
structure Config where
  /-- `W`, source width in pixels. -/
  w : Nat
  /-- `H`, source height in pixels. -/
  h : Nat
  /-- `SX`, horizontal scale factor. -/
  sx : Nat
  /-- `SY`, vertical scale factor. -/
  sy : Nat
  /-- `X_OFF`, destination x of the image's left column. -/
  xOff : Nat
  /-- `Y_OFF`, destination y of the image's top row. -/
  yOff : Nat
  /-- `DW`, destination width. -/
  dw : Nat
  /-- `DH`, destination height. -/
  dh : Nat
  /-- `BPP`, destination bits per pixel. -/
  bpp : Nat
  /-- `PACK_MSB_FIRST`. -/
  packMsbFirst : Bool
  /-- `POLICY`. -/
  policy : Policy
  /-- `DEPTH`, the queue depth. -/
  depth : Nat
  /-- `PUB_TIMEOUT`, in clk_i cycles. -/
  pubTimeout : Nat
  /-- `DIRTY_EN`. -/
  dirtyEn : Bool
  /-- `CMD_OFF`, `CMD_ON`, `ONE_ARG`. -/
  map : CmdMap
  /-- `SYNC_STAGES`, flip-flops in each synchroniser. -/
  syncStages : Nat
deriving DecidableEq, Repr, Inhabited

namespace Config

/-- `CAP = W*H/8`: bytes in one source bitmap (R11, R100). -/
def cap (c : Config) : Nat := c.w * c.h / 8

/-- `NBUF = DEPTH + 2`: buffers in the arena (R11, R251). -/
def nbuf (c : Config) : Nat := c.depth + 2

/-- `WD = W * SX`: the destination row's width (R311). -/
def wd (c : Config) : Nat := c.w * c.sx

/-- The parameter set of `State.reset`. W, H, SX, SY, X_OFF and Y_OFF are R11's examples, PACK_MSB_FIRST, SYNC_STAGES and the
map its defaults; R11 leaves DW, DH, BPP, POLICY, DEPTH, PUB_TIMEOUT and DIRTY_EN open. DESIGN CHOICE, unsafe where a claim
is about this set alone (log entry 1): the machine itself runs every legal set. -/
def standard : Config where
  w := 128
  h := 64
  sx := 3
  sy := 3
  xOff := 48
  yOff := 32
  dw := 480
  dh := 256
  bpp := 16
  packMsbFirst := true
  policy := .dropOldest
  depth := 1
  pubTimeout := 0
  dirtyEn := true
  map := CmdMap.standard
  syncStages := 2

end Config

/-- The inbound bus ports in one clk_i cycle (R85). -/
structure BusIn where
  inValid : Bool
  inByte : Byte
  inEnd : Bool
deriving DecidableEq, Repr, Inhabited

/-- A clk_i cycle in which the bus is quiet. -/
def BusIn.quiet : BusIn := ⟨false, 0x00, false⟩

/-- The Display Transport's inputs to the core in one clk_r cycle (R86). -/
structure TpIn where
  cmdReady : Bool
  dataReady : Bool
  respValid : Bool
  respErr : Bool
deriving DecidableEq, Repr, Inhabited

/-- A clk_r cycle in which the transport does nothing. -/
def TpIn.quiet : TpIn := ⟨false, false, false, false⟩

/-- What a domain's synchroniser does in one cycle of its clock. `shift` is R250's reference design. `hold` and `through` give
the transaction level of R9 and R268 (the request or answer is seen any number of cycles later, or at once): DESIGN CHOICE,
safe, log entry 5. -/
inductive Sync where
  | shift
  | hold
  | through
deriving DecidableEq, Repr, Inhabited

/-- One step's choice, made outside the core: which clock ticks next and what its domain's inputs are, or a reset. The two
clocks are asynchronous (R84), so any sequence of these is an interleaving of ING and REN (R9). -/
inductive Tick where
  | clkI (bus : BusIn) (sync : Sync)
  | clkR (tp : TpIn) (sync : Sync)
  | reset
deriving DecidableEq, Repr, Inhabited

/-- The field outputs of the transport (R86). -/
structure TpFields where
  /-- `tp_x`. -/
  x : Coord
  /-- `tp_y`. -/
  y : Coord
  /-- `tp_w`. -/
  w : Coord
  /-- `tp_h`. -/
  h : Coord
  /-- `tp_data`. -/
  data : Byte
  /-- `tp_data_last`. -/
  dataLast : Bool
deriving DecidableEq, Repr, Inhabited

/-- FREE VALUE: the n-th choice of the environment when `State.inputs` lists none (R9, R10). No body; log entry 4. -/
opaque Config.freeTick : Nat → Tick

/-- FREE VALUE: what byte `i` of arena buffer `b` holds after reset number `epoch` until it is written (I1). Log entry 6. -/
opaque Config.freeArenaByte : Nat → Nat → Nat → Byte

/-- FREE VALUE: what byte `i` of PB holds after reset number `epoch` until it is written (I3). Log entry 6. -/
opaque Config.freePrevByte : Nat → Nat → Byte

/-- FREE VALUE: what the transport's field outputs show in clk_r cycle `n` since the first offer after reset number `epoch`, while
the valid output they go with is 0. No rule says. Log entry 21. -/
opaque Config.freeTpFields : Nat → Nat → TpFields

end Sys2Proof
end

