-- ==== Sys2Proof/WellFormed.lean ====
section
/-! DEFINITION. Which instructions the byte stream can hold under a command map: the code of a one-argument command is in its
set, and an ignored byte is in none (30_encoding.md R153, R154). -/

namespace Sys2Proof

/-- Byte `b` is a code of one-argument command `k`. -/
def CmdMap.hasCode (m : CmdMap) (k : OneArg) (b : Byte) : Bool := (m.codes k).contains b

/-- Byte `b` is a code of some one-argument command. -/
def CmdMap.isOneArg (m : CmdMap) (b : Byte) : Bool := OneArg.all.any (fun k => m.hasCode k b)

/-- The instruction can be read from a byte under the map `m`. -/
def Instr.wf (m : CmdMap) : Instr → Bool
  | .displayOff | .displayOn => true
  | .setContrast c => m.hasCode .contrast c
  | .setMuxRatio c => m.hasCode .muxRatio c
  | .setDisplayOffset c => m.hasCode .displayOffset c
  | .setChargePump c => m.hasCode .chargePump c
  | .setAddrMode c => m.hasCode .addrMode c
  | .setSegRemap c => m.hasCode .segRemap c
  | .setComPins c => m.hasCode .comPins c
  | .setPrecharge c => m.hasCode .precharge c
  | .setVcom c => m.hasCode .vcom c
  | .setClockDiv c => m.hasCode .clockDiv c
  | .setStartLine c => m.hasCode .startLine c
  | .ignored b => b != m.cmdOff && b != m.cmdOn && !m.isOneArg b
  | .argument _ | .pixelData _ => true

end Sys2Proof
end

