-- ==== Sys2Proof/Decode.lean ====
section
/-! DEFINITION. The byte reader of 30_encoding.md (R150, R154, R155), the encoder beside it, and the reading of one word of
spec/opcode_table.json. -/

namespace Sys2Proof

/-- Why no instruction is read. Every byte value has a reading in every decoder state (R156), so only the end of the bytes is
rejected. -/
inductive DecodeReject where
  /-- There is no byte to read. -/
  | noByte
deriving DecidableEq, Repr

/-- `b in ONE_ARG[k] for some k` (R154): the first such `k` in the document's order. -/
def CmdMap.oneArgOf? (m : CmdMap) (b : Byte) : Option OneArg := OneArg.all.find? (fun k => m.hasCode k b)

/-- R154: what byte `b` is in IDLE, by the first line that matches. -/
def classify (m : CmdMap) (b : Byte) : Instr :=
  if b = m.cmdOff then .displayOff
  else if b = m.cmdOn then .displayOn
  else
    match m.oneArgOf? b with
    | some k => k.instr b
    | none => .ignored b

/-- R150, R155: the one reading of byte `b` in decoder state `st`. -/
def readByte (m : CmdMap) (st : DecState) (b : Byte) : Instr :=
  match st with
  | .idle => classify m b
  | .awaitArg => .argument b
  | .pixel => .pixelData b

/-- R151: a decoder step reads one byte; the rest of the bytes is left for the steps after it. -/
def decode (m : CmdMap) (st : DecState) : List Byte → Except DecodeReject (Instr × List Byte)
  | [] => .error .noByte
  | b :: rest => .ok (readByte m st b, rest)

/-- The byte of an instruction (R153, R157). -/
def encodeByte (m : CmdMap) : Instr → Byte
  | .displayOff => m.cmdOff
  | .displayOn => m.cmdOn
  | .setContrast c | .setMuxRatio c | .setDisplayOffset c | .setChargePump c | .setAddrMode c | .setSegRemap c
  | .setComPins c | .setPrecharge c | .setVcom c | .setClockDiv c | .setStartLine c => c
  | .ignored b => b
  | .argument a => a
  | .pixelData d => d

/-- The bytes of an instruction: one, to be read in `i.readIn`. -/
def encode (m : CmdMap) (i : Instr) : List Byte := [encodeByte m i]

/-- The first `n` bytes of a table word: the first byte of the stream is its bits 7..0 (R106: bytes in arrival order). -/
def tableBytes (n w : Nat) : List Byte := (List.range n).map (fun k => BitVec.ofNat 8 (w / 2 ^ (8 * k)))

/-- The decoder's reading of a table word, in the decoder state after reset (IDLE, R453) and under the default map, which is
what spec/opcode_table.json lists. A word holds no decoder state, so ARGUMENT and PIXEL_DATA are never its reading (log
entry 12). -/
def decodeTableWord (nbits w : Nat) : Option Instr :=
  match decode CmdMap.standard .idle (tableBytes (nbits / 8) w) with
  | .ok (i, _) => some i
  | .error _ => none

end Sys2Proof
end

