-- ==== Sys2Proof/Machine/Params.lean ====
section
/-! DEFINITION. The legal parameter sets (00_scope.md R11, R12; 30_encoding.md R153) and the row length derived from them. Each
check opens its record by one match, so that the kernel evaluates the record once. -/

namespace Sys2Proof

/-- No code of `s` is in `t`. -/
def disjointCodes (s t : List Byte) : Bool := s.all (fun b => !t.contains b)

/-- No two of the sets share a code. -/
def disjointSets : List (List Byte) → Bool
  | [] => true
  | s :: rest => rest.all (disjointCodes s) && disjointSets rest

/-- R153, R12: every one-argument code set is non-empty and disjoint from every other and from `{CMD_OFF, CMD_ON}`, which
differ. -/
def CmdMap.legal (m : CmdMap) : Bool :=
  match m with
  | ⟨off, on, s1, s2, s3, s4, s5, s6, s7, s8, s9, s10, s11⟩ =>
    off != on
      && [s1, s2, s3, s4, s5, s6, s7, s8, s9, s10, s11].all (fun s => !s.isEmpty && !s.contains off && !s.contains on)
      && disjointSets [s1, s2, s3, s4, s5, s6, s7, s8, s9, s10, s11]

/-- R11, R12: the parameter set describes hardware. -/
def Config.legal (c : Config) : Bool :=
  match c with
  | ⟨w, h, sx, sy, xOff, yOff, dw, dh, bpp, _, policy, depth, pubTimeout, _, map, syncStages⟩ =>
    [decide (1 ≤ w), decide (8 ≤ h), h % 8 == 0, decide (1 ≤ sx), decide (1 ≤ sy),
      decide (xOff + w * sx ≤ dw), decide (yOff + h * sy ≤ dh), decide (dw ≤ 65535), decide (dh ≤ 65535),
      decide (w * sx ≤ 65535), [1, 2, 4, 8, 16, 24].contains bpp,
      decide (1 ≤ depth), policy == .bounded || depth == 1, decide (pubTimeout < 2 ^ 32), decide (2 ≤ syncStages),
      map.legal].all id

/-- R12: a parameter set that the core can be elaborated with. -/
abbrev Config.Legal (c : Config) : Prop := c.legal = true

/-- `NB` of a row of `n` pixels: `(n * BPP + 7) / 8` (R351). -/
def Config.rowBytes (c : Config) (n : Nat) : Nat := (n * c.bpp + 7) / 8

end Sys2Proof
end

