-- ==== Sys2Proof/Machine/State.lean ====
section
/-! DEFINITION. The core's state (10_state.md), as plain data, its reset (70_reset_and_hazards.md R450), and the reasons a step
stops. INVENTORY.md lists every field with its rule and its reset value. -/

namespace Sys2Proof.Machine

open Sys2Proof

/-- A storage space inside the core (R104). -/
inductive Space where
  | sb
  | pb
  | arena
deriving DecidableEq, Repr

/-- Why the machine stops. The spec gives no fault (93 section 2: "No behaviour of the core is `fault`"): these are accesses to
bytes R104 does not have and a choice from an empty set, which happen in no state that the invariant `Safety.CoreInv` admits. -/
inductive Fault where
  /-- Raised by a read or write of a byte outside `0 .. CAP-1` of SB or outside the arena's NBUF buffers of CAP bytes (R104
  gives no such byte). Safe: no value is invented. -/
  | outsideSpace (space : Space)
  /-- Raised by `push_fill` when `free` is empty, where R258's `min(free)` has no value; R265 says it never happens. Safe. -/
  | noFreeBuffer
deriving DecidableEq, Repr

/-- Why the model gives a step no meaning. -/
inductive Refusal where
  /-- Raised by `exec` for an instruction without a meaning yet. Safe. No arm is one. -/
  | notModelled (mnemonic : String)
  /-- Raised by `step` for a parameter set that R11 and R12 refuse at elaboration. Safe: R12 asks for it. -/
  | illegalParameters
  /-- Raised by a meaning run outside its rule's Condition (the decoder state in which its byte is read). `step` never does
  that, since the decoder state chooses the reading (R150). Safe. -/
  | decoderStateMismatch
  /-- Raised by a clk_r cycle in which TP answers a rectangle that does not await its answer. R10, D33, I8: the spec gives no
  meaning to the run. Safe. -/
  | tpDutyBreach
deriving DecidableEq, Repr

/-- A byte memory as a list of (index, byte) pairs in one canonical form: indices strictly rising, no entry equal to what an
unlisted index reads as (`Space.unlisted`). -/
abbrev Memory := List Host.Cell

/-- `ren_state` (R66); the binary encoding is not architectural (I4). -/
inductive RenState where
  | clear
  | acquire
  | decode
  | emit
  | commit
  | abort
deriving DecidableEq, Repr, Inhabited

/-- `rx_state` (R75). -/
inductive RxState where
  | rx
  | pubWait
deriving DecidableEq, Repr, Inhabited

/-- One rectangle write: `tp_x`, `tp_y`, `tp_w`, `tp_h` and the pixel bytes (R86, R314, R321). -/
structure Rect where
  x : Coord
  y : Coord
  w : Coord
  h : Coord
  bytes : List Byte
deriving DecidableEq, Repr, Inhabited

/-- Where the rectangle write in progress stands on the transport ports (R86, R321). -/
inductive TpPhase where
  /-- No rectangle is in progress; both valid outputs are 0. -/
  | idle
  /-- Step 1: `tp_cmd_valid = 1` with the rectangle's fields. -/
  | cmd (r : Rect)
  /-- Step 2: `tp_data_valid = 1` with byte `i` of the rectangle. -/
  | data (r : Rect) (i : Nat)
  /-- Step 3: every byte is taken; the answer is awaited. -/
  | resp
deriving DecidableEq, Repr, Inhabited

/-- What a run shows (R332), beside the counters and `power`; and where a pass begins (R305), which is the model's own mark. -/
inductive Obs where
  /-- A grant was taken: a pass begins. The model's own mark, log entry 7. -/
  | passStart
  /-- The rectangle write offered to TP. -/
  | rect (r : Rect)
  /-- TP's answer to it. -/
  | answer (err : Bool)
  /-- The diagnostic output event `diag(b)`. -/
  | diag (b : Byte)
deriving DecidableEq, Repr

/-- What `handle_byte` reads and writes (R200): R60 to R64, R70. -/
structure Decoder where
  /-- `dec_state` (R60). -/
  decState : DecState
  /-- `pending_cmd[7:0]` (R61). -/
  pendingCmd : Byte
  /-- `power` (R62). -/
  power : Bool
  /-- `cursor` (R63), 0 to CAP-1. -/
  cursor : Nat
  /-- `SB[0..CAP-1]` (R64). -/
  sb : Memory
  /-- `diag_valid` (R70). -/
  diagValid : Bool
  /-- `diag_byte[7:0]` (R70). -/
  diagByte : Byte
deriving DecidableEq, Repr, Inhabited

/-- The rest of the clk_r domain: R65 to R69 and the transport ports of R86. -/
structure Render where
  /-- `PB[0..CAP-1]` (R65). -/
  pb : Memory
  /-- `prev_valid` (R65). -/
  prevValid : Bool
  /-- `ren_state` (R66). -/
  renState : RenState
  /-- `clr_ptr` (R67), 0 to CAP. -/
  clrPtr : Nat
  /-- `cur_idx` (R67), 0 to NBUF-1. -/
  curIdx : Nat
  /-- `dec_ptr` (R67), 0 to CAP. -/
  decPtr : Nat
  /-- `row_y` (R67), 0 to H. -/
  rowY : Nat
  /-- `row_dy` (R67), 0 to SY-1. -/
  rowDy : Nat
  /-- `req_tgl` (R68). -/
  reqTgl : Bool
  /-- `ack_sync[0..SYNC_STAGES-1]` (R68), stage 0 first. -/
  ackSync : List Bool
  /-- `ack_seen` (R68). -/
  ackSeen : Bool
  /-- `abort_cnt[31:0]` (R69). -/
  abortCnt : Count
  /-- The registers behind the `tp_*` outputs (R86, R321). -/
  tp : TpPhase
  /-- The model's own: clk_r cycles since the first rectangle was offered after the reset, 0 before it
  (`Config.freeTpFields`). Log entry 21. -/
  tpCycles : Nat
deriving DecidableEq, Repr, Inhabited

/-- The clk_i domain but for the arena: R75 to R81. -/
structure Ingest where
  /-- `rx_state` (R75). -/
  rxState : RxState
  /-- `rx_count` (R76), 0 to CAP+1. -/
  rxCount : Nat
  /-- `fill_idx` (R77). -/
  fillIdx : Nat
  /-- `q` (R78), the buffer to be granted first at the head. -/
  q : List Nat
  /-- `held_valid` (R78). -/
  heldValid : Bool
  /-- `held_idx` (R78). -/
  heldIdx : Nat
  /-- `free` (R78): the set of free arena indices, as the rising list of its members. DEDUCED, log entry 16. -/
  free : List Nat
  /-- `wait_left[31:0]` (R79). -/
  waitLeft : Count
  /-- `req_sync[0..SYNC_STAGES-1]` (R80), stage 0 first. -/
  reqSync : List Bool
  /-- `req_seen` (R80). -/
  reqSeen : Bool
  /-- `ack_tgl` (R80). -/
  ackTgl : Bool
  /-- `ack_ok` (R80). -/
  ackOk : Bool
  /-- `ack_idx` (R80). -/
  ackIdx : Nat
  /-- `overrun_cnt[31:0]` (R81). -/
  overrunCnt : Count
  /-- `dropped_cnt[31:0]` (R81). -/
  droppedCnt : Count
deriving DecidableEq, Repr, Inhabited

/-- The core's whole state, and the model's own fields: `cfg` (the elaboration parameters, which no step changes), `inputs`,
`ticks`, `epoch` and `shown` (and `ren.tpCycles`). -/
structure State where
  /-- The parameters the core was elaborated with (R11, R88): no state of the core's. Log entry 1. -/
  cfg : Config
  /-- clk_r: what the decoder owns. -/
  dec : Decoder
  /-- clk_r: the render engine. -/
  ren : Render
  /-- clk_i: the receiver and the Frame Exchange. -/
  ing : Ingest
  /-- `ARENA` (R82): byte `i` of buffer `b` at index `b*CAP + i`. -/
  arena : Memory
  /-- The model's own: choices of the environment still to come, oldest first. Log entry 4. -/
  inputs : List Tick
  /-- The model's own: how many free choices have been read (`Config.freeTick`). Log entry 4. -/
  ticks : Nat
  /-- The model's own: how many resets have happened (`Config.freeArenaByte`, `Config.freePrevByte`). Log entry 6. -/
  epoch : Nat
  /-- The model's own: what the run has shown (R332), newest first. Log entry 7. -/
  shown : List Obs
deriving DecidableEq, Repr, Inhabited

/-- The core elaborated with `c`, right after reset: the table of R450. -/
def State.resetOf (c : Config) : State where
  cfg := c
  dec :=
    { decState := .idle, pendingCmd := 0x00, power := false, cursor := 0, sb := [], diagValid := false, diagByte := 0x00 }
  ren :=
    { pb := [], prevValid := false, renState := .clear, clrPtr := 0, curIdx := 0, decPtr := 0, rowY := 0, rowDy := 0
      reqTgl := false, ackSync := List.replicate c.syncStages false, ackSeen := false, abortCnt := 0, tp := .idle
      tpCycles := 0 }
  ing :=
    { rxState := .rx, rxCount := 0, fillIdx := 0, q := [], heldValid := false, heldIdx := 0
      free := (List.range c.nbuf).tail, waitLeft := 0, reqSync := List.replicate c.syncStages false, reqSeen := false
      ackTgl := false, ackOk := false, ackIdx := 0, overrunCnt := 0, droppedCnt := 0 }
  arena := []
  inputs := []
  ticks := 0
  epoch := 0
  shown := []

/-- The machine right after reset, for the parameter set `Config.standard` (R450; log entry 1). -/
def State.reset : State := State.resetOf Config.standard

end Sys2Proof.Machine
end

