-- ==== Sys2Proof/Machine/Ops.lean ====
section
/-! DEFINITION. The shared operations: byte reads and writes (R15, R104), outcomes in sequence, the error events (R16, R400), the
synchronisers (R250, R254) and the clocking of inputs. -/

namespace Sys2Proof.Machine

open Sys2Proof

/-- What a step answers. -/
abbrev Answer := Host.Outcome State Fault Refusal

/-- Statements in the order written (R15): `k` runs on the state that `o` leaves; a stop ends the step. -/
def Answer.andThen (o : Answer) (k : State → Answer) : Answer :=
  match o with
  | .next s => k s
  | .fault f => .fault f
  | .refused r => .refused r

/-! ## Byte memories -/

/-- What an unlisted index reads as: SB is all 0x00 at reset (R450); PB and the arena are unspecified, so an unlisted index
there holds no value of the model's (I1, I3; log entry 6). -/
def Space.unlisted : Space → Option Byte
  | .sb => some 0x00
  | .pb => none
  | .arena => none

/-- The byte at index `a`; `d` is what an unlisted index reads as. -/
def Memory.read (d : Option Byte) : Memory → Nat → Option Byte
  | [], _ => d
  | (k, v) :: rest, a => if a = k then some v else Memory.read d rest a

/-- Byte `v` written at index `a`, in canonical form. -/
def Memory.write (d : Option Byte) : Memory → Nat → Byte → Memory
  | [], a, v => if some v = d then [] else [(a, v)]
  | (k, u) :: rest, a, v =>
    if a < k then (if some v = d then (k, u) :: rest else (a, v) :: (k, u) :: rest)
    else if a = k then (if some v = d then rest else (a, v) :: rest)
    else (k, u) :: Memory.write d rest a v

/-- The memory with byte `f i` at each index `i < n` and nothing else, where an unlisted index holds no value. -/
def Memory.ofBytes (n : Nat) (f : Nat → Byte) : Memory := (List.range n).map (fun i => (i, f i))

/-- The canonical form: indices strictly rising, and no entry equal to what an unlisted index reads as. -/
abbrev Memory.wf (d : Option Byte) (m : Memory) : Prop :=
  m.Pairwise (fun x y => x.1 < y.1) ∧ ∀ x ∈ m, some x.2 ≠ d

/-- No entry lies outside a space of `n` bytes. -/
abbrev Memory.within (n : Nat) (m : Memory) : Prop := ∀ x ∈ m, x.1 < n

/-- The index of byte `i` of arena buffer `b` (R104: NBUF × CAP bytes). -/
def arenaIndex (c : Config) (b i : Nat) : Nat := b * c.cap + i

/-- `SB[i]` (R15, R64). DEDUCED: 0x00 from the reset on (R452), log entry 18. -/
def State.readSb (s : State) (i : Nat) : Byte := (Memory.read Space.sb.unlisted s.dec.sb i).getD 0x00

/-- `PB[i]` (R15, R65); a free value while no commit since the reset has written it (I3). -/
def State.readPb (s : State) (i : Nat) : Byte :=
  (Memory.read Space.pb.unlisted s.ren.pb i).getD (Config.freePrevByte s.epoch i)

/-- `ARENA[b][i]` (R15, R82); a free value while ING has not written it since the reset (I1). -/
def State.readArena (s : State) (b i : Nat) : Byte :=
  (Memory.read Space.arena.unlisted s.arena (arenaIndex s.cfg b i)).getD (Config.freeArenaByte s.epoch b i)

/-- `SB[i] <- v` (R15). -/
def State.writeSb (s : State) (i : Nat) (v : Byte) : Answer :=
  if i < s.cfg.cap then .next { s with dec := { s.dec with sb := Memory.write Space.sb.unlisted s.dec.sb i v } }
  else .fault (.outsideSpace .sb)

/-- `ARENA[b][i] <- v` (R15). -/
def State.writeArena (s : State) (b i : Nat) (v : Byte) : Answer :=
  if b < s.cfg.nbuf ∧ i < s.cfg.cap then
    .next { s with arena := Memory.write Space.arena.unlisted s.arena (arenaIndex s.cfg b i) v }
  else .fault (.outsideSpace .arena)

/-! ## Sets of arena indices (R78) -/

/-- `l ∪ {b}` for a rising list `l`. -/
def insertIdx (b : Nat) : List Nat → List Nat
  | [] => [b]
  | c :: rest => if b < c then b :: c :: rest else if b = c then c :: rest else c :: insertIdx b rest

/-! ## Error events (60_exceptions.md) -/

/-- The error events (R400). ProtocolAnomaly carries the byte. -/
inductive Event where
  | protocolAnomaly (b : Byte)
  | transferSizeOverrun
  | exchangeOverflow
  | transportFailure
  | initializationFailure
deriving DecidableEq, Repr

/-- The event codes of R400. -/
def Event.code : Event → Nat
  | .protocolAnomaly _ => 1
  | .transferSizeOverrun => 2
  | .exchangeOverflow => 3
  | .transportFailure => 4
  | .initializationFailure => 5

/-- `diag(b)` (R411): the diagnostic output register takes the byte; `diag(b)` is also an output event. -/
def State.diag (s : State) (b : Byte) : State :=
  { s with dec := { s.dec with diagValid := true, diagByte := b }, shown := .diag b :: s.shown }

/-- `raise <Event>` (R16, R400 to R406): the one place where an event takes effect. It records and goes on; nothing traps
(R408). TransportFailure ends the pass by ABORT, whose step counts it (R320, R328). InitializationFailure records nothing and
is raised by no rule (R406). -/
def State.raise (s : State) : Event → State
  | .protocolAnomaly b => s.diag b
  | .transferSizeOverrun => { s with ing := { s.ing with overrunCnt := s.ing.overrunCnt + 1 } }
  | .exchangeOverflow => { s with ing := { s.ing with droppedCnt := s.ing.droppedCnt + 1 } }
  | .transportFailure => { s with ren := { s.ren with renState := .abort } }
  | .initializationFailure => s

/-! ## Synchronisers (R250, R254) -/

/-- `chain[SYNC_STAGES-1]`: the value the receiving domain sees. -/
def syncOut (chain : List Bool) : Bool := chain.getLastD false

/-- The chain at the start of a cycle of the receiving clock: `through` shows the sender's toggle at once (R268). -/
def syncBefore (y : Sync) (chain : List Bool) (tgl : Bool) : List Bool :=
  match y with
  | .through => List.replicate chain.length tgl
  | .shift | .hold => chain

/-- The chain after the cycle: `chain <- {chain, tgl}` (R250, last line), stage 0 taking the sender's toggle. -/
def syncAfter (y : Sync) (chain : List Bool) (tgl : Bool) : List Bool :=
  match y with
  | .shift => (tgl :: chain).take chain.length
  | .hold | .through => chain

/-! ## The command byte at the decode index -/

/-- The decoder's byte `ARENA[cur_idx][dec_ptr]` (R308). -/
def State.fetchByte (s : State) : Byte := s.readArena s.ren.curIdx s.ren.decPtr

/-- The instruction that byte is in the decoder's state (R150). -/
def State.fetchInstr (s : State) : Instr := readByte s.cfg.map s.dec.decState s.fetchByte

/-- Table word `w` placed where the next DECODE step reads: byte `k` of it at `ARENA[cur_idx][k]`, REN in DECODE at index 0
with the decoder in IDLE (the state the table's rows are read in), and a quiet clk_r cycle as the next choice. -/
def State.placeWord (s : State) (w : Nat) : State :=
  let put (m : Memory) (k : Nat) : Memory :=
    if k < s.cfg.cap then
      Memory.write Space.arena.unlisted m (arenaIndex s.cfg s.ren.curIdx k) (BitVec.ofNat 8 (w / 2 ^ (8 * k)))
    else m
  { s with
    arena := put (put s.arena 0) 1
    dec := { s.dec with decState := .idle }
    ren := { s.ren with renState := .decode, decPtr := 0, tp := .idle }
    inputs := .clkR TpIn.quiet .shift :: s.inputs }

/-! ## Inputs and reset -/

/-- The choice the next step takes: the oldest listed one, or a free one (R9, R10; log entry 4). -/
def State.nextTick (s : State) : Tick :=
  match s.inputs with
  | t :: _ => t
  | [] => Config.freeTick s.ticks

/-- The state once that choice is taken. -/
def State.popTick (s : State) : State :=
  match s.inputs with
  | _ :: rest => { s with inputs := rest }
  | [] => { s with ticks := s.ticks + 1 }

/-- `rst_n` low (R450, R451): one action sets the whole table, in both domains. The parameters and the model's own fields stay;
PB and the arena become unspecified again. DEDUCED: one action, log entry 13. -/
def State.applyReset (s : State) : State :=
  { State.resetOf s.cfg with inputs := s.inputs, ticks := s.ticks, epoch := s.epoch + 1, shown := s.shown }

end Sys2Proof.Machine
end

