-- ==== Sys2Proof/Machine/Flags.lean ====
section
/-! DEFINITION. The core's flags, `power` (R62) and `prev_valid` (R65), the diagnostic valid bit (R70), and the read-only status
outputs (10_state.md R83, R86). -/

namespace Sys2Proof.Machine

open Sys2Proof

/-- `power <- p` (R203, R204). -/
def Decoder.setPower (d : Decoder) (p : Bool) : Decoder := { d with power := p }

/-- `prev_valid <- v` (R327, R328). -/
def Render.setPrevValid (r : Render) (v : Bool) : Render := { r with prevValid := v }

/-- The diagnostic register at the end of a clk_r cycle that ignores no byte: `diag_valid <- 0`, and `diag_byte` keeps its
value (R411). -/
def State.endPulse (s : State) : State := { s with dec := { s.dec with diagValid := false } }

/-! ## Status outputs (R83) -/

/-- `overrun_cnt_o`. -/
def State.overrunCntO (s : State) : Count := s.ing.overrunCnt
/-- `dropped_cnt_o`. -/
def State.droppedCntO (s : State) : Count := s.ing.droppedCnt
/-- `abort_cnt_o`. -/
def State.abortCntO (s : State) : Count := s.ren.abortCnt
/-- `power_o`. -/
def State.powerO (s : State) : Bool := s.dec.power
/-- `dec_state_o`. -/
def State.decStateO (s : State) : BitVec 2 := s.dec.decState.code
/-- `diag_valid_o`. -/
def State.diagValidO (s : State) : Bool := s.dec.diagValid
/-- `diag_byte_o`. -/
def State.diagByteO (s : State) : Byte := s.dec.diagByte

/-! ## Transport outputs (R86) -/

/-- `tp_cmd_valid`, with `tp_x`, `tp_y`, `tp_w` and `tp_h` of the rectangle while it is 1. -/
def State.tpCmdO (s : State) : Option Rect :=
  match s.ren.tp with
  | .cmd r => some r
  | _ => none

/-- `tp_data_valid`, with `tp_data` and `tp_data_last` while it is 1 (R321 step 2). -/
def State.tpDataO (s : State) : Option (Byte × Bool) :=
  match s.ren.tp with
  | .data r i => (r.bytes[i]?).map (fun b => (b, i + 1 == r.bytes.length))
  | _ => none

/-- `tp_cmd_valid`. -/
def State.tpCmdValidO (s : State) : Bool := s.tpCmdO.isSome
/-- `tp_data_valid`. -/
def State.tpDataValidO (s : State) : Bool := s.tpDataO.isSome

/-- What the field outputs show while their valid is 0: the reset value 0 (92_eei_decisions.md D20) until the first rectangle is
offered, and from then on a free value in each clk_r cycle, since no rule says. Log entry 21. -/
def State.tpQuietFields (s : State) : TpFields :=
  if s.ren.tpCycles = 0 then { x := 0, y := 0, w := 0, h := 0, data := 0x00, dataLast := false }
  else Config.freeTpFields s.epoch s.ren.tpCycles

/-- `tp_x`, `tp_y`, `tp_w`, `tp_h`, `tp_data` and `tp_data_last` (R86): of the rectangle or the byte offered while the valid is 1
(R321). -/
def State.tpFieldsO (s : State) : TpFields :=
  let f := s.tpQuietFields
  let f := match s.tpCmdO with
    | some r => { f with x := r.x, y := r.y, w := r.w, h := r.h }
    | none => f
  match s.tpDataO with
  | some (b, last) => { f with data := b, dataLast := last }
  | none => f

/-- The model's count of clk_r cycles since the first offer, at the end of one. -/
def Render.nextTpCycles (r : Render) : Nat := if r.tpCycles = 0 ∧ r.tp = .idle then 0 else r.tpCycles + 1

end Sys2Proof.Machine
end

