-- ==== Sys2Proof/Machine/Exchange.lean ====
section
/-! DEFINITION. The receiver and the Frame Exchange (41_exchange.md): the operations of ING and its clk_i cycle. -/

namespace Sys2Proof.Machine

open Sys2Proof

/-- Buffer `held_idx` released into `free`, if one is held (R252, first line; D14). -/
def releaseHeld (g : Ingest) : Ingest :=
  if g.heldValid then { g with free := insertIdx g.heldIdx g.free, heldValid := false } else g

/-- The answer's bundled data (R252, R254): the queue's first buffer, or "no frame" with `ack_idx` kept (log entry 20). -/
def grantNext (g : Ingest) : Ingest :=
  match g.q with
  | b :: rest => { g with heldIdx := b, heldValid := true, q := rest, ackOk := true, ackIdx := b }
  | [] => { g with ackOk := false }

/-- `serve_acquire()` (R252). -/
def serveAcquire (g : Ingest) : Ingest :=
  let g := grantNext (releaseHeld g)
  { g with ackTgl := !g.ackTgl }

/-- `push_fill()` (R258): the chunk enters the queue and the lowest free buffer becomes the fill buffer. -/
def pushFill (s : State) : Answer :=
  match s.ing.free.min? with
  | some b =>
    .next { s with ing := { s.ing with q := s.ing.q ++ [s.ing.fillIdx], fillIdx := b, free := s.ing.free.erase b, rxCount := 0 } }
  | none => .fault .noFreeBuffer

/-- `drop()` (R261): `raise ExchangeOverflow(); rx_count <- 0`. -/
def dropFrame (s : State) : State :=
  let s := s.raise .exchangeOverflow
  { s with ing := { s.ing with rxCount := 0 } }

/-- `overrun` (R257): `raise TransferSizeOverrun(); rx_count <- 0`. -/
def overrun (s : State) : State :=
  let s := s.raise .transferSizeOverrun
  { s with ing := { s.ing with rxCount := 0 } }

/-- `drop(); rx_state <- RX`: a wait that ends without a publish (R250 steps C and F). -/
def dropWait (s : State) : State :=
  let s := dropFrame s
  { s with ing := { s.ing with rxState := .rx } }

/-- R260, first line: an unconsumed mailbox frame is discarded, not counted. -/
def discardOldest (g : Ingest) : Ingest :=
  match g.q with
  | [b] => { g with q := [], free := insertIdx b g.free }
  | _ => g

/-- `publish()` (R259, R260). -/
def publish (s : State) : Answer :=
  match s.cfg.policy with
  | .bounded =>
    if s.ing.q.length < s.cfg.depth then pushFill s
    else if s.cfg.pubTimeout = 0 then .next (dropFrame s)
    else .next { s with ing := { s.ing with rxState := .pubWait, waitLeft := BitVec.ofNat 32 s.cfg.pubTimeout } }
  | .dropOldest => pushFill { s with ing := discardOldest s.ing }

/-- `end_transfer()` (R256): the size check. -/
def endTransfer (s : State) : Answer :=
  if s.ing.rxCount = s.cfg.cap then publish s else .next (overrun s)

/-- `store_byte(v)` (R255). -/
def storeByte (v : Byte) (s : State) : Answer :=
  let counted (t : State) : Answer :=
    .next { t with ing := { t.ing with rxCount := min (t.ing.rxCount + 1) (t.cfg.cap + 1) } }
  if s.ing.rxCount < s.cfg.cap then (s.writeArena s.ing.fillIdx s.ing.rxCount v).andThen counted else counted s

/-! ## The steps of `ing_cycle` (R250) -/

/-- Step A: a request that the synchroniser shows is served. -/
def ingServe (s : State) : State :=
  let seen := syncOut s.ing.reqSync
  if seen ≠ s.ing.reqSeen then { s with ing := { serveAcquire s.ing with reqSeen := seen } } else s

/-- Step B: a waiting publish retries. -/
def ingRetry (s : State) : Answer :=
  if s.ing.rxState = .pubWait ∧ s.ing.q.length < s.cfg.depth then
    (pushFill s).andThen fun t => .next { t with ing := { t.ing with rxState := .rx } }
  else .next s

/-- Step C: bus activity ends a wait (R263). -/
def ingBusEndsWait (bus : BusIn) (s : State) : State :=
  if s.ing.rxState = .pubWait ∧ (bus.inValid || bus.inEnd) then dropWait s else s

/-- Step D: a byte arrives. -/
def ingByte (bus : BusIn) (s : State) : Answer :=
  if s.ing.rxState = .rx ∧ bus.inValid then storeByte bus.inByte s else .next s

/-- Step E: the transfer ends. -/
def ingEnd (bus : BusIn) (s : State) : Answer :=
  if s.ing.rxState = .rx ∧ bus.inEnd then endTransfer s else .next s

/-- Step F: the wait counts down (R262). `waiting` is `waiting_at_start`, `entered` is `entered_wait`. -/
def ingCountdown (waiting entered : Bool) (s : State) : State :=
  if s.ing.rxState = .pubWait ∧ waiting ∧ !entered then
    let left := s.ing.waitLeft - 1
    let s := { s with ing := { s.ing with waitLeft := left } }
    if left = 0 then dropWait s else s
  else s

/-- Steps E and F: `entered_wait` is set exactly when step E moves the receiver to PUB_WAIT (R259). -/
def ingEndAndCountdown (waiting : Bool) (bus : BusIn) (s : State) : Answer :=
  (ingEnd bus s).andThen fun t => .next (ingCountdown waiting (s.ing.rxState = .rx ∧ t.ing.rxState = .pubWait) t)

/-- `req_sync` at the start of a clk_i cycle (R268). -/
def ingBegin (y : Sync) (s : State) : State :=
  { s with ing := { s.ing with reqSync := syncBefore y s.ing.reqSync s.ren.reqTgl } }

/-- `req_sync` at the end of a clk_i cycle: it takes `req_tgl` (R250, last line). -/
def ingFinish (y : Sync) (s : State) : State :=
  { s with ing := { s.ing with reqSync := syncAfter y s.ing.reqSync s.ren.reqTgl } }

/-- `ing_cycle()` (R250): one clk_i cycle, steps A to F in order, each on the state the ones before it left; then the
synchroniser shifts. DEDUCED: R268's actions are such cycles, log entry 15. -/
def ingCycle (bus : BusIn) (y : Sync) (s : State) : Answer :=
  (ingRetry (ingServe (ingBegin y s))).andThen fun b =>
  (ingByte bus (ingBusEndsWait bus b)).andThen fun d =>
  (ingEndAndCountdown (s.ing.rxState = .pubWait) bus d).andThen fun f =>
  .next (ingFinish y f)

end Sys2Proof.Machine
end

