-- ==== Sys2Proof/Machine/Operands.lean ====
section
/-! DEFINITION. What the bytes of the three formats stand for (30_encoding.md R150, R152): a command's code, an argument, eight
source pixels of one column; and the mapping between bitmap bytes and pixels (20_memory.md R100, R101). -/

namespace Sys2Proof.Machine

open Sys2Proof

/-- Format ARG: the argument zero-extended to `n` bits (R152). -/
def argOperand (n : Nat) (b : Byte) : BitVec n := b.setWidth n

/-- The byte of a bitmap that holds pixel `(x, y)`: `(y/8)*W + x` (R100). -/
def pixelByte (c : Config) (x y : Nat) : Nat := y / 8 * c.w + x

/-- The bit of that byte: `y mod 8` (R100). -/
def pixelBit (y : Nat) : Nat := y % 8

/-- `pixel(M, x, y)` of R100, for the bitmap whose byte `i` is `m i`. 1 is lit (R103; PRESUMED by the spec, log entry 3). -/
def pixel (c : Config) (m : Nat → Byte) (x y : Nat) : Bool := (m (pixelByte c x y)).bit (pixelBit y)

/-- Format DATA at byte `i` of the bitmap: the pixel that bit `k` carries, `(i mod W, 8*(i/W) + k)` (R101, R150). -/
def dataPixel (c : Config) (i k : Nat) : Nat × Nat := (i % c.w, 8 * (i / c.w) + k)

/-- The cursor after a pixel byte: `(cursor + 1) mod CAP` (R218, R223). -/
def cursorNext (c : Config) (cursor : Nat) : Nat := (cursor + 1) % c.cap

end Sys2Proof.Machine
end

