-- ==== Sys2Proof/Machine/Compositor.lean ====
section
/-! DEFINITION. The pixel-format compositor (43_pixel_format.md): a row of lit and dark pixels as destination bytes. -/

namespace Sys2Proof.Machine

open Sys2Proof

/-- `val(p)` (R350): every bit of a BPP-bit pixel set, or 0. -/
def pixelValue (c : Config) (p : Bool) : Nat := if p then 2 ^ c.bpp - 1 else 0

/-- R357, BPP ≥ 8: one pixel's `BPP/8` equal bytes (R352). -/
def wideBytes (c : Config) (p : Bool) : List Byte := List.replicate (c.bpp / 8) (if p then 0xFF else 0x00)

/-- R357: the shift of slot `m` in a shared byte. -/
def slotShift (c : Config) (m : Nat) : Nat := if c.packMsbFirst then 8 - c.bpp * (m + 1) else c.bpp * m

/-- R357, BPP < 8: byte `k`, its `8/BPP` slots joined by bitwise or; a slot after the last pixel is 0 (R351, R355). -/
def packedByte (c : Config) (px : List Bool) (k : Nat) : Byte :=
  (List.range (8 / c.bpp)).foldl
    (fun out m => out ||| BitVec.ofNat 8 (pixelValue c (px.getD (k * (8 / c.bpp) + m) false) * 2 ^ slotShift c m)) 0x00

/-- `encode(px)` (R357). -/
def encodeRow (c : Config) (px : List Bool) : List Byte :=
  if 8 ≤ c.bpp then px.flatMap (wideBytes c) else (List.range (c.rowBytes px.length)).map (packedByte c px)

end Sys2Proof.Machine
end

