-- ==== Sys2Proof/Machine/Display.lean ====
section
/-! DEFINITION. The no-argument commands (40_decoder.md section 2), and the Condition that every decoder rule has. -/

namespace Sys2Proof.Machine

open Sys2Proof

/-- A rule's Condition (R203 to R218): its effect, in the decoder state its byte is read in. `step` reads a byte by the decoder
state (R150), so it never runs a meaning in another one. -/
def inDecState (st : DecState) (s : State) (effect : Answer) : Answer :=
  if s.dec.decState = st then effect else .refused .decoderStateMismatch

/-- DISPLAY_OFF (R203): `power <- 0; dec_state <- IDLE`. -/
def execDisplayOff (s : State) : Answer :=
  inDecState .idle s (.next { s with dec := { s.dec.setPower false with decState := .idle } })

/-- DISPLAY_ON (R204): `power <- 1; cursor <- 0; dec_state <- PIXEL`. -/
def execDisplayOn (s : State) : Answer :=
  inDecState .idle s (.next { s with dec := { s.dec.setPower true with cursor := 0, decState := .pixel } })

end Sys2Proof.Machine
end

