-- ==== Sys2Proof/Machine/Data.lean ====
section
/-! DEFINITION. The argument, ignored and data bytes (40_decoder.md section 4). -/

namespace Sys2Proof.Machine

open Sys2Proof

/-- ARGUMENT (R216): `dec_state <- IDLE`. The value is discarded and `pending_cmd` kept. -/
def execArgument (_arg : Byte) (s : State) : Answer :=
  inDecState .awaitArg s (.next { s with dec := { s.dec with decState := .idle } })

/-- IGNORED (R217): `raise ProtocolAnomaly(b)` and nothing else. -/
def execIgnored (b : Byte) (s : State) : Answer :=
  inDecState .idle s (.next (s.raise (.protocolAnomaly b)))

/-- PIXEL_DATA (R218): `SB[cursor] <- b; cursor <- (cursor + 1) mod CAP`. -/
def execPixelData (d : Byte) (s : State) : Answer :=
  inDecState .pixel s
    ((s.writeSb s.dec.cursor d).andThen fun t =>
      .next { t with dec := { t.dec with cursor := cursorNext t.cfg t.dec.cursor } })

end Sys2Proof.Machine
end

