-- ==== Sys2Proof/Machine/OneArgument.lean ====
section
/-! DEFINITION. The eleven one-argument commands (40_decoder.md section 3), each of one shared operation. -/

namespace Sys2Proof.Machine

open Sys2Proof

/-- The pseudocode of R205 to R215: `pending_cmd <- b; dec_state <- AWAIT_ARG`. -/
def awaitArgument (code : Byte) (s : State) : Answer :=
  inDecState .idle s (.next { s with dec := { s.dec with pendingCmd := code, decState := .awaitArg } })

/-- SET_CONTRAST (R205). -/
def execSetContrast (code : Byte) (s : State) : Answer := awaitArgument code s

/-- SET_MUX_RATIO (R206). -/
def execSetMuxRatio (code : Byte) (s : State) : Answer := awaitArgument code s

/-- SET_DISPLAY_OFFSET (R207). The offset moves no pixel. -/
def execSetDisplayOffset (code : Byte) (s : State) : Answer := awaitArgument code s

/-- SET_CHARGE_PUMP (R208). -/
def execSetChargePump (code : Byte) (s : State) : Answer := awaitArgument code s

/-- SET_ADDR_MODE (R209). The cursor order stays linear. -/
def execSetAddrMode (code : Byte) (s : State) : Answer := awaitArgument code s

/-- SET_SEG_REMAP (R210). Nothing is mirrored. -/
def execSetSegRemap (code : Byte) (s : State) : Answer := awaitArgument code s

/-- SET_COM_PINS (R211). -/
def execSetComPins (code : Byte) (s : State) : Answer := awaitArgument code s

/-- SET_PRECHARGE (R212). -/
def execSetPrecharge (code : Byte) (s : State) : Answer := awaitArgument code s

/-- SET_VCOM (R213). -/
def execSetVcom (code : Byte) (s : State) : Answer := awaitArgument code s

/-- SET_CLOCK_DIV (R214). No clock changes. -/
def execSetClockDiv (code : Byte) (s : State) : Answer := awaitArgument code s

/-- SET_START_LINE (R215). Nothing scrolls. -/
def execSetStartLine (code : Byte) (s : State) : Answer := awaitArgument code s

end Sys2Proof.Machine
end

