-- ==== Sys2Proof/Machine/Dispatch.lean ====
section
/-! DEFINITION. `handle_byte`'s dispatch (40_decoder.md R201) after the byte is read: one arm per instruction. -/

namespace Sys2Proof.Machine

open Sys2Proof

def exec (i : Instr) (s : State) : Host.Outcome State Fault Refusal :=
  match i with
  | .displayOff => Sys2Proof.Machine.execDisplayOff s
  | .displayOn => Sys2Proof.Machine.execDisplayOn s
  | .setContrast code => Sys2Proof.Machine.execSetContrast code s
  | .setMuxRatio code => Sys2Proof.Machine.execSetMuxRatio code s
  | .setDisplayOffset code => Sys2Proof.Machine.execSetDisplayOffset code s
  | .setChargePump code => Sys2Proof.Machine.execSetChargePump code s
  | .setAddrMode code => Sys2Proof.Machine.execSetAddrMode code s
  | .setSegRemap code => Sys2Proof.Machine.execSetSegRemap code s
  | .setComPins code => Sys2Proof.Machine.execSetComPins code s
  | .setPrecharge code => Sys2Proof.Machine.execSetPrecharge code s
  | .setVcom code => Sys2Proof.Machine.execSetVcom code s
  | .setClockDiv code => Sys2Proof.Machine.execSetClockDiv code s
  | .setStartLine code => Sys2Proof.Machine.execSetStartLine code s
  | .ignored b => Sys2Proof.Machine.execIgnored b s
  | .argument arg => Sys2Proof.Machine.execArgument arg s
  | .pixelData d => Sys2Proof.Machine.execPixelData d s

end Sys2Proof.Machine
end

