-- ==== Sys2Proof/Machine/Render.lean ====
section
/-! DEFINITION. The render engine (42_render.md): REN's rules and its clk_r cycle. -/

namespace Sys2Proof.Machine

open Sys2Proof

/-! ## Row functions (section 3) -/

/-- `row(SB, y)` (R309). -/
def State.rowOf (s : State) (m : Nat → Byte) (y : Nat) : List Bool := (List.range s.cfg.w).map (fun x => pixel s.cfg m x y)

/-- `row_eq(y)` (R310): the W decoded pixels are compared, not bytes. -/
def State.rowEq (s : State) (y : Nat) : Bool := s.rowOf s.readSb y == s.rowOf s.readPb y

/-- `scaled(y)` (R311). -/
def State.scaledRow (s : State) (y : Nat) : List Bool :=
  (List.range s.cfg.wd).map (fun j => pixel s.cfg s.readSb (j / s.cfg.sx) y)

/-- `skip(y)` (R312). -/
def State.skipRow (s : State) (y : Nat) : Bool := s.cfg.dirtyEn && s.ren.prevValid && s.rowEq y

/-- Repeat `dy` of source row `y` as a rectangle (R313 to R315). -/
def State.rowRect (s : State) (y dy : Nat) : Rect where
  x := BitVec.ofNat 16 s.cfg.xOff
  y := BitVec.ofNat 16 (s.cfg.yOff + y * s.cfg.sy + dy)
  w := BitVec.ofNat 16 s.cfg.wd
  h := 1
  bytes := encodeRow s.cfg (s.scaledRow y)

/-! ## REN's rules -/

/-- `request()` (R302, R253): `req_tgl <- not req_tgl`. -/
def request (r : Render) : Render := { r with reqTgl := !r.reqTgl }

/-- Entry to ACQUIRE, with its request (R302). -/
def enterAcquire (r : Render) : Render := request { r with renState := .acquire }

/-- CLEAR (R301). -/
def renClear (s : State) : Answer :=
  (s.writeSb s.ren.clrPtr 0x00).andThen fun s =>
  let r := { s.ren with clrPtr := s.ren.clrPtr + 1 }
  .next { s with ren := if r.clrPtr = s.cfg.cap then enterAcquire r else r }

/-- Taking the answer (R303, R254): nothing while no answer is seen; then a pass, or another request. -/
def renAcquire (s : State) : State :=
  let seen := syncOut s.ren.ackSync
  if seen = s.ren.ackSeen then s
  else
    let r := { s.ren with ackSeen := seen }
    if s.ing.ackOk then
      { s with ren := { r with curIdx := s.ing.ackIdx, decPtr := 0, renState := .decode }, shown := .passStart :: s.shown }
    else { s with ren := request r }

/-- `handle_byte(b)` (R200, R201): the byte is read by the decoder state, and its rule runs. -/
def handleByte (b : Byte) (s : State) : Answer := exec (readByte s.cfg.map s.dec.decState b) s

/-- R308, last two lines: the decode index moves on, and after the CAP-th byte REN goes to EMIT. -/
def decodeNext (s : State) : State :=
  let r := { s.ren with decPtr := s.ren.decPtr + 1 }
  { s with ren := if r.decPtr = s.cfg.cap then { r with rowY := 0, rowDy := 0, renState := .emit } else r }

/-- DECODE (R308). -/
def renDecode (s : State) : Answer :=
  if s.ren.curIdx < s.cfg.nbuf ∧ s.ren.decPtr < s.cfg.cap then
    (handleByte s.fetchByte s).andThen fun t => .next (decodeNext t)
  else .fault (.outsideSpace .arena)

/-- EMIT with no rectangle in progress (R320): the pass ends, a row is skipped, or a rectangle is offered (R321 step 1). -/
def emitRow (s : State) : Answer :=
  if s.ren.rowY = s.cfg.h then .next { s with ren := { s.ren with renState := .commit } }
  else if s.cfg.h < s.ren.rowY then .fault (.outsideSpace .sb)
  else if s.ren.rowDy = 0 ∧ s.skipRow s.ren.rowY then .next { s with ren := { s.ren with rowY := s.ren.rowY + 1 } }
  else
    let rect := s.rowRect s.ren.rowY s.ren.rowDy
    .next { s with ren := { s.ren with tp := .cmd rect }, shown := .rect rect :: s.shown }

/-- R320 after an OK answer: the next repeat, or the next row. -/
def nextRepeat (c : Config) (r : Render) : Render :=
  if r.rowDy + 1 < c.sy then { r with rowDy := r.rowDy + 1 } else { r with rowDy := 0, rowY := r.rowY + 1 }

/-- R320, R321 step 3: TP's answer. An error raises TransportFailure (R324). -/
def takeAnswer (err : Bool) (s : State) : State :=
  let s := { s with ren := { s.ren with tp := .idle }, shown := .answer err :: s.shown }
  if err then s.raise .transportFailure else { s with ren := nextRepeat s.cfg s.ren }

/-- R321 step 2: the first pixel byte, or step 3 for a rectangle without bytes. -/
def dataFrom (r : Rect) (i : Nat) : TpPhase := if i < r.bytes.length then .data r i else .resp

/-- EMIT (R320, R321) in one clk_r cycle. DEDUCED: a ready without its valid has no effect (R86, D33), log entry 10. -/
def renEmit (tp : TpIn) (s : State) : Answer :=
  match s.ren.tp with
  | .idle => emitRow s
  | .cmd r => .next (if tp.cmdReady then { s with ren := { s.ren with tp := dataFrom r 0 } } else s)
  | .data r i => .next (if tp.dataReady then { s with ren := { s.ren with tp := dataFrom r (i + 1) } } else s)
  | .resp => .next (if tp.respValid then takeAnswer tp.respErr s else s)

/-- COMMIT (R327). -/
def renCommit (s : State) : State :=
  let r := if s.cfg.dirtyEn then { s.ren with pb := Memory.ofBytes s.cfg.cap s.readSb }.setPrevValid true else s.ren
  { s with ren := enterAcquire r }

/-- ABORT (R328). -/
def renAbort (s : State) : State :=
  { s with ren := enterAcquire ({ s.ren with abortCnt := s.ren.abortCnt + 1 }.setPrevValid false) }

/-- One state's rule (R300), in one clk_r cycle. DEDUCED: R461's figures are informational, log entry 11. -/
def renRule (tp : TpIn) (s : State) : Answer :=
  match s.ren.renState with
  | .clear => renClear s
  | .acquire => .next (renAcquire s)
  | .decode => renDecode s
  | .emit => renEmit tp s
  | .commit => .next (renCommit s)
  | .abort => .next (renAbort s)

/-- The start of a clk_r cycle: the diagnostic pulse of the cycle before ends (R411), unless this one ignores a byte; and
`ack_sync` (R268). -/
def renBegin (y : Sync) (s : State) : State :=
  let s := s.endPulse
  { s with ren := { s.ren with ackSync := syncBefore y s.ren.ackSync s.ing.ackTgl } }

/-- The end of a clk_r cycle: `ack_sync` takes `ack_tgl` (R254); and the model's count for the transport's quiet outputs, log
entry 21. -/
def renFinish (y : Sync) (s : State) : State :=
  { s with ren := { s.ren with ackSync := syncAfter y s.ren.ackSync s.ing.ackTgl, tpCycles := s.ren.nextTpCycles } }

/-- One clk_r cycle: REN takes one step of its state (R300). A response that no rectangle awaits breaks TP's duty (R10,
D33; DESIGN CHOICE, log entry 8). -/
def renCycle (tp : TpIn) (y : Sync) (s : State) : Answer :=
  if tp.respValid ∧ s.ren.tp ≠ .resp then .refused .tpDutyBreach
  else (renRule tp (renBegin y s)).andThen fun t => .next (renFinish y t)

end Sys2Proof.Machine
end

