-- ==== Sys2Proof/Machine/Clock.lean ====
section
/-! DEFINITION. One choice of the environment as one atomic step (00_scope.md R8, R9): a cycle of ING's clock, a cycle of REN's
clock, or a reset. -/

namespace Sys2Proof.Machine

open Sys2Proof

/-- The step that a choice makes. DEDUCED: simultaneous edges are steps one after the other, log entry 14. -/
def runTick (t : Tick) (s : State) : Answer :=
  match t with
  | .clkI bus y => ingCycle bus y s
  | .clkR tp y => renCycle tp y s
  | .reset => .next s.applyReset

/-- The machine's step: an illegal parameter set is refused (R12; DESIGN CHOICE, log entry 19); else the next choice is taken and runs. -/
def stepOnce (s : State) : Answer := if s.cfg.Legal then runTick s.nextTick s.popTick else .refused .illegalParameters

end Sys2Proof.Machine
end

