-- ==== Sys2Proof/Machine/Step.lean ====
section
/-! DEFINITION. The machine's step, and a table word placed where the step fetches. -/

namespace Sys2Proof.Machine

open Sys2Proof

/-- One step: one clock cycle of one domain, or a reset (R9). -/
def step (s : State) : Host.Outcome State Fault Refusal := stepOnce s

/-- `s` with the instruction of table word `w` where the next step fetches (log entry 12). -/
def State.withFetchWord (s : State) (_nbits w : Nat) : State := s.placeWord w

end Sys2Proof.Machine
end

