-- ==== Sys2Proof/Safety.lean ====
section
/-! DEFINITION. What holds of the core in every state a run reaches: the terms that the claims use. Each part cites the rule it
states. -/

namespace Sys2Proof.Safety

open Sys2Proof Sys2Proof.Machine

/-! ## The exchange -/

/-- The arena indices by their places (R110): the fill buffer, the queue, the held buffer if any, the free set. -/
def places (s : State) : List Nat :=
  s.ing.fillIdx :: (s.ing.q ++ ((if s.ing.heldValid then [s.ing.heldIdx] else []) ++ s.ing.free))

/-- R110: each of the arena's NBUF indices is in exactly one place. -/
abbrev OwnershipPartition (s : State) : Prop := (places s).Perm (List.range s.cfg.nbuf)

/-- The free set is listed in its one form. -/
abbrev FreeRising (s : State) : Prop := s.ing.free.Pairwise (· < ·)

/-- R76, R78, R75, R79: the ranges of the receiver's registers, and what PUB_WAIT means (R259, R262). -/
abbrev ReceiverInv (s : State) : Prop :=
  s.ing.rxCount ≤ s.cfg.cap + 1 ∧ s.ing.q.length ≤ s.cfg.depth ∧
  (s.ing.rxState = .pubWait →
    s.ing.rxCount = s.cfg.cap ∧ s.cfg.policy = .bounded ∧ 1 ≤ s.ing.waitLeft.toNat ∧ s.ing.waitLeft.toNat ≤ s.cfg.pubTimeout)

/-- Byte `i` of buffer `b` has been written since the reset. -/
abbrev Written (s : State) (b i : Nat) : Prop :=
  (Memory.read Space.arena.unlisted s.arena (arenaIndex s.cfg b i)).isSome = true

/-- All CAP bytes of buffer `b` have been written since the reset. -/
abbrev Filled (s : State) (b : Nat) : Prop := ∀ i < s.cfg.cap, Written s b i

/-- R111: queued and held buffers hold a whole chunk, and the fill buffer the bytes counted so far. -/
abbrev FillInv (s : State) : Prop :=
  (∀ b ∈ s.ing.q, Filled s b) ∧ (s.ing.heldValid = true → Filled s s.ing.heldIdx) ∧
  ∀ i < s.cfg.cap, i < s.ing.rxCount → Written s s.ing.fillIdx i

/-- R259, R262: a publish waits only while the queue is full. -/
abbrev WaitInv (s : State) : Prop := s.ing.rxState = .pubWait → s.ing.q.length = s.cfg.depth

/-! ## The handshake (R253, R254, R268) -/

/-- Every stage of a synchroniser shows `v`. -/
abbrev Settled (v : Bool) (chain : List Bool) : Prop := ∀ x ∈ chain, x = v

/-- A toggle to `new` is moving through a synchroniser that showed `!new`: some first stages have it. -/
abbrev Moving (new : Bool) (chain : List Bool) : Prop := chain.Pairwise (fun a b => b = new → a = new)

/-- A request is pending (R268). -/
abbrev RequestPending (s : State) : Prop := s.ren.reqTgl ≠ s.ing.reqSeen

/-- An answer is pending (R268). -/
abbrev AnswerPending (s : State) : Prop := s.ing.ackTgl ≠ s.ren.ackSeen

/-- R253, R254: outside ACQUIRE nothing is under way; in ACQUIRE either the one request or its answer is, and an answer that
grants a buffer grants the held one. -/
abbrev HandshakeInv (s : State) : Prop :=
  s.ing.reqSync.length = s.cfg.syncStages ∧ s.ren.ackSync.length = s.cfg.syncStages ∧
  ((s.ren.renState ≠ .acquire ∧ ¬RequestPending s ∧ ¬AnswerPending s ∧
      Settled s.ren.reqTgl s.ing.reqSync ∧ Settled s.ing.ackTgl s.ren.ackSync) ∨
   (s.ren.renState = .acquire ∧ RequestPending s ∧ ¬AnswerPending s ∧
      Moving s.ren.reqTgl s.ing.reqSync ∧ Settled s.ing.ackTgl s.ren.ackSync) ∨
   (s.ren.renState = .acquire ∧ ¬RequestPending s ∧ AnswerPending s ∧
      Settled s.ren.reqTgl s.ing.reqSync ∧ Moving s.ing.ackTgl s.ren.ackSync ∧
      s.ing.heldValid = s.ing.ackOk ∧ (s.ing.ackOk = true → s.ing.heldIdx = s.ing.ackIdx)))

/-! ## The render domain -/

/-- R63, R67: the ranges of the render domain's registers where a rule reads them, and the buffer being decoded (R110). -/
abbrev RenderInv (s : State) : Prop :=
  s.dec.cursor < s.cfg.cap ∧
  (s.ren.renState = .clear → s.ren.clrPtr < s.cfg.cap) ∧
  (s.ren.renState = .decode → s.ren.decPtr < s.cfg.cap ∧ s.ing.heldValid = true ∧ s.ren.curIdx = s.ing.heldIdx) ∧
  (s.ren.renState = .emit → s.ren.rowY ≤ s.cfg.h ∧ s.ren.rowDy < s.cfg.sy ∧ (s.ren.rowY = s.cfg.h → s.ren.rowDy = 0))

/-- R321: a rectangle is in progress only in EMIT, it is the current row's, and its data index is one of its bytes'. -/
abbrev TransportInv (s : State) : Prop :=
  (s.ren.tp ≠ .idle → s.ren.renState = .emit ∧ s.ren.rowY < s.cfg.h) ∧
  (∀ r, s.ren.tp = .cmd r → r = s.rowRect s.ren.rowY s.ren.rowDy) ∧
  (∀ r i, s.ren.tp = .data r i → r = s.rowRect s.ren.rowY s.ren.rowDy ∧ i < r.bytes.length)

/-- R65, I3: PB is read only once a commit has written all of it, which needs `DIRTY_EN`. -/
abbrev PrevInv (s : State) : Prop :=
  s.ren.prevValid = true →
    s.cfg.dirtyEn = true ∧ ∀ i < s.cfg.cap, (Memory.read Space.pb.unlisted s.ren.pb i).isSome = true

/-! ## Memory and the whole -/

/-- Every memory is in canonical form and inside its space (R104). -/
abbrev MemoryInv (s : State) : Prop :=
  (Memory.wf Space.sb.unlisted s.dec.sb ∧ Memory.within s.cfg.cap s.dec.sb) ∧
  (Memory.wf Space.pb.unlisted s.ren.pb ∧ Memory.within s.cfg.cap s.ren.pb) ∧
  (Memory.wf Space.arena.unlisted s.arena ∧ Memory.within (s.cfg.nbuf * s.cfg.cap) s.arena)

/-- The invariant of the machine. -/
structure CoreInv (s : State) : Prop where
  legal : s.cfg.Legal
  partition : OwnershipPartition s
  freeRising : FreeRising s
  receiver : ReceiverInv s
  fill : FillInv s
  wait : WaitInv s
  handshake : HandshakeInv s
  render : RenderInv s
  transport : TransportInv s
  prev : PrevInv s
  memory : MemoryInv s

/-- The next choice breaks a duty of TP (R10, D33, I8): an answer that no rectangle awaits. -/
abbrev TpBreach (s : State) : Prop :=
  match s.nextTick with
  | .clkR tp _ => tp.respValid = true ∧ s.ren.tp ≠ .resp
  | _ => False

/-! ## Runs of one agent -/

/-- What a clk_i cycle's byte and transfer end do to a receiver in RX (R250 steps D and E, R85): the byte is stored first, and the
size check sees it. -/
def busInRx (bus : BusIn) (s : State) : Answer :=
  (if bus.inValid then storeByte bus.inByte s else .next s).andThen fun d => if bus.inEnd then endTransfer d else .next d

/-- `handle_byte` for each byte in order (R106, R151). -/
def handleBytes : List Byte → State → Answer
  | [], s => .next s
  | b :: rest, s => (handleByte b s).andThen (handleBytes rest)

/-- clk_i cycles with these bus inputs, oldest first, on the reference synchroniser (R250). -/
def ingCycles : List BusIn → State → Answer
  | [], s => .next s
  | bus :: rest, s => (ingCycle bus .shift s).andThen (ingCycles rest)

/-- clk_r cycles with these inputs of TP, oldest first, on the reference synchroniser (R254). -/
def renCycles : List TpIn → State → Answer
  | [], s => .next s
  | tp :: rest, s => (renCycle tp .shift s).andThen (renCycles rest)

/-! ## Infinite runs and fairness (R268, R269, D39) -/

/-- An infinite run under the choices `env`: each state is what `step` answers from the one before with that choice listed. -/
abbrev Run (env : Nat → Tick) (run : Nat → State) : Prop := ∀ n, step { run n with inputs := [env n] } = .next (run (n + 1))

/-- R268's action Serve: ING answers the request (R252). A reset answers none. -/
abbrev Serve (k : Tick) (s t : State) : Prop := k ≠ .reset ∧ t.ing.ackTgl ≠ s.ing.ackTgl

/-- R268's action Take: REN consumes the answer (R303). -/
abbrev Take (k : Tick) (s t : State) : Prop := k ≠ .reset ∧ t.ren.ackSeen ≠ s.ren.ackSeen

/-- Weak fairness of an action: if it stays enabled from some point of the run on, it happens after that point. -/
abbrev WeaklyFair (env : Nat → Tick) (run : Nat → State) (enabled : State → Prop) (acts : Tick → State → State → Prop) : Prop :=
  ∀ n, (∀ m, n ≤ m → enabled (run m)) → ∃ m, n ≤ m ∧ acts (env m) (run m) (run (m + 1))

/-- R269, D39: weak fairness for Serve, enabled while a request is pending, and Take, enabled while an answer is; none for HOST or
TP. It is a premise on runs and no part of `step`, log entry 22. -/
abbrev FairHandshake (env : Nat → Tick) (run : Nat → State) : Prop :=
  WeaklyFair env run RequestPending Serve ∧ WeaklyFair env run AnswerPending Take

/-- The hardware's clocks: each ticks for ever, and its synchroniser does not hold for ever. -/
abbrev ClocksRun (env : Nat → Tick) : Prop :=
  ∀ n, (∃ m, n ≤ m ∧ ∃ bus y, y ≠ .hold ∧ env m = .clkI bus y) ∧ (∃ m, n ≤ m ∧ ∃ tp y, y ≠ .hold ∧ env m = .clkR tp y)

/-! ## What a pass shows (R306, R323, R330 to R332) -/

/-- The rectangles offered since the pass began, in order; `shown` is newest first. -/
def passRects : List Obs → List Rect
  | [] => []
  | .passStart :: _ => []
  | .rect r :: older => passRects older ++ [r]
  | .answer _ :: older => passRects older
  | .diag _ :: older => passRects older

/-- All SY repeats of row `y`, or none when the row is skipped (R312, R314). -/
def rowRects (s : State) (y : Nat) : List Rect :=
  if s.skipRow y then [] else (List.range s.cfg.sy).map (fun dy => s.rowRect y dy)

/-- The rectangles of the rows before `y`, then `dy` repeats of row `y` (R320, R323). -/
def rectsBefore (s : State) (y dy : Nat) : List Rect :=
  (List.range y).flatMap (rowRects s) ++ (List.range dy).map (fun d => s.rowRect y d)

/-- What a pass has shown so far, by REN's state: nothing before EMIT; then the rows passed, and the rectangle in progress;
at COMMIT every row that is not skipped. -/
abbrev PassShows (s : State) : Prop :=
  (s.ren.renState = .decode → passRects s.shown = []) ∧
  (s.ren.renState = .emit →
    (s.ren.tp = .idle → (s.ren.rowDy ≠ 0 → s.skipRow s.ren.rowY = false) ∧
      passRects s.shown = rectsBefore s s.ren.rowY s.ren.rowDy) ∧
    (s.ren.tp ≠ .idle → s.skipRow s.ren.rowY = false ∧
      passRects s.shown = rectsBefore s s.ren.rowY s.ren.rowDy ++ [s.rowRect s.ren.rowY s.ren.rowDy])) ∧
  (s.ren.renState = .commit → passRects s.shown = rectsBefore s s.cfg.h 0)

end Sys2Proof.Safety
end

