-- ==== Sys2Proof/Certificates/Slice0/Obligations.lean ====
section
/-! DEFINITION. The statements for the provers, listed in OBLIGATIONS.json. -/

section

open Sys2Proof Sys2Proof.Machine Sys2Proof.Safety

/-! ## The decoder's instructions (40_decoder.md) -/

/-- R203: `CMD_OFF` in IDLE clears `power` and changes nothing else. -/
def Obligations.DisplayOffEffect : Prop :=
  CmdMap.standard.cmdOff = 0xAE ∧
  ∀ s : State, s.dec.decState = .idle →
    readByte s.cfg.map .idle s.cfg.map.cmdOff = .displayOff ∧
    exec .displayOff s = .next { s with dec := { s.dec with power := false, decState := .idle } }

/-- R204: `CMD_ON` in IDLE sets `power`, clears the cursor and enters PIXEL. -/
def Obligations.DisplayOnEffect : Prop :=
  CmdMap.standard.cmdOn = 0xAF ∧
  ∀ s : State, s.cfg.Legal → s.dec.decState = .idle →
    readByte s.cfg.map .idle s.cfg.map.cmdOn = .displayOn ∧
    exec .displayOn s = .next { s with dec := { s.dec with power := true, cursor := 0, decState := .pixel } }

/-- R205 to R215: a code of any of the eleven one-argument commands is read as that command and waits for its argument; the next
byte, whatever it is, leads back to IDLE. The first two clauses are the default codes, and that 0x41 to 0x7F are IGNORED under them
(R215). -/
def Obligations.OneArgumentCommandEffect : Prop :=
  OneArg.all.map CmdMap.standard.codes =
      [[0x81], [0xA8], [0xD3], [0x8D], [0x20], [0xA0, 0xA1], [0xDA], [0xD9], [0xDB], [0xD5], [0x40]] ∧
  (∀ b : Byte, 0x41 ≤ b → b ≤ 0x7F → classify CmdMap.standard b = .ignored b) ∧
  ∀ (c a : Byte) (s : State), s.cfg.Legal → s.dec.decState = .idle →
    let waiting := { s with dec := { s.dec with pendingCmd := c, decState := .awaitArg } }
    (c ∈ s.cfg.map.contrast → readByte s.cfg.map .idle c = .setContrast c ∧ exec (.setContrast c) s = .next waiting) ∧
    (c ∈ s.cfg.map.muxRatio → readByte s.cfg.map .idle c = .setMuxRatio c ∧ exec (.setMuxRatio c) s = .next waiting) ∧
    (c ∈ s.cfg.map.displayOffset → readByte s.cfg.map .idle c = .setDisplayOffset c ∧ exec (.setDisplayOffset c) s = .next waiting) ∧
    (c ∈ s.cfg.map.chargePump → readByte s.cfg.map .idle c = .setChargePump c ∧ exec (.setChargePump c) s = .next waiting) ∧
    (c ∈ s.cfg.map.addrMode → readByte s.cfg.map .idle c = .setAddrMode c ∧ exec (.setAddrMode c) s = .next waiting) ∧
    (c ∈ s.cfg.map.segRemap → readByte s.cfg.map .idle c = .setSegRemap c ∧ exec (.setSegRemap c) s = .next waiting) ∧
    (c ∈ s.cfg.map.comPins → readByte s.cfg.map .idle c = .setComPins c ∧ exec (.setComPins c) s = .next waiting) ∧
    (c ∈ s.cfg.map.precharge → readByte s.cfg.map .idle c = .setPrecharge c ∧ exec (.setPrecharge c) s = .next waiting) ∧
    (c ∈ s.cfg.map.vcom → readByte s.cfg.map .idle c = .setVcom c ∧ exec (.setVcom c) s = .next waiting) ∧
    (c ∈ s.cfg.map.clockDiv → readByte s.cfg.map .idle c = .setClockDiv c ∧ exec (.setClockDiv c) s = .next waiting) ∧
    (c ∈ s.cfg.map.startLine → readByte s.cfg.map .idle c = .setStartLine c ∧ exec (.setStartLine c) s = .next waiting) ∧
    handleByte a waiting = .next { s with dec := { s.dec with pendingCmd := c, decState := .idle } }

/-- R216: in AWAIT_ARG any byte is the argument; it is discarded and the decoder returns to IDLE. -/
def Obligations.ArgumentEffect : Prop :=
  ∀ (a : Byte) (s : State), s.dec.decState = .awaitArg →
    readByte s.cfg.map .awaitArg a = .argument a ∧
    exec (.argument a) s = .next { s with dec := { s.dec with decState := .idle } }

/-- R217, R401: a byte the map does not list gives one diagnostic pulse with the byte, and nothing else; under the default map 0x00
and 0xFF are such bytes. `shown` is the model's trace of output events (log entry 7). -/
def Obligations.IgnoredEffect : Prop :=
  classify CmdMap.standard 0x00 = .ignored 0x00 ∧ classify CmdMap.standard 0xFF = .ignored 0xFF ∧
  ∀ (b : Byte) (s : State), s.dec.decState = .idle → b ≠ s.cfg.map.cmdOff → b ≠ s.cfg.map.cmdOn →
    (∀ k, b ∉ s.cfg.map.codes k) →
    readByte s.cfg.map .idle b = .ignored b ∧
    exec (.ignored b) s = .next { s with dec := { s.dec with diagValid := true, diagByte := b }, shown := .diag b :: s.shown }

/-- R218: in PIXEL any byte is stored at the cursor, which moves on and wraps at CAP; every other byte of SB reads as before. The
premise on `sb` is the model's canonical form, an invariant (StepKeepsCoreInv). -/
def Obligations.PixelDataEffect : Prop :=
  ∀ (d : Byte) (s : State), Memory.wf Space.sb.unlisted s.dec.sb → s.dec.decState = .pixel → s.dec.cursor < s.cfg.cap →
    readByte s.cfg.map .pixel d = .pixelData d ∧
    ∃ t, exec (.pixelData d) s = .next t ∧
      t = { s with dec := { s.dec with
        sb := t.dec.sb
        cursor := if s.dec.cursor + 1 = s.cfg.cap then 0 else s.dec.cursor + 1 } } ∧
      t.readSb s.dec.cursor = d ∧ ∀ a, a ≠ s.dec.cursor → t.readSb a = s.readSb a

/-- Where a meaning stops: outside its rule's Condition, by refusal; and PIXEL_DATA with a cursor outside SB, by fault (R104 gives
no such byte). The model's choice, log entry 9: no reachable state does either. -/
def Obligations.MeaningStops : Prop :=
  (∀ (i : Instr) (s : State), s.dec.decState ≠ i.readIn → exec i s = .refused .decoderStateMismatch) ∧
  ∀ (d : Byte) (s : State), s.dec.decState = .pixel → s.cfg.cap ≤ s.dec.cursor →
    exec (.pixelData d) s = .fault (.outsideSpace .sb)

/-- The frame of every instruction (R200; section 1: "State not named in the pseudocode is unchanged"). Outside the decoder
nothing changes but the trace. SB changes only at the cursor, by PIXEL_DATA; `power` only by DISPLAY_OFF and DISPLAY_ON; the
cursor only by DISPLAY_ON and PIXEL_DATA; `pending_cmd` only by the SET commands; the diagnostic register only by IGNORED. -/
def Obligations.InstructionFrame : Prop :=
  ∀ (i : Instr) (s t : State), exec i s = .next t →
    t = { s with dec := t.dec, shown := t.shown } ∧
    (∀ b a, t.readArena b a = s.readArena b a) ∧
    (∀ a, t.readPb a = s.readPb a) ∧
    (∀ a, (∀ d, i ≠ .pixelData d) ∨ a ≠ s.dec.cursor → t.readSb a = s.readSb a) ∧
    (i ≠ .displayOff → i ≠ .displayOn → t.dec.power = s.dec.power) ∧
    (i ≠ .displayOn → (∀ d, i ≠ .pixelData d) → t.dec.cursor = s.dec.cursor) ∧
    ((∀ (k : OneArg) c, i ≠ k.instr c) → t.dec.pendingCmd = s.dec.pendingCmd) ∧
    ((∀ b, i ≠ .ignored b) → t.dec.diagValid = s.dec.diagValid ∧ t.dec.diagByte = s.dec.diagByte ∧ t.shown = s.shown)

/-- R202: what the decoder does to `dec_state` and `cursor` depends on neither `power`, nor SB, nor `pending_cmd`, nor anything
outside the decoder; and the value of an argument changes nothing. -/
def Obligations.DecoderReadsOnly : Prop :=
  (∀ (b : Byte) (s s' t : State), s'.cfg = s.cfg → s'.dec.decState = s.dec.decState → s'.dec.cursor = s.dec.cursor →
    handleByte b s = .next t →
    ∃ t', handleByte b s' = .next t' ∧ t'.dec.decState = t.dec.decState ∧ t'.dec.cursor = t.dec.cursor) ∧
  ∀ (a a' : Byte) (s : State), s.dec.decState = .awaitArg → handleByte a s = handleByte a' s

/-- R201, R223: `handle_byte` is exhaustive: in every decoder state every byte has its outcome, and the cursor stays in
0..CAP-1. -/
def Obligations.EveryByteHandled : Prop :=
  ∀ (b : Byte) (s : State), s.dec.cursor < s.cfg.cap → ∃ t, handleByte b s = .next t ∧ t.dec.cursor < t.cfg.cap

/-- A step runs the decoded instruction (R200, R308). In DECODE, when the byte at the decode index decodes to `i`, the clk_r step
is `exec i`, between what a clk_r cycle does around it: the diagnostic pulse of the cycle before ends (`renBegin`), the decode index
moves on (`decodeNext`), and `ack_sync` shifts (`renFinish`, which also keeps the model's own count of log entry 21). -/
def Obligations.StepRunsDecodedInstruction : Prop :=
  ∀ (s : State) (i : Instr) (tp : TpIn) (y : Sync) (rest : List Tick), s.cfg.Legal → s.inputs = .clkR tp y :: rest →
    ¬(tp.respValid = true ∧ s.ren.tp ≠ .resp) → s.ren.renState = .decode → s.ren.curIdx < s.cfg.nbuf →
    s.ren.decPtr < s.cfg.cap →
    decode s.cfg.map s.dec.decState [s.readArena s.ren.curIdx s.ren.decPtr] = .ok (i, []) →
    step s = Answer.andThen (exec i (renBegin y { s with inputs := rest })) fun t => .next (renFinish y (decodeNext t))

/-- R308: one DECODE step: the byte is handled, `dec_ptr` moves on by one, and after the CAP-th byte REN is in EMIT at row 0. -/
def Obligations.DecodeStep : Prop :=
  ∀ (tp : TpIn) (s : State), s.ren.renState = .decode → s.ren.curIdx < s.cfg.nbuf → s.ren.decPtr < s.cfg.cap →
    s.dec.cursor < s.cfg.cap →
    ∃ u, handleByte (s.readArena s.ren.curIdx s.ren.decPtr) s = .next u ∧
      renRule tp s = .next { u with
        ren := if s.ren.decPtr + 1 = s.cfg.cap then
            { s.ren with decPtr := s.ren.decPtr + 1, rowY := 0, rowDy := 0, renState := .emit }
          else { s.ren with decPtr := s.ren.decPtr + 1 } }

/-! ## Encoding (30_encoding.md) -/

/-- R153's default codes read by the decoder after reset: one word of each family, written out from the table. -/
def Obligations.DecodeWordsFromSpec : Prop :=
  decodeTableWord 8 0xAE = some .displayOff ∧ decodeTableWord 8 0xAF = some .displayOn ∧
  decodeTableWord 8 0x81 = some (.setContrast 0x81) ∧ decodeTableWord 8 0xA1 = some (.setSegRemap 0xA1) ∧
  decodeTableWord 8 0x00 = some (.ignored 0x00) ∧
  decode CmdMap.standard .awaitArg [0xAF] = .ok (.argument 0xAF, []) ∧
  decode CmdMap.standard .pixel [0xAE] = .ok (.pixelData 0xAE, [])

/-- Decode and encode agree: every well-formed instruction, encoded and followed by any bytes, decodes to itself in the decoder
state its byte is read in, with the bytes after it left. -/
def Obligations.DecodeOfEncode : Prop :=
  ∀ (m : CmdMap) (i : Instr) (rest : List Byte), m.legal = true → i.wf m = true →
    decode m i.readIn (encode m i ++ rest) = .ok (i, rest)

/-- The other direction: what the decoder reads is well formed, belongs to the decoder state, and encodes to the bytes read. -/
def Obligations.EncodeOfDecode : Prop :=
  ∀ (m : CmdMap) (st : DecState) (bytes rest : List Byte) (i : Instr), decode m st bytes = .ok (i, rest) →
    i.wf m = true ∧ i.readIn = st ∧ bytes = encode m i ++ rest

/-- R154, R155: the classification of a byte. Under a legal map the order of R154's lines changes no result. -/
def Obligations.ByteClassification : Prop :=
  ∀ (m : CmdMap) (b : Byte), m.legal = true →
    (b = m.cmdOff → readByte m .idle b = .displayOff) ∧
    (b = m.cmdOn → readByte m .idle b = .displayOn) ∧
    (∀ k, b ∈ m.codes k → readByte m .idle b = k.instr b) ∧
    (b ≠ m.cmdOff → b ≠ m.cmdOn → (∀ k, b ∉ m.codes k) → readByte m .idle b = .ignored b) ∧
    readByte m .awaitArg b = .argument b ∧
    readByte m .pixel b = .pixelData b

/-! ## Laws of the decoder (40_decoder.md section 5) -/

/-- R219: the one-argument law. -/
def Obligations.OneArgumentLaw : Prop :=
  ∀ (c a : Byte) (s : State), s.cfg.Legal → s.dec.decState = .idle → s.cfg.map.isOneArg c = true →
    ∃ t, handleBytes [c, a] s = .next t ∧ t.dec.decState = .idle ∧ (∀ i, t.readSb i = s.readSb i) ∧
      t.dec.power = s.dec.power ∧ t.dec.cursor = s.dec.cursor

/-- R220: no step but a reset moves `dec_state` out of PIXEL, and every byte decoded there is PIXEL_DATA. -/
def Obligations.PixelIsAbsorbing : Prop :=
  (∀ (s t : State), s.dec.decState = .pixel → s.nextTick ≠ .reset → step s = .next t → t.dec.decState = .pixel) ∧
  ∀ s : State, s.dec.decState = .pixel → s.fetchInstr = .pixelData s.fetchByte

/-- R221: the cursor-reset law. -/
def Obligations.CursorResetLaw : Prop :=
  ∀ (d : Byte) (s : State), s.cfg.Legal → Memory.wf Space.sb.unlisted s.dec.sb → s.dec.decState = .idle →
    ∃ t, handleBytes [s.cfg.map.cmdOff, s.cfg.map.cmdOn] s = .next t ∧
      t.dec.cursor = 0 ∧ t.dec.power = true ∧ t.dec.decState = .pixel ∧
      ∃ u, handleByte d t = .next u ∧ u.readSb 0 = d

/-- R222: the page-packing law, for a stream of at most CAP data bytes from cursor 0; and the byte after a full bitmap overwrites
`SB[0]`. -/
def Obligations.PagePackingLaw : Prop :=
  ∀ (ds : List Byte) (e : Byte) (s : State), s.cfg.Legal → Memory.wf Space.sb.unlisted s.dec.sb → s.dec.decState = .pixel →
    s.dec.cursor = 0 → ds.length ≤ s.cfg.cap →
    ∃ t, handleBytes ds s = .next t ∧ t.dec.decState = .pixel ∧ t.dec.cursor = ds.length % s.cfg.cap ∧
      (∀ i (h : i < ds.length), t.readSb i = ds[i]) ∧
      (∀ i, ds.length ≤ i → t.readSb i = s.readSb i) ∧
      (∀ x y, x < s.cfg.w → y < s.cfg.h → ∀ h : y / 8 * s.cfg.w + x < ds.length,
        pixel s.cfg t.readSb x y = (ds[y / 8 * s.cfg.w + x]).getLsbD (y % 8)) ∧
      (ds.length = s.cfg.cap → ∃ u, handleByte e t = .next u ∧ u.readSb 0 = e)

/-! ## Pixels (20_memory.md) -/

/-- R100, R101: the page packing and its inverse. -/
def Obligations.PagePackingMap : Prop :=
  ∀ c : Config, c.Legal →
    (∀ (m : Nat → Byte) (x y : Nat), pixel c m x y = true ↔ (m (y / 8 * c.w + x)).toNat / 2 ^ (y % 8) % 2 = 1) ∧
    (∀ x y, x < c.w → y < c.h →
      pixelByte c x y < c.cap ∧ pixelBit y < 8 ∧ dataPixel c (pixelByte c x y) (pixelBit y) = (x, y)) ∧
    (∀ i k, i < c.cap → k < 8 →
      (dataPixel c i k).1 < c.w ∧ (dataPixel c i k).2 < c.h ∧
      pixelByte c (dataPixel c i k).1 (dataPixel c i k).2 = i ∧ pixelBit (dataPixel c i k).2 = k)

/-! ## Reset (70_reset_and_hazards.md) -/

/-- The reset table (R450), for every parameter set, and what the outputs show then: the status outputs (R83) and every output of the
transport (R86) are 0 (92_eei_decisions.md D20; for the transport's fields DEDUCED, log entry 21). PB and the arena, which the table
leaves unspecified, hold free values (the model's form of it, log entry 6). The second part, over every state: each status output is
the register named (R83), and `dec_state_o` has the codes of R60. -/
def Obligations.ResetValues : Prop :=
  (∀ c : Config,
    let s := State.resetOf c
    s.cfg = c ∧ s.dec.decState = .idle ∧ s.dec.pendingCmd = 0x00 ∧ s.dec.power = false ∧ s.dec.cursor = 0 ∧
    (∀ i, s.readSb i = 0x00) ∧ (∀ i, s.readPb i = Config.freePrevByte 0 i) ∧ s.ren.prevValid = false ∧
    s.ren.renState = .clear ∧ s.ren.clrPtr = 0 ∧ s.ren.curIdx = 0 ∧ s.ren.decPtr = 0 ∧ s.ren.rowY = 0 ∧ s.ren.rowDy = 0 ∧
    s.ren.reqTgl = false ∧ s.ren.ackSeen = false ∧ s.ren.ackSync = List.replicate c.syncStages false ∧ s.ren.abortCnt = 0 ∧
    s.dec.diagValid = false ∧ s.dec.diagByte = 0x00 ∧ s.ing.rxState = .rx ∧ s.ing.rxCount = 0 ∧ s.ing.fillIdx = 0 ∧
    s.ing.q = [] ∧ s.ing.heldValid = false ∧ s.ing.heldIdx = 0 ∧ (∀ b, b ∈ s.ing.free ↔ 1 ≤ b ∧ b < c.nbuf) ∧
    s.ing.waitLeft = 0 ∧ s.ing.reqSeen = false ∧ s.ing.reqSync = List.replicate c.syncStages false ∧ s.ing.ackTgl = false ∧
    s.ing.ackOk = false ∧ s.ing.ackIdx = 0 ∧ s.ing.overrunCnt = 0 ∧ s.ing.droppedCnt = 0 ∧
    (∀ b i, s.readArena b i = Config.freeArenaByte 0 b i) ∧ s.tpCmdO = none ∧ s.tpDataO = none ∧
    s.tpCmdValidO = false ∧ s.tpDataValidO = false ∧
    s.tpFieldsO = { x := 0, y := 0, w := 0, h := 0, data := 0x00, dataLast := false } ∧
    s.overrunCntO = 0 ∧ s.droppedCntO = 0 ∧ s.abortCntO = 0 ∧ s.powerO = false ∧ s.decStateO = 0b00 ∧
    s.diagValidO = false ∧ s.diagByteO = 0x00) ∧
  ∀ s : State,
    s.overrunCntO = s.ing.overrunCnt ∧ s.droppedCntO = s.ing.droppedCnt ∧ s.abortCntO = s.ren.abortCnt ∧
    s.powerO = s.dec.power ∧ s.diagValidO = s.dec.diagValid ∧ s.diagByteO = s.dec.diagByte ∧
    (s.decStateO = 0b00 ↔ s.dec.decState = .idle) ∧ (s.decStateO = 0b01 ↔ s.dec.decState = .awaitArg) ∧
    (s.decStateO = 0b10 ↔ s.dec.decState = .pixel) ∧ s.decStateO ≠ 0b11

/-- The first three clauses: a step takes the oldest listed choice. A clk_i cycle runs `ing_cycle` (R250); a clk_r cycle runs one step of REN's state (R300)
between what a clk_r cycle does around it; a reset (R451) is one action, at any time, that sets the whole table in both domains. The
parameters and the model's own fields (`inputs`, `ticks`, `epoch`, `shown`: log entries 4, 6, 7) are not part of the table.

The other two: what a clk_i cycle in RX does (R250, R85, R255 to R260). With `a` the state after step A, the cycle is the bus's byte
and then its end on `a` (`busInRx`), and the synchroniser's shift: no wait begins to count down in it. From a state of the invariant
it completes: the byte is stored while there is room; then, at an end, the size check counts that byte too, and the chunk is an
overrun, is published, is dropped, or begins to wait. -/
def Obligations.StepRunsChoice : Prop :=
  (∀ (s : State) (rest : List Tick), s.cfg.Legal →
    (∀ bus y, s.inputs = .clkI bus y :: rest → step s = ingCycle bus y { s with inputs := rest }) ∧
    (∀ tp y, s.inputs = .clkR tp y :: rest → ¬(tp.respValid = true ∧ s.ren.tp ≠ .resp) →
      step s = (renRule tp (renBegin y { s with inputs := rest })).andThen fun t => .next (renFinish y t)) ∧
    (s.inputs = .reset :: rest →
      step s = .next { State.resetOf s.cfg with inputs := rest, ticks := s.ticks, epoch := s.epoch + 1, shown := s.shown })) ∧
  (∀ (s : State) (bus : BusIn) (y : Sync), s.ing.rxState = .rx →
    ingCycle bus y s = (busInRx bus (ingServe (ingBegin y s))).andThen fun t => .next (ingFinish y t)) ∧
  ∀ (s : State) (bus : BusIn) (y : Sync), CoreInv s → s.ing.rxState = .rx →
    let a := ingServe (ingBegin y s)
    let n := if bus.inValid then min (s.ing.rxCount + 1) (s.cfg.cap + 1) else s.ing.rxCount
    ∃ t, ingCycle bus y s = .next t ∧
      (bus.inValid = true → s.ing.rxCount < s.cfg.cap → t.readArena s.ing.fillIdx s.ing.rxCount = bus.inByte) ∧
      (∀ b i, i < s.cfg.cap → ¬(bus.inValid = true ∧ b = s.ing.fillIdx ∧ i = s.ing.rxCount) →
        t.readArena b i = s.readArena b i) ∧
      (bus.inEnd = false →
        t.ing.rxState = .rx ∧ t.ing.rxCount = n ∧ t.ing.fillIdx = s.ing.fillIdx ∧ t.ing.q = a.ing.q ∧
        t.ing.overrunCnt = s.ing.overrunCnt ∧ t.ing.droppedCnt = s.ing.droppedCnt) ∧
      (bus.inEnd = true → n ≠ s.cfg.cap →
        t.ing.rxState = .rx ∧ t.ing.rxCount = 0 ∧ t.ing.fillIdx = s.ing.fillIdx ∧ t.ing.q = a.ing.q ∧
        t.ing.overrunCnt = s.ing.overrunCnt + 1 ∧ t.ing.droppedCnt = s.ing.droppedCnt) ∧
      (bus.inEnd = true → n = s.cfg.cap → s.cfg.policy = .bounded → a.ing.q.length < s.cfg.depth →
        t.ing.rxState = .rx ∧ t.ing.rxCount = 0 ∧ t.ing.fillIdx ∈ a.ing.free ∧ t.ing.q = a.ing.q ++ [s.ing.fillIdx] ∧
        t.ing.overrunCnt = s.ing.overrunCnt ∧ t.ing.droppedCnt = s.ing.droppedCnt) ∧
      (bus.inEnd = true → n = s.cfg.cap → s.cfg.policy = .dropOldest →
        t.ing.rxState = .rx ∧ t.ing.rxCount = 0 ∧ (t.ing.fillIdx ∈ a.ing.free ∨ t.ing.fillIdx ∈ a.ing.q) ∧
        t.ing.q = [s.ing.fillIdx] ∧ t.ing.overrunCnt = s.ing.overrunCnt ∧ t.ing.droppedCnt = s.ing.droppedCnt) ∧
      (bus.inEnd = true → n = s.cfg.cap → s.cfg.policy = .bounded → s.cfg.depth ≤ a.ing.q.length → s.cfg.pubTimeout = 0 →
        t.ing.rxState = .rx ∧ t.ing.rxCount = 0 ∧ t.ing.fillIdx = s.ing.fillIdx ∧ t.ing.q = a.ing.q ∧
        t.ing.overrunCnt = s.ing.overrunCnt ∧ t.ing.droppedCnt = s.ing.droppedCnt + 1) ∧
      (bus.inEnd = true → n = s.cfg.cap → s.cfg.policy = .bounded → s.cfg.depth ≤ a.ing.q.length → s.cfg.pubTimeout ≠ 0 →
        t.ing.rxState = .pubWait ∧ t.ing.waitLeft = BitVec.ofNat 32 s.cfg.pubTimeout ∧ t.ing.rxCount = s.cfg.cap ∧
        t.ing.fillIdx = s.ing.fillIdx ∧ t.ing.q = a.ing.q ∧ t.ing.overrunCnt = s.ing.overrunCnt ∧
        t.ing.droppedCnt = s.ing.droppedCnt)

/-- R11, R12, R153: a parameter set that breaks a constraint describes no hardware, and R12 asks for its refusal at elaboration. The
model has no elaboration: that every step refuses it, as `illegalParameters`, is the model's form of it (DESIGN CHOICE, log
entry 19). -/
def Obligations.IllegalParametersRefused : Prop :=
  ∀ s : State,
    s.cfg.dw < s.cfg.xOff + s.cfg.w * s.cfg.sx ∨ s.cfg.dh < s.cfg.yOff + s.cfg.h * s.cfg.sy ∨ 65535 < s.cfg.dw ∨
      65535 < s.cfg.dh ∨ 65535 < s.cfg.w * s.cfg.sx ∨ s.cfg.map.cmdOff = s.cfg.map.cmdOn ∨
      s.cfg.map.isOneArg s.cfg.map.cmdOff = true ∨ s.cfg.map.isOneArg s.cfg.map.cmdOn = true ∨
      (s.cfg.policy = .dropOldest ∧ s.cfg.depth ≠ 1) ∨
      s.cfg.w = 0 ∨ s.cfg.h < 8 ∨ s.cfg.h % 8 ≠ 0 ∨ s.cfg.sx = 0 ∨ s.cfg.sy = 0 ∨ s.cfg.depth = 0 ∨
      s.cfg.bpp ∉ [1, 2, 4, 8, 16, 24] ∨ 2 ^ 32 ≤ s.cfg.pubTimeout ∨ s.cfg.syncStages < 2 ∨
      (∃ k, s.cfg.map.codes k = []) ∨ (∃ k k' b, k ≠ k' ∧ b ∈ s.cfg.map.codes k ∧ b ∈ s.cfg.map.codes k') →
    step s = .refused .illegalParameters

/-- R301: one CLEAR step; after the last byte REN is in ACQUIRE with its request made. -/
def Obligations.ClearStep : Prop :=
  ∀ (tp : TpIn) (s : State), s.ren.renState = .clear → Memory.wf Space.sb.unlisted s.dec.sb → s.ren.clrPtr < s.cfg.cap →
    ∃ t, renRule tp s = .next t ∧
      t = { s with
        dec := { s.dec with sb := t.dec.sb }
        ren := if s.ren.clrPtr + 1 = s.cfg.cap then
            { s.ren with clrPtr := s.ren.clrPtr + 1, renState := .acquire, reqTgl := !s.ren.reqTgl }
          else { s.ren with clrPtr := s.ren.clrPtr + 1 } } ∧
      t.readSb s.ren.clrPtr = 0x00 ∧ ∀ a, a ≠ s.ren.clrPtr → t.readSb a = s.readSb a

/-! ## The exchange (41_exchange.md) -/

/-- R252: a seen request releases the held buffer and answers with the queue's first buffer or "no frame"; an unseen one does
nothing. -/
def Obligations.ServeAcquireEffect : Prop :=
  ∀ s : State,
    (syncOut s.ing.reqSync = s.ing.reqSeen → ingServe s = s) ∧
    (syncOut s.ing.reqSync ≠ s.ing.reqSeen →
      (∀ b, b ∈ (ingServe s).ing.free ↔ b ∈ s.ing.free ∨ (s.ing.heldValid = true ∧ b = s.ing.heldIdx)) ∧
      (∀ b rest, s.ing.q = b :: rest →
        ingServe s = { s with ing := { s.ing with
          free := (ingServe s).ing.free, q := rest, heldValid := true, heldIdx := b, ackOk := true, ackIdx := b
          ackTgl := !s.ing.ackTgl, reqSeen := syncOut s.ing.reqSync } }) ∧
      (s.ing.q = [] →
        ingServe s = { s with ing := { s.ing with
          free := (ingServe s).ing.free, heldValid := false, ackOk := false
          ackTgl := !s.ing.ackTgl, reqSeen := syncOut s.ing.reqSync } }))

/-- R255: in RX a byte that arrives is stored at `rx_count` of the fill buffer while there is room, and counted up to CAP+1 in any case. The premise on
`arena` is the canonical form, an invariant. -/
def Obligations.StoreByteEffect : Prop :=
  ∀ (v : Byte) (s : State), Memory.wf Space.arena.unlisted s.arena → s.ing.fillIdx < s.cfg.nbuf →
    (s.ing.rxCount < s.cfg.cap →
      ∃ t, storeByte v s = .next t ∧
        t = { s with arena := t.arena, ing := { s.ing with rxCount := s.ing.rxCount + 1 } } ∧
        t.readArena s.ing.fillIdx s.ing.rxCount = v ∧
        ∀ b i, i < s.cfg.cap → (b, i) ≠ (s.ing.fillIdx, s.ing.rxCount) → t.readArena b i = s.readArena b i) ∧
    (∀ bus : BusIn, bus.inValid = true → s.ing.rxState = .rx → ingByte bus s = storeByte bus.inByte s) ∧
    (s.cfg.cap ≤ s.ing.rxCount → storeByte v s = .next { s with ing := { s.ing with rxCount := s.cfg.cap + 1 } })

/-- R256, R257: in RX a transfer's end runs the size check; and the overrun. -/
def Obligations.EndTransferEffect : Prop :=
  ∀ s : State,
    (∀ bus : BusIn, bus.inEnd = true → s.ing.rxState = .rx → ingEnd bus s = endTransfer s) ∧
    (s.ing.rxCount = s.cfg.cap → endTransfer s = publish s) ∧
    (s.ing.rxCount ≠ s.cfg.cap →
      endTransfer s = .next { s with ing := { s.ing with overrunCnt := s.ing.overrunCnt + 1, rxCount := 0 } })

/-- R258: the chunk enters the queue's tail and the lowest free buffer becomes the fill buffer. -/
def Obligations.PushFillEffect : Prop :=
  ∀ s : State, FreeRising s → s.ing.free ≠ [] →
    ∃ b t, pushFill s = .next t ∧ b ∈ s.ing.free ∧ (∀ x ∈ s.ing.free, b ≤ x) ∧
      t = { s with ing := { s.ing with
        q := s.ing.q ++ [s.ing.fillIdx], fillIdx := b, free := t.ing.free, rxCount := 0 } } ∧
      (∀ x, x ∈ t.ing.free ↔ x ∈ s.ing.free ∧ x ≠ b) ∧ FreeRising t

/-- R259: publish under BOUNDED: push, drop at once, or begin a wait, which does not count down in its first cycle (`entered_wait`,
R250 step F). -/
def Obligations.PublishBoundedEffect : Prop :=
  ∀ s : State, s.cfg.policy = .bounded →
    (s.ing.q.length < s.cfg.depth → publish s = pushFill s) ∧
    (s.cfg.depth ≤ s.ing.q.length → s.cfg.pubTimeout = 0 →
      publish s = .next { s with ing := { s.ing with droppedCnt := s.ing.droppedCnt + 1, rxCount := 0 } }) ∧
    (s.cfg.depth ≤ s.ing.q.length → s.cfg.pubTimeout ≠ 0 →
      publish s = .next { s with ing := { s.ing with
        rxState := .pubWait, waitLeft := BitVec.ofNat 32 s.cfg.pubTimeout } } ∧
      ∀ (waiting : Bool) (bus : BusIn), bus.inEnd = true → s.ing.rxState = .rx → s.ing.rxCount = s.cfg.cap →
        ingEndAndCountdown waiting bus s = .next { s with ing := { s.ing with
          rxState := .pubWait, waitLeft := BitVec.ofNat 32 s.cfg.pubTimeout } })

/-- R260: publish under DROP_OLDEST: an unconsumed frame goes back to `free`, uncounted; then the push. -/
def Obligations.PublishDropOldestEffect : Prop :=
  ∀ s : State, s.cfg.policy = .dropOldest →
    (s.ing.q.length ≠ 1 → publish s = pushFill s) ∧
    (∀ b, s.ing.q = [b] → ∃ f, (∀ x, x ∈ f ↔ x ∈ s.ing.free ∨ x = b) ∧
      publish s = pushFill { s with ing := { s.ing with q := [], free := f } })

/-- R262, R250. The first part: a waiting publish whose cycle serves no request and sees no bus activity is pushed as soon as there is
room; else the wait counts down, and at 0 the frame is dropped (R261). The second part: the cycle that serves a request frees the
slot, and step B pushes the waiting frame in it, with no drop; a byte or an end of that cycle belongs to the next transfer
(`busInRx`, R263). The third part: a wait without bus activity ends within `wait_left` cycles, whatever REN does (R269). If a request
was served in them the frame is queued and nothing is dropped; if none was, the frame is dropped, and counted once. With bus activity
and no served request the wait ends at once (BusEndsWait). -/
def Obligations.PublishWaitCycle : Prop :=
  (∀ (s : State) (bus : BusIn), s.ing.rxState = .pubWait → syncOut s.ing.reqSync = s.ing.reqSeen → bus.inValid = false →
    bus.inEnd = false →
    let shifted := { s with ing := { s.ing with reqSync := syncAfter .shift s.ing.reqSync s.ren.reqTgl } }
    (s.ing.q.length < s.cfg.depth → s.ing.free ≠ [] →
      ∃ u, pushFill shifted = .next u ∧ ingCycle bus .shift s = .next { u with ing := { u.ing with rxState := .rx } }) ∧
    (s.cfg.depth ≤ s.ing.q.length → s.ing.waitLeft - 1 ≠ 0 →
      ingCycle bus .shift s = .next { shifted with ing := { shifted.ing with waitLeft := s.ing.waitLeft - 1 } }) ∧
    (s.cfg.depth ≤ s.ing.q.length → s.ing.waitLeft - 1 = 0 →
      ingCycle bus .shift s = .next { shifted with ing := { shifted.ing with
        waitLeft := 0, droppedCnt := s.ing.droppedCnt + 1, rxCount := 0, rxState := .rx } })) ∧
  (∀ (s : State) (bus : BusIn) (y : Sync), CoreInv s → s.ing.rxState = .pubWait →
    syncOut (ingBegin y s).ing.reqSync ≠ s.ing.reqSeen →
    ∃ b rest u, s.ing.q = b :: rest ∧ pushFill (ingServe (ingBegin y s)) = .next u ∧
      ingCycle bus y s = (busInRx bus { u with ing := { u.ing with rxState := .rx } }).andThen (fun t => .next (ingFinish y t)) ∧
      (bus.inValid = false → bus.inEnd = false →
        ingCycle bus y s = .next (ingFinish y { u with ing := { u.ing with rxState := .rx } })) ∧
      u.ing.q = rest ++ [s.ing.fillIdx] ∧ u.ing.heldValid = true ∧ u.ing.heldIdx = b ∧ u.ing.ackOk = true ∧ u.ing.ackIdx = b ∧
      u.ing.ackTgl = (!s.ing.ackTgl) ∧ u.ing.fillIdx ≠ s.ing.fillIdx ∧ u.ing.rxCount = 0 ∧
      u.ing.droppedCnt = s.ing.droppedCnt ∧ u.ing.overrunCnt = s.ing.overrunCnt ∧
      ∃ t, ingCycle bus y s = .next t ∧ t.ing.droppedCnt = s.ing.droppedCnt ∧ ∃ l, t.ing.q = rest ++ s.ing.fillIdx :: l) ∧
  ∀ (s : State) (buses : List BusIn), CoreInv s → s.ing.rxState = .pubWait → buses.length = s.ing.waitLeft.toNat →
    (∀ bus ∈ buses, bus.inValid = false ∧ bus.inEnd = false) →
    ∃ t, ingCycles buses s = .next t ∧ t.ing.rxState = .rx ∧ t.ing.rxCount = 0 ∧ t.ing.overrunCnt = s.ing.overrunCnt ∧
      ((t.ing.ackTgl ≠ s.ing.ackTgl ∧ RequestPending s ∧ t.ing.q = s.ing.q.tail ++ [s.ing.fillIdx] ∧
          t.ing.droppedCnt = s.ing.droppedCnt) ∨
        (t.ing.ackTgl = s.ing.ackTgl ∧ t.ing.q = s.ing.q ∧ t.ing.fillIdx = s.ing.fillIdx ∧
          t.ing.droppedCnt = s.ing.droppedCnt + 1))

/-- R263: bus activity ends a wait that is still on: the waiting frame is dropped, and the cycle's byte and end belong to the new
transfer. -/
def Obligations.BusEndsWait : Prop :=
  ∀ (s : State) (bus : BusIn), s.ing.rxState = .pubWait → syncOut s.ing.reqSync = s.ing.reqSeen →
    s.cfg.depth ≤ s.ing.q.length → Memory.wf Space.arena.unlisted s.arena → s.ing.fillIdx < s.cfg.nbuf → s.cfg.Legal →
    (bus.inValid = true → bus.inEnd = false →
      ∃ t, ingCycle bus .shift s = .next t ∧ t.ing.rxState = .rx ∧ t.ing.rxCount = 1 ∧
        t.readArena s.ing.fillIdx 0 = bus.inByte ∧ t.ing.droppedCnt = s.ing.droppedCnt + 1 ∧
        t.ing.overrunCnt = s.ing.overrunCnt ∧ t.ing.q = s.ing.q) ∧
    (bus.inEnd = true → ¬(bus.inValid = true ∧ s.cfg.cap = 1) →
      ∃ t, ingCycle bus .shift s = .next t ∧ t.ing.rxState = .rx ∧ t.ing.rxCount = 0 ∧
        t.ing.droppedCnt = s.ing.droppedCnt + 1 ∧ t.ing.overrunCnt = s.ing.overrunCnt + 1 ∧ t.ing.q = s.ing.q) ∧
    (bus.inEnd = true → bus.inValid = true → s.cfg.cap = 1 → s.cfg.policy = .bounded → s.cfg.pubTimeout ≠ 0 →
      ∃ t, ingCycle bus .shift s = .next t ∧ t.ing.rxState = .pubWait ∧
        t.ing.waitLeft = BitVec.ofNat 32 s.cfg.pubTimeout ∧ t.readArena s.ing.fillIdx 0 = bus.inByte ∧
        t.ing.droppedCnt = s.ing.droppedCnt + 1 ∧ t.ing.overrunCnt = s.ing.overrunCnt ∧ t.ing.q = s.ing.q)

/-- R265: publish never lacks a free buffer: from any state with the ownership partition it completes, and keeps the partition and the
queue's bound. -/
def Obligations.PublishAlwaysCompletes : Prop :=
  ∀ s : State, s.cfg.Legal → OwnershipPartition s → s.ing.q.length ≤ s.cfg.depth →
    ∃ t, publish s = .next t ∧ OwnershipPartition t ∧ t.ing.q.length ≤ t.cfg.depth

/-- R266, R110, R254: no step writes a buffer that REN may read: a queued one, the one it is decoding, or the one it holds while no
request of its is pending, the granted one whose answer it has still to take among them. -/
def Obligations.ReadableBuffersUnwritten : Prop :=
  ∀ s t : State, CoreInv s → s.nextTick ≠ .reset → step s = .next t →
    (∀ b ∈ s.ing.q, ∀ i, i < s.cfg.cap → t.readArena b i = s.readArena b i) ∧
    (s.ren.renState = .decode → ∀ i, i < s.cfg.cap → t.readArena s.ren.curIdx i = s.readArena s.ren.curIdx i) ∧
    (s.ing.heldValid = true → ¬RequestPending s →
      ∀ i, i < s.cfg.cap → t.readArena s.ing.heldIdx i = s.readArena s.ing.heldIdx i) ∧
    (AnswerPending s → s.ing.ackOk = true → ∀ i, i < s.cfg.cap → t.readArena s.ing.ackIdx i = s.readArena s.ing.ackIdx i)

/-- R264, R113: under BOUNDED a step takes at most the queue's first frame, and only to grant it; the others keep their order, and
new frames join behind them. -/
def Obligations.BoundedQueueOrder : Prop :=
  ∀ s t : State, CoreInv s → s.cfg.policy = .bounded → s.nextTick ≠ .reset → step s = .next t →
    (t.ing.ackTgl = s.ing.ackTgl ∧ ∃ l, t.ing.q = s.ing.q ++ l) ∨
    (t.ing.ackTgl = (!s.ing.ackTgl) ∧ t.ing.ackOk = false ∧ s.ing.q = []) ∨
    (t.ing.ackTgl = (!s.ing.ackTgl) ∧ t.ing.ackOk = true ∧
      ∃ rest l, s.ing.q = t.ing.ackIdx :: rest ∧ t.ing.q = rest ++ l)

/-- R88, R405, R410, R413: no step changes the configuration; each counter adds at most 1 in a step, modulo 2^32, where R261 and R328
say; and a step that raises two events raises an ExchangeOverflow that ends a wait (R263), and a TransferSizeOverrun. And the frame of
a step: ING writes nothing of clk_r's, REN nothing of clk_i's nor the arena (R415), and the decoder's registers change in DECODE only
(R225), SB in DECODE and CLEAR (R64). `shown` is the model's trace (log entry 7). -/
def Obligations.CountersAndConfiguration : Prop :=
  ∀ s t : State, CoreInv s → s.nextTick ≠ .reset → step s = .next t →
    t.cfg = s.cfg ∧
    (t.ing.overrunCnt = s.ing.overrunCnt ∨ t.ing.overrunCnt = s.ing.overrunCnt + 1) ∧
    (t.ing.droppedCnt = s.ing.droppedCnt ∨ t.ing.droppedCnt = s.ing.droppedCnt + 1) ∧
    (t.ren.abortCnt = s.ren.abortCnt ∨ (s.ren.renState = .abort ∧ t.ren.abortCnt = s.ren.abortCnt + 1)) ∧
    (t.ing.overrunCnt ≠ s.ing.overrunCnt → t.ing.droppedCnt ≠ s.ing.droppedCnt → s.ing.rxState = .pubWait) ∧
    (t.ing.droppedCnt ≠ s.ing.droppedCnt → s.cfg.policy = .bounded) ∧
    (∀ bus y, s.nextTick = .clkI bus y → t.dec = s.dec ∧ t.ren = s.ren ∧ t.shown = s.shown) ∧
    (∀ tp y, s.nextTick = .clkR tp y → t.ing = s.ing ∧ t.arena = s.arena) ∧
    (s.ren.renState ≠ .decode →
      t.dec.decState = s.dec.decState ∧ t.dec.pendingCmd = s.dec.pendingCmd ∧ t.dec.cursor = s.dec.cursor ∧
      t.dec.power = s.dec.power ∧ (s.ren.renState ≠ .clear → ∀ i, t.readSb i = s.readSb i))

/-- R459 (1) and (2), R253, R254: the handshake's discipline. REN inverts its toggle only while nothing is pending or in the step that
takes the answer; ING answers only a pending request; and the answer's data change only with the answer's toggle. -/
def Obligations.HandshakeDiscipline : Prop :=
  ∀ s t : State, CoreInv s → s.nextTick ≠ .reset → step s = .next t →
    (t.ren.reqTgl ≠ s.ren.reqTgl → ¬RequestPending s ∧ RequestPending t ∧ ¬AnswerPending t) ∧
    (t.ing.ackTgl ≠ s.ing.ackTgl → RequestPending s ∧ ¬AnswerPending s ∧ ¬RequestPending t ∧ AnswerPending t) ∧
    (t.ing.ackOk ≠ s.ing.ackOk ∨ t.ing.ackIdx ≠ s.ing.ackIdx → t.ing.ackTgl ≠ s.ing.ackTgl)

/-- R269: progress of the handshake. On the reference synchronisers a pending request is served within SYNC_STAGES+1 clk_i cycles,
whatever the bus does in them, and a pending answer is taken within SYNC_STAGES+1 clk_r cycles, whatever TP does in them short of a
breach (log entry 8). At transaction level, on an infinite run with weak fairness for Serve and Take (D39; a premise on the run, log
entry 22), every pending request is served and every pending answer is taken, unless a reset comes first; and every run in which
both clocks tick for ever has that fairness. -/
def Obligations.RequestServedInTime : Prop :=
  (∀ (s : State) (buses : List BusIn), CoreInv s → RequestPending s → buses.length = s.cfg.syncStages + 1 →
    ∃ t, ingCycles buses s = .next t ∧ ¬RequestPending t ∧ AnswerPending t) ∧
  (∀ (s : State) (tps : List TpIn), CoreInv s → AnswerPending s → tps.length = s.cfg.syncStages + 1 →
    renCycles tps s = .refused .tpDutyBreach ∨ ∃ t, renCycles tps s = .next t ∧ ¬AnswerPending t) ∧
  (∀ (env : Nat → Tick) (run : Nat → State), CoreInv (run 0) → Run env run → FairHandshake env run → ∀ n,
    (RequestPending (run n) → ∃ m, n ≤ m ∧ (Serve (env m) (run m) (run (m + 1)) ∨ env m = .reset)) ∧
    (AnswerPending (run n) → ∃ m, n ≤ m ∧ (Take (env m) (run m) (run (m + 1)) ∨ env m = .reset))) ∧
  ∀ (env : Nat → Tick) (run : Nat → State), CoreInv (run 0) → Run env run → ClocksRun env → FairHandshake env run

/-! ## The render engine (42_render.md) -/

/-- R303: taking the answer. `passStart` in `shown` is the model's own mark (log entry 7). -/
def Obligations.TakeAnswerEffect : Prop :=
  ∀ (tp : TpIn) (s : State), s.ren.renState = .acquire →
    (syncOut s.ren.ackSync = s.ren.ackSeen → renRule tp s = .next s) ∧
    (syncOut s.ren.ackSync ≠ s.ren.ackSeen → s.ing.ackOk = true →
      renRule tp s = .next { s with
        ren := { s.ren with
          ackSeen := syncOut s.ren.ackSync, curIdx := s.ing.ackIdx, decPtr := 0, renState := .decode }
        shown := .passStart :: s.shown }) ∧
    (syncOut s.ren.ackSync ≠ s.ren.ackSeen → s.ing.ackOk = false →
      renRule tp s = .next { s with
        ren := { s.ren with ackSeen := syncOut s.ren.ackSync, reqTgl := !s.ren.reqTgl } })

/-- R300: REN's transitions, each with its cause. The last clause, that COMMIT and ABORT last one clk_r cycle, is no rule of the
spec but the model's choice, log entry 11 (R461's figure for COMMIT is CAP cycles). -/
def Obligations.RenTransitions : Prop :=
  ∀ s t : State, s.nextTick ≠ .reset → step s = .next t →
    (t.ren.renState = s.ren.renState ∨
      (s.ren.renState = .clear ∧ t.ren.renState = .acquire ∧ t.ren.clrPtr = s.cfg.cap) ∨
      (s.ren.renState = .acquire ∧ t.ren.renState = .decode ∧ s.ing.ackOk = true) ∨
      (s.ren.renState = .decode ∧ t.ren.renState = .emit ∧ t.ren.decPtr = s.cfg.cap) ∨
      (s.ren.renState = .emit ∧ t.ren.renState = .commit ∧ s.ren.rowY = s.cfg.h) ∨
      (s.ren.renState = .emit ∧ t.ren.renState = .abort ∧
        ∃ tp y, s.nextTick = .clkR tp y ∧ tp.respValid = true ∧ tp.respErr = true) ∨
      (s.ren.renState = .commit ∧ t.ren.renState = .acquire) ∨
      (s.ren.renState = .abort ∧ t.ren.renState = .acquire)) ∧
    (∀ tp y, s.nextTick = .clkR tp y → s.ren.renState = .commit ∨ s.ren.renState = .abort → t.ren.renState = .acquire)

/-- R307, R114: no rectangle is offered in DECODE, and no SB byte is written in EMIT. -/
def Obligations.DecodeBeforeEmit : Prop :=
  ∀ s t : State, s.nextTick ≠ .reset → step s = .next t →
    (s.ren.renState = .decode → t.ren.tp = s.ren.tp ∧ passRects t.shown = passRects s.shown) ∧
    (s.ren.renState = .emit → ∀ i, t.readSb i = s.readSb i)

/-- R304: `power` gates nothing: two states that differ only in it step alike, and differ after the step at most in it. -/
def Obligations.PowerGatesNothing : Prop :=
  ∀ (s : State) (p : Bool),
    let s' := { s with dec := { s.dec with power := p } }
    (∀ t, step s = .next t → ∃ q, step s' = .next { t with dec := { t.dec with power := q } }) ∧
    (∀ f, step s = .fault f → step s' = .fault f) ∧
    (∀ r, step s = .refused r → step s' = .refused r)

/-- R311: nearest-neighbour scaling (of the row of R309): destination pixel `j` of row `y` is source pixel `(j / SX, y)` of SB. -/
def Obligations.ScaledRowPixels : Prop :=
  ∀ (s : State) (y : Nat), (s.scaledRow y).length = s.cfg.w * s.cfg.sx ∧
    ∀ j, j < s.cfg.w * s.cfg.sx → (s.scaledRow y)[j]? = (s.rowOf s.readSb y)[j / s.cfg.sx]? ∧
      (s.scaledRow y)[j]? = some (pixel s.cfg s.readSb (j / s.cfg.sx) y)

/-- R310, R312: a row is skipped exactly when the dirty-line optimisation is on, PB holds a frame, and the row's W pixels are equal in
SB and PB. -/
def Obligations.SkipRowCondition : Prop :=
  ∀ (s : State) (y : Nat), s.skipRow y = true ↔
    s.cfg.dirtyEn = true ∧ s.ren.prevValid = true ∧
      ∀ x, x < s.cfg.w → pixel s.cfg s.readSb x y = pixel s.cfg s.readPb x y

/-- R314, R315, R322: the rectangle of repeat `dy` of row `y`: no coordinate wraps in its 16-bit field, and the pixel bytes are the
encoded scaled row (R313), `NB = (WD*BPP + 7) / 8` of them and at least one. -/
def Obligations.RectangleOfRow : Prop :=
  ∀ (s : State) (y dy : Nat), s.cfg.Legal → y < s.cfg.h → dy < s.cfg.sy →
    (s.rowRect y dy).x.toNat = s.cfg.xOff ∧
    (s.rowRect y dy).y.toNat = s.cfg.yOff + y * s.cfg.sy + dy ∧
    (s.rowRect y dy).w.toNat = s.cfg.w * s.cfg.sx ∧
    (s.rowRect y dy).h.toNat = 1 ∧
    (s.rowRect y dy).bytes = encodeRow s.cfg (s.scaledRow y) ∧
    (s.rowRect y dy).bytes.length = (s.cfg.w * s.cfg.sx * s.cfg.bpp + 7) / 8 ∧ 1 ≤ (s.rowRect y dy).bytes.length ∧
    s.cfg.yOff + y * s.cfg.sy + dy ≤ s.cfg.yOff + s.cfg.h * s.cfg.sy - 1 ∧
    s.cfg.yOff + s.cfg.h * s.cfg.sy - 1 < s.cfg.dh ∧ s.cfg.dh ≤ 65535 ∧ s.cfg.w * s.cfg.sx ≤ 65535

/-- EMIT in one clk_r cycle. The pass ends, a row is skipped, or a rectangle is offered (R320); then its command, its bytes and its
answer are taken, each held until TP takes it (R321, R86); an error aborts the pass (R324). The first two clauses are the ports in
each phase: the command's fields, and byte `i` with `tp_data_last = (i == len(bytes)-1)`. That each of these takes one clk_r cycle
is the model's choice, log entry 11; that a ready without its valid has no effect is DEDUCED, log entry 10; `shown` is the model's
trace, log entry 7. -/
def Obligations.EmitStep : Prop :=
  ∀ (tp : TpIn) (s : State), s.ren.renState = .emit →
    (∀ r, s.ren.tp = .cmd r →
      s.tpCmdO = some r ∧ s.tpCmdValidO = true ∧ s.tpDataValidO = false ∧
      s.tpFieldsO.x = r.x ∧ s.tpFieldsO.y = r.y ∧ s.tpFieldsO.w = r.w ∧ s.tpFieldsO.h = r.h) ∧
    (∀ r i, s.ren.tp = .data r i → ∀ hi : i < r.bytes.length,
      s.tpDataO = some (r.bytes[i], i + 1 == r.bytes.length) ∧ s.tpCmdValidO = false ∧ s.tpDataValidO = true ∧
      s.tpFieldsO.data = r.bytes[i] ∧ (s.tpFieldsO.dataLast = true ↔ i + 1 = r.bytes.length)) ∧
    (s.ren.tp = .idle ∨ s.ren.tp = .resp → s.tpCmdValidO = false ∧ s.tpDataValidO = false) ∧
    (s.ren.tp = .idle → s.ren.rowY = s.cfg.h → renRule tp s = .next { s with ren := { s.ren with renState := .commit } }) ∧
    (s.ren.tp = .idle → s.ren.rowY < s.cfg.h → s.ren.rowDy = 0 → s.skipRow s.ren.rowY = true →
      renRule tp s = .next { s with ren := { s.ren with rowY := s.ren.rowY + 1 } }) ∧
    (s.ren.tp = .idle → s.ren.rowY < s.cfg.h → ¬(s.ren.rowDy = 0 ∧ s.skipRow s.ren.rowY = true) →
      renRule tp s = .next { s with
        ren := { s.ren with tp := .cmd (s.rowRect s.ren.rowY s.ren.rowDy) }
        shown := .rect (s.rowRect s.ren.rowY s.ren.rowDy) :: s.shown }) ∧
    (∀ r, s.ren.tp = .cmd r → 0 < r.bytes.length →
      renRule tp s = .next (if tp.cmdReady then { s with ren := { s.ren with tp := .data r 0 } } else s)) ∧
    (∀ r i, s.ren.tp = .data r i → i + 1 < r.bytes.length →
      renRule tp s = .next (if tp.dataReady then { s with ren := { s.ren with tp := .data r (i + 1) } } else s)) ∧
    (∀ r i, s.ren.tp = .data r i → i + 1 = r.bytes.length →
      s.tpDataO = (r.bytes[i]?).map (fun b => (b, true)) ∧
      renRule tp s = .next (if tp.dataReady then { s with ren := { s.ren with tp := .resp } } else s)) ∧
    (s.ren.tp = .resp → tp.respValid = false → renRule tp s = .next s) ∧
    (s.ren.tp = .resp → tp.respValid = true → tp.respErr = true →
      renRule tp s = .next { s with
        ren := { s.ren with tp := .idle, renState := .abort }, shown := .answer true :: s.shown }) ∧
    (s.ren.tp = .resp → tp.respValid = true → tp.respErr = false →
      renRule tp s = .next { s with
        ren := if s.ren.rowDy + 1 < s.cfg.sy then { s.ren with tp := .idle, rowDy := s.ren.rowDy + 1 }
          else { s.ren with tp := .idle, rowDy := 0, rowY := s.ren.rowY + 1 }
        shown := .answer false :: s.shown })

/-- R321: a command's fields and a byte are stable while their valid is 1 and TP does not take them. -/
def Obligations.TransportPortsStable : Prop :=
  ∀ s t : State, CoreInv s → s.nextTick ≠ .reset → step s = .next t →
    (∀ r, s.tpCmdO = some r → (∀ tp y, s.nextTick = .clkR tp y → tp.cmdReady = false) →
      t.tpCmdO = some r ∧ t.tpDataO = none) ∧
    (∀ d, s.tpDataO = some d → (∀ tp y, s.nextTick = .clkR tp y → tp.dataReady = false) →
      t.tpDataO = some d ∧ t.tpCmdO = none)

/-- R327: COMMIT. -/
def Obligations.CommitStep : Prop :=
  ∀ (tp : TpIn) (s : State), s.ren.renState = .commit →
    ∃ t, renRule tp s = .next t ∧
      t = { s with ren := { s.ren with
        pb := t.ren.pb, prevValid := t.ren.prevValid, renState := .acquire, reqTgl := !s.ren.reqTgl } } ∧
      (s.cfg.dirtyEn = true → t.ren.prevValid = true ∧ ∀ i, i < s.cfg.cap → t.readPb i = s.readSb i) ∧
      (s.cfg.dirtyEn = false → t.ren.prevValid = s.ren.prevValid ∧ ∀ i, t.readPb i = s.readPb i)

/-- R328: ABORT. -/
def Obligations.AbortStep : Prop :=
  ∀ (tp : TpIn) (s : State), s.ren.renState = .abort →
    renRule tp s = .next { s with ren := { s.ren with
      abortCnt := s.ren.abortCnt + 1, prevValid := false, renState := .acquire, reqTgl := !s.ren.reqTgl } }

/-- R411: the diagnostic pulse. A clk_r cycle that ignores a byte ends with `diag_valid = 1` and that byte; any other ends with
`diag_valid = 0`; a clk_i cycle does not touch the register. -/
def Obligations.DiagnosticPulse : Prop :=
  ∀ s t : State, step s = .next t →
    (∀ tp y b, s.nextTick = .clkR tp y → s.ren.renState = .decode → s.fetchInstr = .ignored b →
      t.dec.diagValid = true ∧ t.dec.diagByte = b) ∧
    (∀ tp y, s.nextTick = .clkR tp y → (∀ b, ¬(s.ren.renState = .decode ∧ s.fetchInstr = .ignored b)) →
      t.dec.diagValid = false ∧ t.dec.diagByte = s.dec.diagByte) ∧
    (∀ bus y, s.nextTick = .clkI bus y → t.dec.diagValid = s.dec.diagValid ∧ t.dec.diagByte = s.dec.diagByte)

/-- R10, I8: a clk_r cycle in which TP answers what does not await an answer has no meaning. The refusal is the model's form of it,
log entry 8. -/
def Obligations.TpBreachRefused : Prop :=
  ∀ s : State, s.cfg.Legal → TpBreach s → step s = .refused .tpDutyBreach

/-! ## The compositor (43_pixel_format.md) -/

/-- R352, R353, R356: at 8, 16 and 24 bits per pixel, pixel `j` is `BPP/8` bytes of 0xFF or 0x00. -/
def Obligations.EncodeByteMultiple : Prop :=
  ∀ (c : Config) (px : List Bool), c.bpp = 8 ∨ c.bpp = 16 ∨ c.bpp = 24 →
    (encodeRow c px).length = px.length * c.bpp / 8 ∧
    ∀ (j k : Nat) (hj : j < px.length), k < c.bpp / 8 →
      (encodeRow c px)[j * (c.bpp / 8) + k]? = some (if px[j] then 0xFF else 0x00)

/-- R351, R354, R355: at 1, 2 and 4 bits per pixel, `P = 8/BPP` pixels share a byte: every bit of pixel `k*P + m`'s slot is that pixel,
and 0 after the last pixel. The slot's low bit is `8 - BPP*(m+1)` with PACK_MSB_FIRST, else `BPP*m`. -/
def Obligations.EncodePacked : Prop :=
  ∀ (c : Config) (px : List Bool), c.bpp = 1 ∨ c.bpp = 2 ∨ c.bpp = 4 →
    (encodeRow c px).length = (px.length * c.bpp + 7) / 8 ∧
    ∀ (k m t : Nat) (hk : k < (encodeRow c px).length), m < 8 / c.bpp → t < c.bpp →
      ((encodeRow c px)[k]).getLsbD ((if c.packMsbFirst then 8 - c.bpp * (m + 1) else c.bpp * m) + t) =
        px.getD (k * (8 / c.bpp) + m) false

/-! ## Invariants -/

/-- The invariant holds right after reset, for every legal parameter set; `State.reset`'s is one. -/
def Obligations.ResetMeetsCoreInv : Prop :=
  State.reset = State.resetOf Config.standard ∧ Config.standard.Legal ∧
  ∀ c : Config, c.Legal → CoreInv (State.resetOf c) ∧ PassShows (State.resetOf c)

/-- Every step keeps the machine's invariant: ownership partition (R110), no read before fill (R111), the handshake (R253, R254), the
registers' ranges (R63, R67, R76, R78), the full queue of a wait (R259, R262), the rectangle in progress (R321), PB (R65), canonical memories. -/
def Obligations.StepKeepsCoreInv : Prop := ∀ s t : State, CoreInv s → step s = .next t → CoreInv t

/-- R407: no input makes the core stop: from every state of the invariant the step answers a next state, unless TP breaks its duty. -/
def Obligations.StepNeverStops : Prop := ∀ s : State, CoreInv s → ¬TpBreach s → ∃ t, step s = .next t

/-- R306, R307, R314, R320: what a pass has shown at any point of it is exactly the rectangles of the rows passed, computed from the SB
of the whole pass. -/
def Obligations.StepKeepsPassShows : Prop :=
  ∀ s t : State, CoreInv s → PassShows s → step s = .next t → PassShows t

/-- R330, R331: at COMMIT the pass has shown, with `DIRTY_EN = 0` or `prev_valid = 0`, exactly H*SY rectangles: SY repeats of every row;
else SY repeats of each row that is not equal in SB and PB, so none if all are equal. -/
def Obligations.CommittedPassShows : Prop :=
  ∀ s : State, s.cfg.Legal → PassShows s → s.ren.renState = .commit →
    (s.cfg.dirtyEn = false ∨ s.ren.prevValid = false →
      passRects s.shown = (List.range (s.cfg.h * s.cfg.sy)).map (fun n => s.rowRect (n / s.cfg.sy) (n % s.cfg.sy)) ∧
      (passRects s.shown).length = s.cfg.h * s.cfg.sy) ∧
    (s.cfg.dirtyEn = true → s.ren.prevValid = true →
      passRects s.shown =
        ((List.range s.cfg.h).filter (fun y => !s.rowEq y)).flatMap
          (fun y => (List.range s.cfg.sy).map (fun dy => s.rowRect y dy)) ∧
      ((∀ y, y < s.cfg.h → s.rowEq y = true) → passRects s.shown = []) ∧
      (∀ y, y < s.cfg.h → s.rowEq y = false → (∀ z, z < s.cfg.h → z ≠ y → s.rowEq z = true) →
        passRects s.shown = (List.range s.cfg.sy).map (fun dy => s.rowRect y dy)))

/-- R323: the `y` coordinates of a pass's rectangles strictly increase. -/
def Obligations.EmissionOrder : Prop :=
  ∀ s : State, CoreInv s → PassShows s → s.ren.renState = .emit ∨ s.ren.renState = .commit →
    (passRects s.shown).Pairwise (fun a b => a.y.toNat < b.y.toNat)

end
end

