-- ==== Sys2Proof/Laws/State.lean ====
section
/-! SUPPORT. One lemma per field per update: what each operation on the state does to each field. -/

namespace Sys2Proof.Machine

open Sys2Proof

/-! ## The decoder and the diagnostic register -/

@[simp] theorem Decoder.setPower_decState (d : Decoder) (p : Bool) : (d.setPower p).decState = d.decState := rfl
@[simp] theorem Decoder.setPower_pendingCmd (d : Decoder) (p : Bool) : (d.setPower p).pendingCmd = d.pendingCmd := rfl
@[simp] theorem Decoder.setPower_power (d : Decoder) (p : Bool) : (d.setPower p).power = p := rfl
@[simp] theorem Decoder.setPower_cursor (d : Decoder) (p : Bool) : (d.setPower p).cursor = d.cursor := rfl
@[simp] theorem Decoder.setPower_sb (d : Decoder) (p : Bool) : (d.setPower p).sb = d.sb := rfl
@[simp] theorem Decoder.setPower_diagValid (d : Decoder) (p : Bool) : (d.setPower p).diagValid = d.diagValid := rfl
@[simp] theorem Decoder.setPower_diagByte (d : Decoder) (p : Bool) : (d.setPower p).diagByte = d.diagByte := rfl
@[simp] theorem State.endPulse_cfg (s : State) : (s.endPulse).cfg = s.cfg := rfl
@[simp] theorem State.endPulse_dec (s : State) : (s.endPulse).dec = { s.dec with diagValid := false } := rfl
@[simp] theorem State.endPulse_ren (s : State) : (s.endPulse).ren = s.ren := rfl
@[simp] theorem State.endPulse_ing (s : State) : (s.endPulse).ing = s.ing := rfl
@[simp] theorem State.endPulse_arena (s : State) : (s.endPulse).arena = s.arena := rfl
@[simp] theorem State.endPulse_inputs (s : State) : (s.endPulse).inputs = s.inputs := rfl
@[simp] theorem State.endPulse_ticks (s : State) : (s.endPulse).ticks = s.ticks := rfl
@[simp] theorem State.endPulse_epoch (s : State) : (s.endPulse).epoch = s.epoch := rfl
@[simp] theorem State.endPulse_shown (s : State) : (s.endPulse).shown = s.shown := rfl
@[simp] theorem State.diag_cfg (s : State) (b : Byte) : (s.diag b).cfg = s.cfg := rfl
@[simp] theorem State.diag_dec (s : State) (b : Byte) : (s.diag b).dec = { s.dec with diagValid := true, diagByte := b } := rfl
@[simp] theorem State.diag_ren (s : State) (b : Byte) : (s.diag b).ren = s.ren := rfl
@[simp] theorem State.diag_ing (s : State) (b : Byte) : (s.diag b).ing = s.ing := rfl
@[simp] theorem State.diag_arena (s : State) (b : Byte) : (s.diag b).arena = s.arena := rfl
@[simp] theorem State.diag_inputs (s : State) (b : Byte) : (s.diag b).inputs = s.inputs := rfl
@[simp] theorem State.diag_ticks (s : State) (b : Byte) : (s.diag b).ticks = s.ticks := rfl
@[simp] theorem State.diag_epoch (s : State) (b : Byte) : (s.diag b).epoch = s.epoch := rfl
@[simp] theorem State.diag_shown (s : State) (b : Byte) : (s.diag b).shown = .diag b :: s.shown := rfl

/-! ## Inputs and reset -/

@[simp] theorem State.popTick_cfg (s : State) : (s.popTick).cfg = s.cfg := by
  cases h : s.inputs <;> simp [State.popTick, h]
@[simp] theorem State.popTick_dec (s : State) : (s.popTick).dec = s.dec := by
  cases h : s.inputs <;> simp [State.popTick, h]
@[simp] theorem State.popTick_ren (s : State) : (s.popTick).ren = s.ren := by
  cases h : s.inputs <;> simp [State.popTick, h]
@[simp] theorem State.popTick_ing (s : State) : (s.popTick).ing = s.ing := by
  cases h : s.inputs <;> simp [State.popTick, h]
@[simp] theorem State.popTick_arena (s : State) : (s.popTick).arena = s.arena := by
  cases h : s.inputs <;> simp [State.popTick, h]
@[simp] theorem State.popTick_inputs (s : State) : (s.popTick).inputs = s.inputs.tail := by
  cases h : s.inputs <;> simp [State.popTick, h]
@[simp] theorem State.popTick_epoch (s : State) : (s.popTick).epoch = s.epoch := by
  cases h : s.inputs <;> simp [State.popTick, h]
@[simp] theorem State.popTick_shown (s : State) : (s.popTick).shown = s.shown := by
  cases h : s.inputs <;> simp [State.popTick, h]
@[simp] theorem State.applyReset_cfg (s : State) : (s.applyReset).cfg = s.cfg := rfl
@[simp] theorem State.applyReset_dec (s : State) : (s.applyReset).dec = (State.resetOf s.cfg).dec := rfl
@[simp] theorem State.applyReset_ren (s : State) : (s.applyReset).ren = (State.resetOf s.cfg).ren := rfl
@[simp] theorem State.applyReset_ing (s : State) : (s.applyReset).ing = (State.resetOf s.cfg).ing := rfl
@[simp] theorem State.applyReset_arena (s : State) : (s.applyReset).arena = [] := rfl
@[simp] theorem State.applyReset_inputs (s : State) : (s.applyReset).inputs = s.inputs := rfl
@[simp] theorem State.applyReset_ticks (s : State) : (s.applyReset).ticks = s.ticks := rfl
@[simp] theorem State.applyReset_epoch (s : State) : (s.applyReset).epoch = s.epoch + 1 := rfl
@[simp] theorem State.applyReset_shown (s : State) : (s.applyReset).shown = s.shown := rfl

/-! ## Events of ING -/

@[simp] theorem dropFrame_cfg (s : State) : (dropFrame s).cfg = s.cfg := rfl
@[simp] theorem dropFrame_dec (s : State) : (dropFrame s).dec = s.dec := rfl
@[simp] theorem dropFrame_ren (s : State) : (dropFrame s).ren = s.ren := rfl
@[simp] theorem dropFrame_ing (s : State) : (dropFrame s).ing = { s.ing with droppedCnt := s.ing.droppedCnt + 1, rxCount := 0 } := rfl
@[simp] theorem dropFrame_arena (s : State) : (dropFrame s).arena = s.arena := rfl
@[simp] theorem dropFrame_inputs (s : State) : (dropFrame s).inputs = s.inputs := rfl
@[simp] theorem dropFrame_ticks (s : State) : (dropFrame s).ticks = s.ticks := rfl
@[simp] theorem dropFrame_epoch (s : State) : (dropFrame s).epoch = s.epoch := rfl
@[simp] theorem dropFrame_shown (s : State) : (dropFrame s).shown = s.shown := rfl
@[simp] theorem overrun_cfg (s : State) : (overrun s).cfg = s.cfg := rfl
@[simp] theorem overrun_dec (s : State) : (overrun s).dec = s.dec := rfl
@[simp] theorem overrun_ren (s : State) : (overrun s).ren = s.ren := rfl
@[simp] theorem overrun_ing (s : State) : (overrun s).ing = { s.ing with overrunCnt := s.ing.overrunCnt + 1, rxCount := 0 } := rfl
@[simp] theorem overrun_arena (s : State) : (overrun s).arena = s.arena := rfl
@[simp] theorem overrun_inputs (s : State) : (overrun s).inputs = s.inputs := rfl
@[simp] theorem overrun_ticks (s : State) : (overrun s).ticks = s.ticks := rfl
@[simp] theorem overrun_epoch (s : State) : (overrun s).epoch = s.epoch := rfl
@[simp] theorem overrun_shown (s : State) : (overrun s).shown = s.shown := rfl
@[simp] theorem dropWait_cfg (s : State) : (dropWait s).cfg = s.cfg := rfl
@[simp] theorem dropWait_dec (s : State) : (dropWait s).dec = s.dec := rfl
@[simp] theorem dropWait_ren (s : State) : (dropWait s).ren = s.ren := rfl
@[simp] theorem dropWait_ing (s : State) : (dropWait s).ing = { s.ing with droppedCnt := s.ing.droppedCnt + 1, rxCount := 0, rxState := .rx } := rfl
@[simp] theorem dropWait_arena (s : State) : (dropWait s).arena = s.arena := rfl
@[simp] theorem dropWait_inputs (s : State) : (dropWait s).inputs = s.inputs := rfl
@[simp] theorem dropWait_ticks (s : State) : (dropWait s).ticks = s.ticks := rfl
@[simp] theorem dropWait_epoch (s : State) : (dropWait s).epoch = s.epoch := rfl
@[simp] theorem dropWait_shown (s : State) : (dropWait s).shown = s.shown := rfl

/-! ## Serving an acquire -/

@[simp] theorem releaseHeld_rxState (g : Ingest) : (releaseHeld g).rxState = g.rxState := by
  unfold releaseHeld; split <;> rfl
@[simp] theorem releaseHeld_rxCount (g : Ingest) : (releaseHeld g).rxCount = g.rxCount := by
  unfold releaseHeld; split <;> rfl
@[simp] theorem releaseHeld_fillIdx (g : Ingest) : (releaseHeld g).fillIdx = g.fillIdx := by
  unfold releaseHeld; split <;> rfl
@[simp] theorem releaseHeld_q (g : Ingest) : (releaseHeld g).q = g.q := by
  unfold releaseHeld; split <;> rfl
@[simp] theorem releaseHeld_heldIdx (g : Ingest) : (releaseHeld g).heldIdx = g.heldIdx := by
  unfold releaseHeld; split <;> rfl
@[simp] theorem releaseHeld_waitLeft (g : Ingest) : (releaseHeld g).waitLeft = g.waitLeft := by
  unfold releaseHeld; split <;> rfl
@[simp] theorem releaseHeld_reqSync (g : Ingest) : (releaseHeld g).reqSync = g.reqSync := by
  unfold releaseHeld; split <;> rfl
@[simp] theorem releaseHeld_reqSeen (g : Ingest) : (releaseHeld g).reqSeen = g.reqSeen := by
  unfold releaseHeld; split <;> rfl
@[simp] theorem releaseHeld_ackTgl (g : Ingest) : (releaseHeld g).ackTgl = g.ackTgl := by
  unfold releaseHeld; split <;> rfl
@[simp] theorem releaseHeld_ackOk (g : Ingest) : (releaseHeld g).ackOk = g.ackOk := by
  unfold releaseHeld; split <;> rfl
@[simp] theorem releaseHeld_ackIdx (g : Ingest) : (releaseHeld g).ackIdx = g.ackIdx := by
  unfold releaseHeld; split <;> rfl
@[simp] theorem releaseHeld_overrunCnt (g : Ingest) : (releaseHeld g).overrunCnt = g.overrunCnt := by
  unfold releaseHeld; split <;> rfl
@[simp] theorem releaseHeld_droppedCnt (g : Ingest) : (releaseHeld g).droppedCnt = g.droppedCnt := by
  unfold releaseHeld; split <;> rfl
@[simp] theorem grantNext_rxState (g : Ingest) : (grantNext g).rxState = g.rxState := by
  unfold grantNext; split <;> rfl
@[simp] theorem grantNext_rxCount (g : Ingest) : (grantNext g).rxCount = g.rxCount := by
  unfold grantNext; split <;> rfl
@[simp] theorem grantNext_fillIdx (g : Ingest) : (grantNext g).fillIdx = g.fillIdx := by
  unfold grantNext; split <;> rfl
@[simp] theorem grantNext_free (g : Ingest) : (grantNext g).free = g.free := by
  unfold grantNext; split <;> rfl
@[simp] theorem grantNext_waitLeft (g : Ingest) : (grantNext g).waitLeft = g.waitLeft := by
  unfold grantNext; split <;> rfl
@[simp] theorem grantNext_reqSync (g : Ingest) : (grantNext g).reqSync = g.reqSync := by
  unfold grantNext; split <;> rfl
@[simp] theorem grantNext_reqSeen (g : Ingest) : (grantNext g).reqSeen = g.reqSeen := by
  unfold grantNext; split <;> rfl
@[simp] theorem grantNext_ackTgl (g : Ingest) : (grantNext g).ackTgl = g.ackTgl := by
  unfold grantNext; split <;> rfl
@[simp] theorem grantNext_overrunCnt (g : Ingest) : (grantNext g).overrunCnt = g.overrunCnt := by
  unfold grantNext; split <;> rfl
@[simp] theorem grantNext_droppedCnt (g : Ingest) : (grantNext g).droppedCnt = g.droppedCnt := by
  unfold grantNext; split <;> rfl
@[simp] theorem discardOldest_rxState (g : Ingest) : (discardOldest g).rxState = g.rxState := by
  unfold discardOldest; split <;> rfl
@[simp] theorem discardOldest_rxCount (g : Ingest) : (discardOldest g).rxCount = g.rxCount := by
  unfold discardOldest; split <;> rfl
@[simp] theorem discardOldest_fillIdx (g : Ingest) : (discardOldest g).fillIdx = g.fillIdx := by
  unfold discardOldest; split <;> rfl
@[simp] theorem discardOldest_heldValid (g : Ingest) : (discardOldest g).heldValid = g.heldValid := by
  unfold discardOldest; split <;> rfl
@[simp] theorem discardOldest_heldIdx (g : Ingest) : (discardOldest g).heldIdx = g.heldIdx := by
  unfold discardOldest; split <;> rfl
@[simp] theorem discardOldest_waitLeft (g : Ingest) : (discardOldest g).waitLeft = g.waitLeft := by
  unfold discardOldest; split <;> rfl
@[simp] theorem discardOldest_reqSync (g : Ingest) : (discardOldest g).reqSync = g.reqSync := by
  unfold discardOldest; split <;> rfl
@[simp] theorem discardOldest_reqSeen (g : Ingest) : (discardOldest g).reqSeen = g.reqSeen := by
  unfold discardOldest; split <;> rfl
@[simp] theorem discardOldest_ackTgl (g : Ingest) : (discardOldest g).ackTgl = g.ackTgl := by
  unfold discardOldest; split <;> rfl
@[simp] theorem discardOldest_ackOk (g : Ingest) : (discardOldest g).ackOk = g.ackOk := by
  unfold discardOldest; split <;> rfl
@[simp] theorem discardOldest_ackIdx (g : Ingest) : (discardOldest g).ackIdx = g.ackIdx := by
  unfold discardOldest; split <;> rfl
@[simp] theorem discardOldest_overrunCnt (g : Ingest) : (discardOldest g).overrunCnt = g.overrunCnt := by
  unfold discardOldest; split <;> rfl
@[simp] theorem discardOldest_droppedCnt (g : Ingest) : (discardOldest g).droppedCnt = g.droppedCnt := by
  unfold discardOldest; split <;> rfl
@[simp] theorem serveAcquire_rxState (g : Ingest) : (serveAcquire g).rxState = g.rxState := by
  simp [serveAcquire]
@[simp] theorem serveAcquire_rxCount (g : Ingest) : (serveAcquire g).rxCount = g.rxCount := by
  simp [serveAcquire]
@[simp] theorem serveAcquire_fillIdx (g : Ingest) : (serveAcquire g).fillIdx = g.fillIdx := by
  simp [serveAcquire]
@[simp] theorem serveAcquire_waitLeft (g : Ingest) : (serveAcquire g).waitLeft = g.waitLeft := by
  simp [serveAcquire]
@[simp] theorem serveAcquire_reqSync (g : Ingest) : (serveAcquire g).reqSync = g.reqSync := by
  simp [serveAcquire]
@[simp] theorem serveAcquire_reqSeen (g : Ingest) : (serveAcquire g).reqSeen = g.reqSeen := by
  simp [serveAcquire]
@[simp] theorem serveAcquire_overrunCnt (g : Ingest) : (serveAcquire g).overrunCnt = g.overrunCnt := by
  simp [serveAcquire]
@[simp] theorem serveAcquire_droppedCnt (g : Ingest) : (serveAcquire g).droppedCnt = g.droppedCnt := by
  simp [serveAcquire]
@[simp] theorem serveAcquire_ackTgl (g : Ingest) : (serveAcquire g).ackTgl = !g.ackTgl := by
  simp [serveAcquire]

/-! ## REN's registers -/

@[simp] theorem Render.setPrevValid_pb (r : Render) (v : Bool) : (r.setPrevValid v).pb = r.pb := rfl
@[simp] theorem Render.setPrevValid_prevValid (r : Render) (v : Bool) : (r.setPrevValid v).prevValid = v := rfl
@[simp] theorem Render.setPrevValid_renState (r : Render) (v : Bool) : (r.setPrevValid v).renState = r.renState := rfl
@[simp] theorem Render.setPrevValid_clrPtr (r : Render) (v : Bool) : (r.setPrevValid v).clrPtr = r.clrPtr := rfl
@[simp] theorem Render.setPrevValid_curIdx (r : Render) (v : Bool) : (r.setPrevValid v).curIdx = r.curIdx := rfl
@[simp] theorem Render.setPrevValid_decPtr (r : Render) (v : Bool) : (r.setPrevValid v).decPtr = r.decPtr := rfl
@[simp] theorem Render.setPrevValid_rowY (r : Render) (v : Bool) : (r.setPrevValid v).rowY = r.rowY := rfl
@[simp] theorem Render.setPrevValid_rowDy (r : Render) (v : Bool) : (r.setPrevValid v).rowDy = r.rowDy := rfl
@[simp] theorem Render.setPrevValid_reqTgl (r : Render) (v : Bool) : (r.setPrevValid v).reqTgl = r.reqTgl := rfl
@[simp] theorem Render.setPrevValid_ackSync (r : Render) (v : Bool) : (r.setPrevValid v).ackSync = r.ackSync := rfl
@[simp] theorem Render.setPrevValid_ackSeen (r : Render) (v : Bool) : (r.setPrevValid v).ackSeen = r.ackSeen := rfl
@[simp] theorem Render.setPrevValid_abortCnt (r : Render) (v : Bool) : (r.setPrevValid v).abortCnt = r.abortCnt := rfl
@[simp] theorem Render.setPrevValid_tp (r : Render) (v : Bool) : (r.setPrevValid v).tp = r.tp := rfl
@[simp] theorem Render.setPrevValid_tpCycles (r : Render) (v : Bool) : (r.setPrevValid v).tpCycles = r.tpCycles := rfl
@[simp] theorem request_pb (r : Render) : (request r).pb = r.pb := rfl
@[simp] theorem request_prevValid (r : Render) : (request r).prevValid = r.prevValid := rfl
@[simp] theorem request_renState (r : Render) : (request r).renState = r.renState := rfl
@[simp] theorem request_clrPtr (r : Render) : (request r).clrPtr = r.clrPtr := rfl
@[simp] theorem request_curIdx (r : Render) : (request r).curIdx = r.curIdx := rfl
@[simp] theorem request_decPtr (r : Render) : (request r).decPtr = r.decPtr := rfl
@[simp] theorem request_rowY (r : Render) : (request r).rowY = r.rowY := rfl
@[simp] theorem request_rowDy (r : Render) : (request r).rowDy = r.rowDy := rfl
@[simp] theorem request_reqTgl (r : Render) : (request r).reqTgl = !r.reqTgl := rfl
@[simp] theorem request_ackSync (r : Render) : (request r).ackSync = r.ackSync := rfl
@[simp] theorem request_ackSeen (r : Render) : (request r).ackSeen = r.ackSeen := rfl
@[simp] theorem request_abortCnt (r : Render) : (request r).abortCnt = r.abortCnt := rfl
@[simp] theorem request_tp (r : Render) : (request r).tp = r.tp := rfl
@[simp] theorem request_tpCycles (r : Render) : (request r).tpCycles = r.tpCycles := rfl
@[simp] theorem enterAcquire_pb (r : Render) : (enterAcquire r).pb = r.pb := rfl
@[simp] theorem enterAcquire_prevValid (r : Render) : (enterAcquire r).prevValid = r.prevValid := rfl
@[simp] theorem enterAcquire_renState (r : Render) : (enterAcquire r).renState = .acquire := rfl
@[simp] theorem enterAcquire_clrPtr (r : Render) : (enterAcquire r).clrPtr = r.clrPtr := rfl
@[simp] theorem enterAcquire_curIdx (r : Render) : (enterAcquire r).curIdx = r.curIdx := rfl
@[simp] theorem enterAcquire_decPtr (r : Render) : (enterAcquire r).decPtr = r.decPtr := rfl
@[simp] theorem enterAcquire_rowY (r : Render) : (enterAcquire r).rowY = r.rowY := rfl
@[simp] theorem enterAcquire_rowDy (r : Render) : (enterAcquire r).rowDy = r.rowDy := rfl
@[simp] theorem enterAcquire_reqTgl (r : Render) : (enterAcquire r).reqTgl = !r.reqTgl := rfl
@[simp] theorem enterAcquire_ackSync (r : Render) : (enterAcquire r).ackSync = r.ackSync := rfl
@[simp] theorem enterAcquire_ackSeen (r : Render) : (enterAcquire r).ackSeen = r.ackSeen := rfl
@[simp] theorem enterAcquire_abortCnt (r : Render) : (enterAcquire r).abortCnt = r.abortCnt := rfl
@[simp] theorem enterAcquire_tp (r : Render) : (enterAcquire r).tp = r.tp := rfl
@[simp] theorem enterAcquire_tpCycles (r : Render) : (enterAcquire r).tpCycles = r.tpCycles := rfl
@[simp] theorem nextRepeat_pb (c : Config) (r : Render) : (nextRepeat c r).pb = r.pb := by
  unfold nextRepeat; split <;> rfl
@[simp] theorem nextRepeat_prevValid (c : Config) (r : Render) : (nextRepeat c r).prevValid = r.prevValid := by
  unfold nextRepeat; split <;> rfl
@[simp] theorem nextRepeat_renState (c : Config) (r : Render) : (nextRepeat c r).renState = r.renState := by
  unfold nextRepeat; split <;> rfl
@[simp] theorem nextRepeat_clrPtr (c : Config) (r : Render) : (nextRepeat c r).clrPtr = r.clrPtr := by
  unfold nextRepeat; split <;> rfl
@[simp] theorem nextRepeat_curIdx (c : Config) (r : Render) : (nextRepeat c r).curIdx = r.curIdx := by
  unfold nextRepeat; split <;> rfl
@[simp] theorem nextRepeat_decPtr (c : Config) (r : Render) : (nextRepeat c r).decPtr = r.decPtr := by
  unfold nextRepeat; split <;> rfl
@[simp] theorem nextRepeat_reqTgl (c : Config) (r : Render) : (nextRepeat c r).reqTgl = r.reqTgl := by
  unfold nextRepeat; split <;> rfl
@[simp] theorem nextRepeat_ackSync (c : Config) (r : Render) : (nextRepeat c r).ackSync = r.ackSync := by
  unfold nextRepeat; split <;> rfl
@[simp] theorem nextRepeat_ackSeen (c : Config) (r : Render) : (nextRepeat c r).ackSeen = r.ackSeen := by
  unfold nextRepeat; split <;> rfl
@[simp] theorem nextRepeat_abortCnt (c : Config) (r : Render) : (nextRepeat c r).abortCnt = r.abortCnt := by
  unfold nextRepeat; split <;> rfl
@[simp] theorem nextRepeat_tp (c : Config) (r : Render) : (nextRepeat c r).tp = r.tp := by
  unfold nextRepeat; split <;> rfl
@[simp] theorem nextRepeat_tpCycles (c : Config) (r : Render) : (nextRepeat c r).tpCycles = r.tpCycles := by
  unfold nextRepeat; split <;> rfl
@[simp] theorem decodeNext_cfg (s : State) : (decodeNext s).cfg = s.cfg := rfl
@[simp] theorem decodeNext_dec (s : State) : (decodeNext s).dec = s.dec := rfl
@[simp] theorem decodeNext_ing (s : State) : (decodeNext s).ing = s.ing := rfl
@[simp] theorem decodeNext_arena (s : State) : (decodeNext s).arena = s.arena := rfl
@[simp] theorem decodeNext_inputs (s : State) : (decodeNext s).inputs = s.inputs := rfl
@[simp] theorem decodeNext_ticks (s : State) : (decodeNext s).ticks = s.ticks := rfl
@[simp] theorem decodeNext_epoch (s : State) : (decodeNext s).epoch = s.epoch := rfl
@[simp] theorem decodeNext_shown (s : State) : (decodeNext s).shown = s.shown := rfl
@[simp] theorem renCommit_cfg (s : State) : (renCommit s).cfg = s.cfg := rfl
@[simp] theorem renCommit_dec (s : State) : (renCommit s).dec = s.dec := rfl
@[simp] theorem renCommit_ing (s : State) : (renCommit s).ing = s.ing := rfl
@[simp] theorem renCommit_arena (s : State) : (renCommit s).arena = s.arena := rfl
@[simp] theorem renCommit_inputs (s : State) : (renCommit s).inputs = s.inputs := rfl
@[simp] theorem renCommit_ticks (s : State) : (renCommit s).ticks = s.ticks := rfl
@[simp] theorem renCommit_epoch (s : State) : (renCommit s).epoch = s.epoch := rfl
@[simp] theorem renCommit_shown (s : State) : (renCommit s).shown = s.shown := rfl
@[simp] theorem renAbort_cfg (s : State) : (renAbort s).cfg = s.cfg := rfl
@[simp] theorem renAbort_dec (s : State) : (renAbort s).dec = s.dec := rfl
@[simp] theorem renAbort_ing (s : State) : (renAbort s).ing = s.ing := rfl
@[simp] theorem renAbort_arena (s : State) : (renAbort s).arena = s.arena := rfl
@[simp] theorem renAbort_inputs (s : State) : (renAbort s).inputs = s.inputs := rfl
@[simp] theorem renAbort_ticks (s : State) : (renAbort s).ticks = s.ticks := rfl
@[simp] theorem renAbort_epoch (s : State) : (renAbort s).epoch = s.epoch := rfl
@[simp] theorem renAbort_shown (s : State) : (renAbort s).shown = s.shown := rfl
@[simp] theorem takeAnswer_cfg (err : Bool) (s : State) : (takeAnswer err s).cfg = s.cfg := by
  cases err <;> rfl
@[simp] theorem takeAnswer_dec (err : Bool) (s : State) : (takeAnswer err s).dec = s.dec := by
  cases err <;> rfl
@[simp] theorem takeAnswer_ing (err : Bool) (s : State) : (takeAnswer err s).ing = s.ing := by
  cases err <;> rfl
@[simp] theorem takeAnswer_arena (err : Bool) (s : State) : (takeAnswer err s).arena = s.arena := by
  cases err <;> rfl
@[simp] theorem takeAnswer_inputs (err : Bool) (s : State) : (takeAnswer err s).inputs = s.inputs := by
  cases err <;> rfl
@[simp] theorem takeAnswer_ticks (err : Bool) (s : State) : (takeAnswer err s).ticks = s.ticks := by
  cases err <;> rfl
@[simp] theorem takeAnswer_epoch (err : Bool) (s : State) : (takeAnswer err s).epoch = s.epoch := by
  cases err <;> rfl
@[simp] theorem takeAnswer_shown (err : Bool) (s : State) : (takeAnswer err s).shown = .answer err :: s.shown := by
  cases err <;> rfl
@[simp] theorem decodeNext_pb (s : State) : (decodeNext s).ren.pb = s.ren.pb := by
  simp only [decodeNext]; split <;> rfl
@[simp] theorem decodeNext_prevValid (s : State) : (decodeNext s).ren.prevValid = s.ren.prevValid := by
  simp only [decodeNext]; split <;> rfl
@[simp] theorem decodeNext_renState (s : State) : (decodeNext s).ren.renState = if s.ren.decPtr + 1 = s.cfg.cap then .emit else s.ren.renState := by
  simp only [decodeNext]; split <;> rfl
@[simp] theorem decodeNext_clrPtr (s : State) : (decodeNext s).ren.clrPtr = s.ren.clrPtr := by
  simp only [decodeNext]; split <;> rfl
@[simp] theorem decodeNext_curIdx (s : State) : (decodeNext s).ren.curIdx = s.ren.curIdx := by
  simp only [decodeNext]; split <;> rfl
@[simp] theorem decodeNext_decPtr (s : State) : (decodeNext s).ren.decPtr = s.ren.decPtr + 1 := by
  simp only [decodeNext]; split <;> rfl
@[simp] theorem decodeNext_rowY (s : State) : (decodeNext s).ren.rowY = if s.ren.decPtr + 1 = s.cfg.cap then 0 else s.ren.rowY := by
  simp only [decodeNext]; split <;> rfl
@[simp] theorem decodeNext_rowDy (s : State) : (decodeNext s).ren.rowDy = if s.ren.decPtr + 1 = s.cfg.cap then 0 else s.ren.rowDy := by
  simp only [decodeNext]; split <;> rfl
@[simp] theorem decodeNext_reqTgl (s : State) : (decodeNext s).ren.reqTgl = s.ren.reqTgl := by
  simp only [decodeNext]; split <;> rfl
@[simp] theorem decodeNext_ackSync (s : State) : (decodeNext s).ren.ackSync = s.ren.ackSync := by
  simp only [decodeNext]; split <;> rfl
@[simp] theorem decodeNext_ackSeen (s : State) : (decodeNext s).ren.ackSeen = s.ren.ackSeen := by
  simp only [decodeNext]; split <;> rfl
@[simp] theorem decodeNext_abortCnt (s : State) : (decodeNext s).ren.abortCnt = s.ren.abortCnt := by
  simp only [decodeNext]; split <;> rfl
@[simp] theorem decodeNext_tp (s : State) : (decodeNext s).ren.tp = s.ren.tp := by
  simp only [decodeNext]; split <;> rfl
@[simp] theorem decodeNext_tpCycles (s : State) : (decodeNext s).ren.tpCycles = s.ren.tpCycles := by
  simp only [decodeNext]; split <;> rfl

/-! ## Transport outputs -/

/-- The outputs right after a reset (D20). -/
theorem State.tpFieldsO_of_quiet {s : State} (h : s.ren.tp = .idle) (hc : s.ren.tpCycles = 0) :
    s.tpFieldsO = { x := 0, y := 0, w := 0, h := 0, data := 0x00, dataLast := false } := by
  simp [State.tpFieldsO, State.tpCmdO, State.tpDataO, State.tpQuietFields, h, hc]

/-- The outputs while a rectangle is offered (R321 step 1). -/
theorem State.tpFieldsO_of_cmd {s : State} {r : Rect} (h : s.ren.tp = .cmd r) :
    s.tpFieldsO = { s.tpQuietFields with x := r.x, y := r.y, w := r.w, h := r.h } := by
  simp [State.tpFieldsO, State.tpCmdO, State.tpDataO, h]

/-- The outputs while a byte is offered (R321 step 2). -/
theorem State.tpFieldsO_of_data {s : State} {r : Rect} {i : Nat} (h : s.ren.tp = .data r i) (hi : i < r.bytes.length) :
    s.tpFieldsO = { s.tpQuietFields with data := r.bytes[i], dataLast := i + 1 == r.bytes.length } := by
  simp [State.tpFieldsO, State.tpCmdO, State.tpDataO, h, hi]

end Sys2Proof.Machine
end

