-- ==== Sys2Proof/Laws/Memory.lean ====
section
/-! SUPPORT. The laws of the byte memories: read after write, canonical form kept, bounds kept. -/

namespace Sys2Proof.Machine

open Sys2Proof

theorem Memory.read_eq_default_of_not_mem (d : Option Byte) (m : Memory) (a : Nat) (h : ∀ x ∈ m, x.1 ≠ a) :
    Memory.read d m a = d := by
  induction m with
  | nil => rfl
  | cons x rest ih =>
    simp only [List.mem_cons, forall_eq_or_imp] at h
    simp only [Memory.read, if_neg (Ne.symm h.1)]
    exact ih h.2

/-- A write leaves every other index alone, in any list. -/
theorem Memory.read_write_ne (d : Option Byte) (m : Memory) (a b : Nat) (v : Byte) (h : b ≠ a) :
    Memory.read d (Memory.write d m a v) b = Memory.read d m b := by
  induction m with
  | nil => simp only [Memory.write]; split <;> simp [Memory.read, h]
  | cons x rest ih =>
    obtain ⟨k, u⟩ := x
    simp only [Memory.write]
    split
    · split <;> simp [Memory.read, h]
    · split
      · next hak => subst hak; split <;> simp [Memory.read, h]
      · simp [Memory.read, ih]

/-- The byte written is read back, in a memory of canonical form. -/
theorem Memory.read_write_eq (d : Option Byte) (m : Memory) (a : Nat) (v : Byte) (h : Memory.wf d m) :
    Memory.read d (Memory.write d m a v) a = some v := by
  obtain ⟨hs, hd⟩ := h
  induction m with
  | nil => simp only [Memory.write]; split <;> simp_all [Memory.read]
  | cons x rest ih =>
    obtain ⟨k, u⟩ := x
    rw [List.pairwise_cons] at hs
    simp only [Memory.write]
    split
    · next hak =>
      split
      · next hv =>
        rw [hv, Memory.read_eq_default_of_not_mem]
        rintro ⟨k', u'⟩ hx
        rcases List.mem_cons.1 hx with hx | hx
        · cases hx; exact (Nat.ne_of_lt hak).symm
        · have := hs.1 _ hx; simp only at this; simp only; omega
      · simp [Memory.read]
    · split
      · next _ hak =>
        split
        · next hv =>
          rw [hv, Memory.read_eq_default_of_not_mem]
          rintro ⟨k', u'⟩ hx
          have := hs.1 _ hx; simp only at this; simp only; omega
        · simp [Memory.read]
      · next _ hak =>
        simp only [Memory.read, if_neg hak]
        exact ih hs.2 (fun x hx => hd x (List.mem_cons_of_mem _ hx))

theorem Memory.mem_write {d : Option Byte} {m : Memory} {a : Nat} {v : Byte} {x : Host.Cell}
    (hx : x ∈ Memory.write d m a v) : x ∈ m ∨ (x = (a, v) ∧ some v ≠ d) := by
  induction m with
  | nil => simp only [Memory.write] at hx; split at hx <;> simp_all
  | cons y rest ih =>
    obtain ⟨k, u⟩ := y
    simp only [Memory.write] at hx
    split at hx
    · split at hx <;> simp_all
      tauto
    · split at hx
      · split at hx <;> simp_all
        tauto
      · simp only [List.mem_cons] at hx ⊢
        rcases hx with hx | hx
        · exact .inl (.inl hx)
        · exact (ih hx).imp_left .inr

/-- Every write keeps the canonical form. -/
theorem Memory.write_wf (d : Option Byte) (m : Memory) (a : Nat) (v : Byte) (h : Memory.wf d m) :
    Memory.wf d (Memory.write d m a v) := by
  obtain ⟨hs, hd⟩ := h
  refine ⟨?_, fun x hx => ?_⟩
  · induction m with
    | nil => simp only [Memory.write]; split <;> simp
    | cons y rest ih =>
      obtain ⟨k, u⟩ := y
      have hs' := hs
      rw [List.pairwise_cons] at hs
      simp only [Memory.write]
      split
      · next hak =>
        split
        · exact hs'
        · refine List.pairwise_cons.2 ⟨fun z hz => ?_, hs'⟩
          rcases List.mem_cons.1 hz with hz | hz
          · subst hz; exact hak
          · exact Nat.lt_trans hak (hs.1 z hz)
      · split
        · next _ hak =>
          split
          · exact hs.2
          · exact List.pairwise_cons.2 ⟨fun z hz => by have := hs.1 z hz; simp only at this ⊢; omega, hs.2⟩
        · next h1 h2 =>
          refine List.pairwise_cons.2 ⟨fun z hz => ?_, ih hs.2 (fun x hx => hd x (List.mem_cons_of_mem _ hx))⟩
          rcases Memory.mem_write hz with hz | ⟨hz, -⟩
          · exact hs.1 z hz
          · subst hz; simp only; omega
  · rcases Memory.mem_write hx with hx | ⟨rfl, hv⟩
    · exact hd x hx
    · exact hv

/-- A write inside the space keeps every entry inside it. -/
theorem Memory.write_within {n : Nat} (d : Option Byte) {m : Memory} {a : Nat} (v : Byte) (h : Memory.within n m)
    (ha : a < n) : Memory.within n (Memory.write d m a v) := by
  intro x hx
  rcases Memory.mem_write hx with hx | ⟨rfl, -⟩
  · exact h x hx
  · exact ha

theorem Memory.nil_wf (d : Option Byte) : Memory.wf d [] := ⟨List.Pairwise.nil, by simp⟩

theorem Memory.nil_within (n : Nat) : Memory.within n [] := by simp

theorem Memory.ofBytes_wf (n : Nat) (f : Nat → Byte) : Memory.wf none (Memory.ofBytes n f) := by
  refine ⟨?_, by simp⟩
  simp only [Memory.ofBytes, List.pairwise_map]
  exact List.pairwise_lt_range

theorem Memory.ofBytes_within (n : Nat) (f : Nat → Byte) : Memory.within n (Memory.ofBytes n f) := by
  simp only [Memory.within, Memory.ofBytes, List.mem_map, List.mem_range]
  rintro x ⟨i, hi, rfl⟩
  exact hi

theorem Memory.read_map (f : Nat → Byte) (l : List Nat) (i : Nat) (hi : i ∈ l) :
    Memory.read none (l.map (fun j => (j, f j))) i = some (f i) := by
  induction l with
  | nil => simp at hi
  | cons j rest ih =>
    simp only [List.map_cons, Memory.read]
    split
    · next h => rw [h]
    · next h =>
      rcases List.mem_cons.1 hi with hi | hi
      · exact absurd hi h
      · exact ih hi

/-- A copied memory holds the byte copied, at every index copied. -/
theorem Memory.read_ofBytes {n : Nat} (f : Nat → Byte) {i : Nat} (hi : i < n) :
    Memory.read none (Memory.ofBytes n f) i = some (f i) :=
  Memory.read_map f _ i (List.mem_range.2 hi)

/-! ## The spaces -/

@[simp] theorem Space.unlisted_sb : Space.sb.unlisted = some 0x00 := rfl
@[simp] theorem Space.unlisted_pb : Space.pb.unlisted = none := rfl
@[simp] theorem Space.unlisted_arena : Space.arena.unlisted = none := rfl

/-- What `SB[i] <- v` does: it stores inside the space, and nothing else changes. -/
theorem State.writeSb_next {s t : State} {i : Nat} {v : Byte} (h : s.writeSb i v = .next t) :
    i < s.cfg.cap ∧ t = { s with dec := { s.dec with sb := Memory.write Space.sb.unlisted s.dec.sb i v } } := by
  unfold State.writeSb at h
  split at h
  · exact ⟨‹_›, by cases h; rfl⟩
  · cases h

/-- What `ARENA[b][i] <- v` does. -/
theorem State.writeArena_next {s t : State} {b i : Nat} {v : Byte} (h : s.writeArena b i v = .next t) :
    (b < s.cfg.nbuf ∧ i < s.cfg.cap) ∧
      t = { s with arena := Memory.write Space.arena.unlisted s.arena (arenaIndex s.cfg b i) v } := by
  unfold State.writeArena at h
  split at h
  · exact ⟨‹_›, by cases h; rfl⟩
  · cases h

theorem State.readSb_write_ne {s : State} {i j : Nat} {v : Byte} (h : j ≠ i) :
    State.readSb { s with dec := { s.dec with sb := Memory.write Space.sb.unlisted s.dec.sb i v } } j = s.readSb j := by
  simp only [State.readSb, Memory.read_write_ne _ _ _ _ _ h]

theorem State.readSb_write_eq {s : State} {i : Nat} {v : Byte} (h : Memory.wf Space.sb.unlisted s.dec.sb) :
    State.readSb { s with dec := { s.dec with sb := Memory.write Space.sb.unlisted s.dec.sb i v } } i = v := by
  simp only [State.readSb, Memory.read_write_eq _ _ _ _ h, Option.getD_some]

/-- Distinct (buffer, byte) pairs have distinct indices. -/
theorem arenaIndex_inj {c : Config} {b i b' i' : Nat} (hi : i < c.cap) (hi' : i' < c.cap)
    (h : arenaIndex c b i = arenaIndex c b' i') : b = b' ∧ i = i' := by
  unfold arenaIndex at h
  have hc : 0 < c.cap := by omega
  have h1 : (b * c.cap + i) / c.cap = b := by
    rw [Nat.mul_comm, Nat.mul_add_div hc, Nat.div_eq_of_lt hi, Nat.add_zero]
  have h2 : (b' * c.cap + i') / c.cap = b' := by
    rw [Nat.mul_comm, Nat.mul_add_div hc, Nat.div_eq_of_lt hi', Nat.add_zero]
  have hb : b = b' := by rw [← h1, ← h2, h]
  subst hb
  exact ⟨rfl, by omega⟩

theorem arenaIndex_lt {c : Config} {b i : Nat} (hb : b < c.nbuf) (hi : i < c.cap) :
    arenaIndex c b i < c.nbuf * c.cap := by
  unfold arenaIndex
  have : (b + 1) * c.cap ≤ c.nbuf * c.cap := Nat.mul_le_mul_right _ hb
  rw [Nat.add_mul] at this
  omega

end Sys2Proof.Machine
end

