-- ==== Sys2Proof/Laws/Params.lean ====
section
/-! SUPPORT. What a legal parameter set gives (00_scope.md R11, R12; 30_encoding.md R153). -/

namespace Sys2Proof

/-- The checks of R11 and R12, one by one. -/
theorem Config.legal_parts {c : Config} (h : c.Legal) :
    (1 ≤ c.w ∧ 8 ≤ c.h ∧ c.h % 8 = 0 ∧ 1 ≤ c.sx ∧ 1 ≤ c.sy) ∧
    (c.xOff + c.w * c.sx ≤ c.dw ∧ c.yOff + c.h * c.sy ≤ c.dh ∧ c.dw ≤ 65535 ∧ c.dh ≤ 65535 ∧ c.w * c.sx ≤ 65535) ∧
    c.bpp ∈ [1, 2, 4, 8, 16, 24] ∧
    (1 ≤ c.depth ∧ (c.policy = .bounded ∨ c.depth = 1) ∧ c.pubTimeout < 2 ^ 32 ∧ 2 ≤ c.syncStages) ∧
    c.map.legal = true := by
  obtain ⟨w, h, sx, sy, xOff, yOff, dw, dh, bpp, pk, policy, depth, pubTimeout, dy, map, st⟩ := c
  simp only [Config.Legal, Config.legal, List.all_cons, List.all_nil, id, Bool.and_true, Bool.and_eq_true, decide_eq_true_eq,
    beq_iff_eq, Bool.or_eq_true, List.contains_iff_mem] at h
  obtain ⟨h1, h2, h3, h4, h5, h6, h7, h8, h9, h10, h11, h12, h13, h14, h15, h16⟩ := h
  exact ⟨⟨h1, h2, h3, h4, h5⟩, ⟨h6, h7, h8, h9, h10⟩, h11, ⟨h12, h13, h14, h15⟩, h16⟩

theorem disjointCodes_spec {s t : List Byte} (h : disjointCodes s t = true) : ∀ b ∈ s, b ∉ t := by
  intro b hb hbt
  have := List.all_eq_true.1 h b hb
  simp [hbt] at this

theorem disjointSets_spec {l : List (List Byte)} (h : disjointSets l = true) :
    l.Pairwise (fun s t => ∀ b ∈ s, b ∉ t) := by
  induction l with
  | nil => exact .nil
  | cons s rest ih =>
    simp only [disjointSets, Bool.and_eq_true, List.all_eq_true] at h
    exact List.pairwise_cons.2 ⟨fun t ht => disjointCodes_spec (h.1 t ht), ih h.2⟩

/-- The eleven code sets, in the document's order. -/
theorem CmdMap.map_codes (m : CmdMap) :
    OneArg.all.map m.codes =
      [m.contrast, m.muxRatio, m.displayOffset, m.chargePump, m.addrMode, m.segRemap, m.comPins, m.precharge, m.vcom,
        m.clockDiv, m.startLine] := rfl

/-- The legality of a map, over the eleven sets in one list. -/
theorem CmdMap.legal_sets {m : CmdMap} (h : m.legal = true) :
    m.cmdOff ≠ m.cmdOn ∧
    (∀ s ∈ OneArg.all.map m.codes, s ≠ [] ∧ m.cmdOff ∉ s ∧ m.cmdOn ∉ s) ∧
    (OneArg.all.map m.codes).Pairwise (fun s t => ∀ b ∈ s, b ∉ t) := by
  rw [CmdMap.map_codes]
  obtain ⟨off, on, s1, s2, s3, s4, s5, s6, s7, s8, s9, s10, s11⟩ := m
  simp only [CmdMap.legal, Bool.and_eq_true] at h
  obtain ⟨⟨h1, h2⟩, h3⟩ := h
  refine ⟨by simpa using h1, fun s hs => ?_, disjointSets_spec h3⟩
  have := List.all_eq_true.1 h2 s hs
  simpa [and_assoc] using this

theorem OneArg.mem_all (k : OneArg) : k ∈ OneArg.all := by cases k <;> decide

theorem CmdMap.codes_ne_nil {m : CmdMap} (h : m.legal = true) (k : OneArg) : m.codes k ≠ [] :=
  ((CmdMap.legal_sets h).2.1 _ (List.mem_map_of_mem (OneArg.mem_all k))).1

/-- R12: `CMD_OFF` and `CMD_ON` are in no code set. -/
theorem CmdMap.off_on_not_code {m : CmdMap} (h : m.legal = true) (k : OneArg) :
    m.cmdOff ∉ m.codes k ∧ m.cmdOn ∉ m.codes k :=
  ((CmdMap.legal_sets h).2.1 _ (List.mem_map_of_mem (OneArg.mem_all k))).2

/-- R153: a byte is a code of at most one command. -/
theorem CmdMap.codes_disjoint {m : CmdMap} (h : m.legal = true) {k k' : OneArg} {b : Byte} (hk : b ∈ m.codes k)
    (hk' : b ∈ m.codes k') : k = k' := by
  have hp := (CmdMap.legal_sets h).2.2
  rw [List.pairwise_map] at hp
  have hs : OneArg.all.Pairwise (fun a c => ∀ b ∈ m.codes a, b ∉ m.codes c) := hp
  by_contra hne
  have key : ∀ l : List OneArg, l.Pairwise (fun a c => ∀ b ∈ m.codes a, b ∉ m.codes c) → k ∈ l → k' ∈ l → False := by
    intro l hl
    induction hl with
    | nil => simp
    | cons hx _ ih =>
      intro h1 h2
      rcases List.mem_cons.1 h1 with e1 | e1 <;> rcases List.mem_cons.1 h2 with e2 | e2
      · exact hne (e1.trans e2.symm)
      · exact hx _ e2 b (e1 ▸ hk) hk'
      · exact hx _ e1 b (e2 ▸ hk') hk
      · exact ih e1 e2
  exact key _ hs (OneArg.mem_all k) (OneArg.mem_all k')

theorem Config.height_eq {c : Config} (h : c.Legal) : ∃ p, 1 ≤ p ∧ c.h = 8 * p := by
  obtain ⟨⟨_, h2, h3, _, _⟩, _⟩ := Config.legal_parts h
  exact ⟨c.h / 8, by omega, by omega⟩

/-- `CAP = W * (H/8)`: one byte per column and page. -/
theorem Config.cap_eq {c : Config} (h : c.Legal) : c.cap = c.h / 8 * c.w := by
  obtain ⟨p, _, hp⟩ := Config.height_eq h
  unfold Config.cap
  rw [hp, Nat.mul_left_comm, Nat.mul_div_cancel_left _ (by omega), Nat.mul_div_cancel_left _ (by omega), Nat.mul_comm]

theorem Config.cap_pos {c : Config} (h : c.Legal) : 0 < c.cap := by
  obtain ⟨⟨h1, h2, _⟩, _⟩ := Config.legal_parts h
  rw [Config.cap_eq h]
  exact Nat.mul_pos (by omega) (by omega)

/-- A pixel of the bitmap lies in one of its bytes (R100). -/
theorem Config.pixelByte_lt {c : Config} (h : c.Legal) {x y : Nat} (hx : x < c.w) (hy : y < c.h) :
    y / 8 * c.w + x < c.cap := by
  obtain ⟨p, _, hp⟩ := Config.height_eq h
  rw [Config.cap_eq h]
  have h1 : y / 8 + 1 ≤ c.h / 8 := by omega
  have := Nat.mul_le_mul_right c.w h1
  rw [Nat.add_mul] at this
  omega

theorem Config.bpp_pos {c : Config} (h : c.Legal) : 1 ≤ c.bpp := by
  obtain ⟨_, _, h3, _⟩ := Config.legal_parts h
  simp only [List.mem_cons, List.not_mem_nil, or_false] at h3
  omega

theorem Config.wd_pos {c : Config} (h : c.Legal) : 1 ≤ c.wd := by
  obtain ⟨⟨h1, _, _, h4, _⟩, _⟩ := Config.legal_parts h
  exact Nat.mul_pos h1 h4

end Sys2Proof
end

