-- ==== Sys2Proof/Laws/Decoder.lean ====
section
/-! SUPPORT. What the byte reader and the sixteen meanings do (40_decoder.md). -/

namespace Sys2Proof

theorem CmdMap.hasCode_iff (m : CmdMap) (k : OneArg) (b : Byte) : m.hasCode k b = true ↔ b ∈ m.codes k := by
  simp [CmdMap.hasCode]

theorem CmdMap.isOneArg_iff (m : CmdMap) (b : Byte) : m.isOneArg b = true ↔ ∃ k, b ∈ m.codes k := by
  simp only [CmdMap.isOneArg, List.any_eq_true, CmdMap.hasCode_iff]
  exact ⟨fun ⟨k, _, h⟩ => ⟨k, h⟩, fun ⟨k, h⟩ => ⟨k, OneArg.mem_all k, h⟩⟩

/-- What the search for a code set finds is a set that holds the byte. -/
theorem CmdMap.mem_of_oneArgOf? {m : CmdMap} {b : Byte} {k : OneArg} (h : m.oneArgOf? b = some k) : b ∈ m.codes k :=
  (m.hasCode_iff k b).1 (List.find?_some (p := fun k => m.hasCode k b) h)

theorem CmdMap.oneArgOf?_none {m : CmdMap} {b : Byte} : m.oneArgOf? b = none ↔ ∀ k, b ∉ m.codes k := by
  simp only [CmdMap.oneArgOf?, List.find?_eq_none, CmdMap.hasCode_iff]
  exact ⟨fun h k => h k (OneArg.mem_all k), fun h k _ => h k⟩

/-- Because the sets are disjoint (R153), the search finds the one that holds the byte, whatever the order (R154). -/
theorem CmdMap.oneArgOf?_eq {m : CmdMap} (hm : m.legal = true) {b : Byte} {k : OneArg} (h : b ∈ m.codes k) :
    m.oneArgOf? b = some k := by
  cases hf : m.oneArgOf? b with
  | none => exact absurd h (CmdMap.oneArgOf?_none.1 hf k)
  | some k' => rw [CmdMap.codes_disjoint hm (CmdMap.mem_of_oneArgOf? hf) h]

/-- A code byte of command `k` is read as `SET_<k>` in IDLE (R154). -/
theorem classify_code {m : CmdMap} (hm : m.legal = true) {b : Byte} {k : OneArg} (h : b ∈ m.codes k) :
    classify m b = k.instr b := by
  obtain ⟨h1, h2⟩ := CmdMap.off_on_not_code hm k
  have n1 : b ≠ m.cmdOff := fun e => h1 (e ▸ h)
  have n2 : b ≠ m.cmdOn := fun e => h2 (e ▸ h)
  simp only [classify, if_neg n1, if_neg n2, CmdMap.oneArgOf?_eq hm h]

/-- The readings of a byte in IDLE (R154). -/
theorem classify_cases (m : CmdMap) (b : Byte) :
    (b = m.cmdOff ∧ classify m b = .displayOff) ∨ (b = m.cmdOn ∧ classify m b = .displayOn) ∨
    (∃ k, b ∈ m.codes k ∧ classify m b = k.instr b) ∨
    (b ≠ m.cmdOff ∧ b ≠ m.cmdOn ∧ (∀ k, b ∉ m.codes k) ∧ classify m b = .ignored b) := by
  unfold classify
  split
  · exact .inl ⟨‹_›, rfl⟩
  · split
    · exact .inr (.inl ⟨‹_›, rfl⟩)
    · split
      · next k hk => exact .inr (.inr (.inl ⟨k, CmdMap.mem_of_oneArgOf? hk, rfl⟩))
      · next hk => exact .inr (.inr (.inr ⟨‹_›, ‹_›, CmdMap.oneArgOf?_none.1 hk, rfl⟩))

@[simp] theorem OneArg.instr_readIn (k : OneArg) (b : Byte) : (k.instr b).readIn = .idle := by cases k <;> rfl

/-- The instruction a byte is read as belongs to the decoder state it is read in (R150). -/
@[simp] theorem readByte_readIn (m : CmdMap) (st : DecState) (b : Byte) : (readByte m st b).readIn = st := by
  cases st with
  | idle =>
    simp only [readByte]
    rcases classify_cases m b with ⟨_, h⟩ | ⟨_, h⟩ | ⟨k, _, h⟩ | ⟨_, _, _, h⟩ <;> rw [h]
    · rfl
    · rfl
    · exact OneArg.instr_readIn k b
    · rfl
  | awaitArg => rfl
  | pixel => rfl

end Sys2Proof

namespace Sys2Proof.Machine

open Sys2Proof

@[simp] theorem Answer.andThen_next (s : State) (k : State → Answer) : Answer.andThen (.next s) k = k s := rfl
@[simp] theorem Answer.andThen_fault (f : Fault) (k : State → Answer) : Answer.andThen (.fault f) k = .fault f := rfl
@[simp] theorem Answer.andThen_refused (r : Refusal) (k : State → Answer) : Answer.andThen (.refused r) k = .refused r := rfl

/-- Two statements in sequence give a next state only through a next state of the first. -/
theorem Answer.andThen_eq_next {o : Answer} {k : State → Answer} {t : State} (h : o.andThen k = .next t) :
    ∃ u, o = .next u ∧ k u = .next t := by
  cases o with
  | next u => exact ⟨u, rfl, h⟩
  | fault f => cases h
  | refused r => cases h

theorem inDecState_next {st : DecState} {s t : State} {e : Answer} (h : inDecState st s e = .next t) :
    s.dec.decState = st ∧ e = .next t := by
  unfold inDecState at h
  split at h
  · exact ⟨‹_›, h⟩
  · cases h

theorem inDecState_eq {st : DecState} {s : State} {e : Answer} (h : s.dec.decState = st) : inDecState st s e = e :=
  if_pos h

theorem awaitArgument_next {c : Byte} {s t : State} (h : awaitArgument c s = .next t) :
    s.dec.decState = .idle ∧ t = { s with dec := { s.dec with pendingCmd := c, decState := .awaitArg } } := by
  obtain ⟨h1, h2⟩ := inDecState_next h
  exact ⟨h1, by cases h2; rfl⟩

theorem exec_oneArg (k : OneArg) (c : Byte) (s : State) : exec (k.instr c) s = awaitArgument c s := by cases k <;> rfl

theorem execPixelData_next {d : Byte} {s t : State} (h : execPixelData d s = .next t) :
    s.dec.decState = .pixel ∧ s.dec.cursor < s.cfg.cap ∧
      t = { s with dec := { s.dec with
        sb := Memory.write Space.sb.unlisted s.dec.sb s.dec.cursor d, cursor := cursorNext s.cfg s.dec.cursor } } := by
  obtain ⟨h1, h2⟩ := inDecState_next h
  obtain ⟨u, h3, h4⟩ := Answer.andThen_eq_next h2
  obtain ⟨h5, rfl⟩ := State.writeSb_next h3
  cases h4
  exact ⟨h1, h5, rfl⟩

theorem execPixelData_eq {d : Byte} {s : State} (h1 : s.dec.decState = .pixel) (h2 : s.dec.cursor < s.cfg.cap) :
    execPixelData d s = .next { s with dec := { s.dec with
      sb := Memory.write Space.sb.unlisted s.dec.sb s.dec.cursor d, cursor := cursorNext s.cfg s.dec.cursor } } := by
  simp [execPixelData, inDecState_eq h1, State.writeSb, h2]

/-- Everything a meaning can do when it answers a next state: it runs in its decoder state, and it takes one of the six effects
of R203 to R218. -/
theorem exec_next {i : Instr} {s t : State} (h : exec i s = .next t) :
    s.dec.decState = i.readIn ∧
    ((i = .displayOff ∧ t = { s with dec := { s.dec with power := false, decState := .idle } }) ∨
     (i = .displayOn ∧ t = { s with dec := { s.dec with power := true, cursor := 0, decState := .pixel } }) ∨
     (∃ k c, i = OneArg.instr k c ∧ t = { s with dec := { s.dec with pendingCmd := c, decState := .awaitArg } }) ∨
     (∃ b, i = .ignored b ∧ t = s.diag b) ∨
     (∃ a, i = .argument a ∧ t = { s with dec := { s.dec with decState := .idle } }) ∨
     (∃ d, i = .pixelData d ∧ s.dec.cursor < s.cfg.cap ∧
        t = { s with dec := { s.dec with
          sb := Memory.write Space.sb.unlisted s.dec.sb s.dec.cursor d, cursor := cursorNext s.cfg s.dec.cursor } })) := by
  cases i with
  | displayOff => obtain ⟨h1, h2⟩ := inDecState_next h; cases h2; exact ⟨h1, .inl ⟨rfl, rfl⟩⟩
  | displayOn => obtain ⟨h1, h2⟩ := inDecState_next h; cases h2; exact ⟨h1, .inr (.inl ⟨rfl, rfl⟩)⟩
  | setContrast c => obtain ⟨h1, h2⟩ := awaitArgument_next h; exact ⟨h1, .inr (.inr (.inl ⟨.contrast, c, rfl, h2⟩))⟩
  | setMuxRatio c => obtain ⟨h1, h2⟩ := awaitArgument_next h; exact ⟨h1, .inr (.inr (.inl ⟨.muxRatio, c, rfl, h2⟩))⟩
  | setDisplayOffset c =>
    obtain ⟨h1, h2⟩ := awaitArgument_next h; exact ⟨h1, .inr (.inr (.inl ⟨.displayOffset, c, rfl, h2⟩))⟩
  | setChargePump c => obtain ⟨h1, h2⟩ := awaitArgument_next h; exact ⟨h1, .inr (.inr (.inl ⟨.chargePump, c, rfl, h2⟩))⟩
  | setAddrMode c => obtain ⟨h1, h2⟩ := awaitArgument_next h; exact ⟨h1, .inr (.inr (.inl ⟨.addrMode, c, rfl, h2⟩))⟩
  | setSegRemap c => obtain ⟨h1, h2⟩ := awaitArgument_next h; exact ⟨h1, .inr (.inr (.inl ⟨.segRemap, c, rfl, h2⟩))⟩
  | setComPins c => obtain ⟨h1, h2⟩ := awaitArgument_next h; exact ⟨h1, .inr (.inr (.inl ⟨.comPins, c, rfl, h2⟩))⟩
  | setPrecharge c => obtain ⟨h1, h2⟩ := awaitArgument_next h; exact ⟨h1, .inr (.inr (.inl ⟨.precharge, c, rfl, h2⟩))⟩
  | setVcom c => obtain ⟨h1, h2⟩ := awaitArgument_next h; exact ⟨h1, .inr (.inr (.inl ⟨.vcom, c, rfl, h2⟩))⟩
  | setClockDiv c => obtain ⟨h1, h2⟩ := awaitArgument_next h; exact ⟨h1, .inr (.inr (.inl ⟨.clockDiv, c, rfl, h2⟩))⟩
  | setStartLine c => obtain ⟨h1, h2⟩ := awaitArgument_next h; exact ⟨h1, .inr (.inr (.inl ⟨.startLine, c, rfl, h2⟩))⟩
  | ignored b => obtain ⟨h1, h2⟩ := inDecState_next h; cases h2; exact ⟨h1, .inr (.inr (.inr (.inl ⟨b, rfl, rfl⟩)))⟩
  | argument a => obtain ⟨h1, h2⟩ := inDecState_next h; cases h2; exact ⟨h1, .inr (.inr (.inr (.inr (.inl ⟨a, rfl, rfl⟩))))⟩
  | pixelData d =>
    obtain ⟨h1, h2, h3⟩ := execPixelData_next h
    exact ⟨h1, .inr (.inr (.inr (.inr (.inr ⟨d, rfl, h2, h3⟩))))⟩

/-- Inversion of `handle_byte` (R201): the decoder's fields and the shown diagnostics are all it writes. -/
theorem handleByte_next {b : Byte} {s t : State} (h : handleByte b s = .next t) :
    t = { s with dec := t.dec, shown := t.shown } ∧ (t.shown = s.shown ∨ ∃ b, t.shown = .diag b :: s.shown) ∧
    (t.dec.sb = s.dec.sb ∨ (s.dec.cursor < s.cfg.cap ∧
      ∃ d, t.dec.sb = Memory.write Space.sb.unlisted s.dec.sb s.dec.cursor d)) ∧
    (t.dec.cursor = s.dec.cursor ∨ t.dec.cursor = 0 ∨ t.dec.cursor = cursorNext s.cfg s.dec.cursor) := by
  obtain ⟨-, ⟨-, rfl⟩ | ⟨-, rfl⟩ | ⟨k, c, -, rfl⟩ | ⟨b, -, rfl⟩ | ⟨a, -, rfl⟩ | ⟨d, -, hc, rfl⟩⟩ := exec_next h
  · exact ⟨rfl, .inl rfl, .inl rfl, .inl rfl⟩
  · exact ⟨rfl, .inl rfl, .inl rfl, .inr (.inl rfl)⟩
  · exact ⟨rfl, .inl rfl, .inl rfl, .inl rfl⟩
  · exact ⟨rfl, .inr ⟨b, rfl⟩, .inl rfl, .inl rfl⟩
  · exact ⟨rfl, .inl rfl, .inl rfl, .inl rfl⟩
  · exact ⟨rfl, .inl rfl, .inr ⟨hc, d, rfl⟩, .inr (.inr rfl)⟩

end Sys2Proof.Machine
end

