-- ==== Sys2Proof/Laws/Exchange.lean ====
section
/-! SUPPORT. What the operations of the receiver and the Frame Exchange do (41_exchange.md), and that each keeps the exchange's
invariants. -/

namespace Sys2Proof.Machine

open Sys2Proof Sys2Proof.Safety

/-! ## Sets of indices -/

theorem mem_insertIdx {b x : Nat} {l : List Nat} : x ∈ insertIdx b l ↔ x = b ∨ x ∈ l := by
  induction l with
  | nil => simp [insertIdx]
  | cons c rest ih =>
    simp only [insertIdx]
    split
    · simp
    · split
      · next h => subst h; simp
      · simp only [List.mem_cons, ih]; tauto

theorem insertIdx_perm {b : Nat} {l : List Nat} (h : b ∉ l) : (insertIdx b l).Perm (b :: l) := by
  induction l with
  | nil => exact .refl _
  | cons c rest ih =>
    simp only [List.mem_cons, not_or] at h
    simp only [insertIdx]
    split
    · exact .refl _
    · rw [if_neg h.1]
      exact ((ih h.2).cons c).trans (.swap b c rest)

theorem insertIdx_rising {b : Nat} {l : List Nat} (h : l.Pairwise (· < ·)) : (insertIdx b l).Pairwise (· < ·) := by
  induction l with
  | nil => simp [insertIdx]
  | cons c rest ih =>
    have h' := h
    rw [List.pairwise_cons] at h
    simp only [insertIdx]
    split
    · next hbc =>
      refine List.pairwise_cons.2 ⟨fun x hx => ?_, h'⟩
      rcases List.mem_cons.1 hx with rfl | hx
      · exact hbc
      · exact Nat.lt_trans hbc (h.1 x hx)
    · split
      · exact h'
      · refine List.pairwise_cons.2 ⟨fun x hx => ?_, ih h.2⟩
        rcases mem_insertIdx.1 hx with rfl | hx
        · omega
        · exact h.1 x hx

/-! ## push_fill, drop, publish, store_byte -/

/-- Everything `push_fill` can do (R258). -/
theorem pushFill_next {s t : State} (h : pushFill s = .next t) :
    ∃ b, s.ing.free.min? = some b ∧
      t = { s with ing := { s.ing with
        q := s.ing.q ++ [s.ing.fillIdx], fillIdx := b, free := s.ing.free.erase b, rxCount := 0 } } := by
  unfold pushFill at h
  split at h
  · exact ⟨_, ‹_›, by cases h; rfl⟩
  · cases h

/-- `push_fill` has a lowest free buffer to take whenever `free` is not empty. -/
theorem pushFill_completes {s : State} (h : s.ing.free ≠ []) : ∃ t, pushFill s = .next t := by
  unfold pushFill
  split
  · exact ⟨_, rfl⟩
  · next hn => exact absurd (List.min?_eq_none_iff.1 hn) h

/-- Everything `publish` can do (R259, R260). -/
theorem publish_next {s t : State} (h : publish s = .next t) :
    (s.cfg.policy = .bounded ∧ s.ing.q.length < s.cfg.depth ∧ pushFill s = .next t) ∨
    (s.cfg.policy = .bounded ∧ ¬s.ing.q.length < s.cfg.depth ∧ s.cfg.pubTimeout = 0 ∧ t = dropFrame s) ∨
    (s.cfg.policy = .bounded ∧ ¬s.ing.q.length < s.cfg.depth ∧ s.cfg.pubTimeout ≠ 0 ∧
      t = { s with ing := { s.ing with rxState := .pubWait, waitLeft := BitVec.ofNat 32 s.cfg.pubTimeout } }) ∨
    (s.cfg.policy = .dropOldest ∧ pushFill { s with ing := discardOldest s.ing } = .next t) := by
  unfold publish at h
  split at h
  · next hp =>
    split at h
    · exact .inl ⟨hp, ‹_›, h⟩
    · split at h
      · exact .inr (.inl ⟨hp, ‹_›, ‹_›, by cases h; rfl⟩)
      · exact .inr (.inr (.inl ⟨hp, ‹_›, ‹_›, by cases h; rfl⟩))
  · next hp => exact .inr (.inr (.inr ⟨hp, h⟩))

/-- Everything `end_transfer` can do (R256). -/
theorem endTransfer_next {s t : State} (h : endTransfer s = .next t) :
    (s.ing.rxCount = s.cfg.cap ∧ publish s = .next t) ∨ (s.ing.rxCount ≠ s.cfg.cap ∧ t = overrun s) := by
  unfold endTransfer at h
  split at h
  · exact .inl ⟨‹_›, h⟩
  · exact .inr ⟨‹_›, by cases h; rfl⟩

/-- Everything `store_byte` can do (R255). -/
theorem storeByte_next {v : Byte} {s t : State} (h : storeByte v s = .next t) :
    (s.ing.rxCount < s.cfg.cap ∧ s.ing.fillIdx < s.cfg.nbuf ∧
      t = { s with
        arena := Memory.write Space.arena.unlisted s.arena (arenaIndex s.cfg s.ing.fillIdx s.ing.rxCount) v
        ing := { s.ing with rxCount := min (s.ing.rxCount + 1) (s.cfg.cap + 1) } }) ∨
    (¬s.ing.rxCount < s.cfg.cap ∧ t = { s with ing := { s.ing with rxCount := min (s.ing.rxCount + 1) (s.cfg.cap + 1) } }) := by
  unfold storeByte at h
  split at h
  · next hc =>
    obtain ⟨u, h1, h2⟩ := Answer.andThen_eq_next h
    obtain ⟨⟨hb, _⟩, rfl⟩ := State.writeArena_next h1
    exact .inl ⟨hc, hb, by cases h2; rfl⟩
  · exact .inr ⟨‹_›, by cases h; rfl⟩

/-! ## The clk_i cycle -/

/-- Inversion of `ing_cycle` (R250): the states after steps B, D and E. -/
theorem ingCycle_next {bus : BusIn} {y : Sync} {s t : State} (h : ingCycle bus y s = .next t) :
    ∃ b d e, ingRetry (ingServe (ingBegin y s)) = .next b ∧ ingByte bus (ingBusEndsWait bus b) = .next d ∧
      ingEnd bus d = .next e ∧
      t = ingFinish y (ingCountdown (s.ing.rxState = .pubWait) (d.ing.rxState = .rx ∧ e.ing.rxState = .pubWait) e) := by
  obtain ⟨b, h1, h⟩ := Answer.andThen_eq_next h
  obtain ⟨d, h2, h⟩ := Answer.andThen_eq_next h
  obtain ⟨f, h3, h⟩ := Answer.andThen_eq_next h
  obtain ⟨e, h4, h5⟩ := Answer.andThen_eq_next h3
  refine ⟨b, d, e, h1, h2, h4, ?_⟩
  cases h5
  cases h
  rfl

/-- Inversion of a cycle's bus part in RX: the state between the byte and the end (R250 steps D and E). -/
theorem busInRx_next {bus : BusIn} {s t : State} (h : busInRx bus s = .next t) :
    ∃ d, (if bus.inValid then storeByte bus.inByte s else .next s) = .next d ∧
      (if bus.inEnd then endTransfer d else .next d) = .next t := Answer.andThen_eq_next h

/-! ## The ownership partition (R110) -/

theorem places_nodup {s : State} (h : OwnershipPartition s) : (places s).Nodup := h.nodup_iff.2 List.nodup_range

/-- Releasing the held buffer moves it into `free` and drops no index. -/
theorem releaseHeld_perm {g : Ingest} (h : g.heldIdx ∉ g.free) :
    ((releaseHeld g).free).Perm ((if g.heldValid then [g.heldIdx] else []) ++ g.free) := by
  unfold releaseHeld
  split
  · exact insertIdx_perm h
  · exact .refl _

@[simp] theorem releaseHeld_heldValid (g : Ingest) : (releaseHeld g).heldValid = false := by
  unfold releaseHeld
  split
  · rfl
  · next h => simpa using h

/-- What the grant does to the queue and the held buffer (R252). -/
theorem grantNext_places (g : Ingest) (h : g.heldValid = false) :
    (grantNext g).q ++ ((if (grantNext g).heldValid then [(grantNext g).heldIdx] else []) ++ (grantNext g).free) =
      match g.q with
      | [] => g.free
      | b :: rest => rest ++ (b :: g.free) := by
  unfold grantNext
  split <;> simp_all

theorem serveAcquire_partition {s : State} (h : OwnershipPartition s) :
    OwnershipPartition { s with ing := serveAcquire s.ing } := by
  have hn := places_nodup h
  refine List.Perm.trans ?_ h
  simp only [places]
  have hfree : s.ing.heldValid = true → s.ing.heldIdx ∉ s.ing.free := by
    intro hv hm
    simp only [places, hv, if_true, List.nodup_cons, List.nodup_append, List.singleton_append] at hn
    exact hn.2.2.1.1 hm
  have hrel : ((releaseHeld s.ing).free).Perm ((if s.ing.heldValid then [s.ing.heldIdx] else []) ++ s.ing.free) := by
    cases hv : s.ing.heldValid with
    | true => have := releaseHeld_perm (hfree hv); rwa [hv] at this
    | false => simp [releaseHeld, hv]
  have hg := grantNext_places (releaseHeld s.ing) (releaseHeld_heldValid _)
  simp only [serveAcquire, grantNext_fillIdx, releaseHeld_fillIdx]
  refine List.Perm.cons _ ?_
  rw [hg]
  rw [releaseHeld_q]
  split
  · next hq => rw [hq]; simpa using hrel
  · next b rest hq =>
    rw [hq]
    refine List.Perm.trans ?_ ((List.Perm.append_left (b :: rest) hrel))
    exact List.perm_middle

theorem pushFill_partition {s t : State} (h : OwnershipPartition s) (ht : pushFill s = .next t) :
    OwnershipPartition t := by
  obtain ⟨b, hb, rfl⟩ := pushFill_next ht
  have hm : b ∈ s.ing.free := List.min?_mem hb
  refine List.Perm.trans ?_ h
  simp only [places]
  have hp : s.ing.free.Perm (b :: s.ing.free.erase b) := List.perm_cons_erase hm
  refine List.Perm.trans ?_ (((List.Perm.append_left _ (List.Perm.append_left _ hp))).cons _).symm
  simp only [List.append_assoc]
  generalize (if s.ing.heldValid = true then [s.ing.heldIdx] else []) = l
  generalize s.ing.free.erase b = f
  refine List.Perm.trans (List.perm_middle (a := s.ing.fillIdx) (l₁ := b :: s.ing.q) (l₂ := l ++ f)).symm.symm ?_
  refine List.Perm.cons _ ?_
  have := (List.perm_middle (a := b) (l₁ := s.ing.q ++ l) (l₂ := f)).symm
  simpa using this

theorem discardOldest_partition {s : State} (h : OwnershipPartition s) :
    OwnershipPartition { s with ing := discardOldest s.ing } := by
  have hn := places_nodup h
  unfold discardOldest
  split
  · next b hq =>
    have hb : b ∉ s.ing.free := by
      intro hm
      simp only [places, hq, List.nodup_cons, List.singleton_append] at hn
      exact hn.2.1 (List.mem_append_right _ hm)
    refine List.Perm.trans ?_ h
    simp only [places, hq, List.nil_append, List.singleton_append]
    refine List.Perm.cons _ ?_
    exact (List.Perm.append_left _ (insertIdx_perm hb)).trans List.perm_middle
  · exact h

/-- R265: a buffer is free whenever the queue has room. -/
theorem free_ne_nil {s : State} (h : OwnershipPartition s) (hq : s.ing.q.length < s.cfg.depth) : s.ing.free ≠ [] := by
  intro hf
  have hl := h.length_eq
  simp only [places, hf, List.append_nil, List.length_cons, List.length_append, List.length_range, Config.nbuf] at hl
  split at hl <;> simp at hl <;> omega

end Sys2Proof.Machine
end

