-- ==== Sys2Proof/Laws/Render.lean ====
section
/-! SUPPORT. What the render engine's rules do (42_render.md), and the compositor's row length (43_pixel_format.md R351). -/

namespace Sys2Proof.Machine

open Sys2Proof Sys2Proof.Safety

/-! ## Synchronisers -/

@[simp] theorem syncBefore_length (y : Sync) (c : List Bool) (v : Bool) : (syncBefore y c v).length = c.length := by
  cases y <;> simp [syncBefore]

@[simp] theorem syncAfter_length (y : Sync) (c : List Bool) (v : Bool) : (syncAfter y c v).length = c.length := by
  cases y <;> simp [syncAfter]

theorem syncBefore_settled {y : Sync} {c : List Bool} {v : Bool} (h : Settled v c) : Settled v (syncBefore y c v) := by
  cases y with
  | through => exact fun x hx => (List.mem_replicate.1 hx).2
  | shift => exact h
  | hold => exact h

theorem syncAfter_settled {y : Sync} {c : List Bool} {v : Bool} (h : Settled v c) : Settled v (syncAfter y c v) := by
  cases y with
  | shift =>
    intro x hx
    rcases List.mem_cons.1 (List.mem_of_mem_take hx) with hx | hx
    · exact hx
    · exact h x hx
  | through => exact h
  | hold => exact h

theorem moving_of_settled {v w : Bool} {c : List Bool} (h : Settled w c) : Moving v c := by
  refine List.Pairwise.imp_of_mem (R := fun _ _ => True) (fun ha hb _ => ?_) (List.pairwise_of_forall (fun _ _ => trivial))
  rw [h _ ha, h _ hb]
  exact id

theorem syncBefore_moving {y : Sync} {c : List Bool} {v : Bool} (h : Moving v c) : Moving v (syncBefore y c v) := by
  cases y with
  | through => exact moving_of_settled (w := v) (fun x hx => (List.mem_replicate.1 hx).2)
  | shift => exact h
  | hold => exact h

theorem syncAfter_moving {y : Sync} {c : List Bool} {v : Bool} (h : Moving v c) : Moving v (syncAfter y c v) := by
  cases y with
  | shift =>
    refine List.Pairwise.sublist (List.take_sublist _ _) (List.pairwise_cons.2 ⟨fun _ _ _ => rfl, h⟩)
  | through => exact h
  | hold => exact h

/-- The last stage of a settled synchroniser. -/
theorem syncOut_settled {v : Bool} {c : List Bool} (h : Settled v c) (hc : 0 < c.length) : syncOut c = v := by
  have hne : c ≠ [] := List.length_pos_iff.1 hc
  rw [syncOut, List.getLastD_eq_getLast?, List.getLast?_eq_some_getLast hne, Option.getD_some]
  exact h _ (List.getLast_mem hne)

/-- Once the last stage shows the new value, every stage does. -/
theorem settled_of_moving {v : Bool} {c : List Bool} (h : Moving v c) (ho : syncOut c = v) : Settled v c := by
  intro x hx
  have hne : c ≠ [] := List.ne_nil_of_mem hx
  rw [syncOut, List.getLastD_eq_getLast?, List.getLast?_eq_some_getLast hne, Option.getD_some] at ho
  rw [← List.dropLast_concat_getLast hne] at h hx
  have h := List.pairwise_append.1 h
  rcases List.mem_append.1 hx with hx | hx
  · exact h.2.2 x hx _ (List.mem_singleton.2 rfl) ho
  · rw [List.mem_singleton.1 hx, ho]

/-! ## The rules -/

/-- CLEAR (R301). -/
theorem renClear_next {s t : State} (h : renClear s = .next t) :
    s.ren.clrPtr < s.cfg.cap ∧
      t = { s with
        dec := { s.dec with sb := Memory.write Space.sb.unlisted s.dec.sb s.ren.clrPtr 0x00 }
        ren := if s.ren.clrPtr + 1 = s.cfg.cap then enterAcquire { s.ren with clrPtr := s.ren.clrPtr + 1 }
          else { s.ren with clrPtr := s.ren.clrPtr + 1 } } := by
  obtain ⟨u, h1, h2⟩ := Answer.andThen_eq_next h
  obtain ⟨h3, rfl⟩ := State.writeSb_next h1
  exact ⟨h3, by cases h2; rfl⟩

/-- DECODE (R308). -/
theorem renDecode_next {s t : State} (h : renDecode s = .next t) :
    s.ren.curIdx < s.cfg.nbuf ∧ s.ren.decPtr < s.cfg.cap ∧ ∃ u, handleByte s.fetchByte s = .next u ∧ t = decodeNext u := by
  unfold renDecode at h
  split at h
  · next hc =>
    obtain ⟨u, h1, h2⟩ := Answer.andThen_eq_next h
    exact ⟨hc.1, hc.2, u, h1, by cases h2; rfl⟩
  · cases h

/-- EMIT with no rectangle in progress (R320). -/
theorem emitRow_next {s t : State} (h : emitRow s = .next t) :
    (s.ren.rowY = s.cfg.h ∧ t = { s with ren := { s.ren with renState := .commit } }) ∨
    (s.ren.rowY < s.cfg.h ∧ s.ren.rowDy = 0 ∧ s.skipRow s.ren.rowY = true ∧
      t = { s with ren := { s.ren with rowY := s.ren.rowY + 1 } }) ∨
    (s.ren.rowY < s.cfg.h ∧ ¬(s.ren.rowDy = 0 ∧ s.skipRow s.ren.rowY = true) ∧
      t = { s with
        ren := { s.ren with tp := .cmd (s.rowRect s.ren.rowY s.ren.rowDy) }
        shown := .rect (s.rowRect s.ren.rowY s.ren.rowDy) :: s.shown }) := by
  unfold emitRow at h
  split at h
  · exact .inl ⟨‹_›, by cases h; rfl⟩
  · split at h
    · cases h
    · have hy : s.ren.rowY < s.cfg.h := by omega
      split at h
      · next hs => exact .inr (.inl ⟨hy, hs.1, hs.2, by cases h; rfl⟩)
      · exact .inr (.inr ⟨hy, ‹_›, by cases h; rfl⟩)

/-- EMIT (R320, R321) in one cycle: no rectangle in progress; a wait; the command, a byte or the answer taken. -/
theorem renEmit_next {tp : TpIn} {s t : State} (h : renEmit tp s = .next t) :
    (s.ren.tp = .idle ∧ emitRow s = .next t) ∨
    (s.ren.tp ≠ .idle ∧ t = s) ∨
    (∃ r, s.ren.tp = .cmd r ∧ t = { s with ren := { s.ren with tp := dataFrom r 0 } }) ∨
    (∃ r i, s.ren.tp = .data r i ∧ t = { s with ren := { s.ren with tp := dataFrom r (i + 1) } }) ∨
    (s.ren.tp = .resp ∧ t = takeAnswer tp.respErr s) := by
  unfold renEmit at h
  split at h
  · exact .inl ⟨‹_›, h⟩
  · next r hr =>
    cases h
    split
    · exact .inr (.inr (.inl ⟨r, hr, rfl⟩))
    · exact .inr (.inl ⟨by rw [hr]; simp, rfl⟩)
  · next r i hr =>
    cases h
    split
    · exact .inr (.inr (.inr (.inl ⟨r, i, hr, rfl⟩)))
    · exact .inr (.inl ⟨by rw [hr]; simp, rfl⟩)
  · next hr =>
    cases h
    split
    · exact .inr (.inr (.inr (.inr ⟨hr, rfl⟩)))
    · exact .inr (.inl ⟨by rw [hr]; simp, rfl⟩)

/-- Taking the answer (R303). -/
theorem renAcquire_cases (s : State) :
    (syncOut s.ren.ackSync = s.ren.ackSeen ∧ renAcquire s = s) ∨
    (syncOut s.ren.ackSync ≠ s.ren.ackSeen ∧ s.ing.ackOk = true ∧
      renAcquire s = { s with
        ren := { s.ren with
          ackSeen := syncOut s.ren.ackSync, curIdx := s.ing.ackIdx, decPtr := 0, renState := .decode }
        shown := .passStart :: s.shown }) ∨
    (syncOut s.ren.ackSync ≠ s.ren.ackSeen ∧ s.ing.ackOk = false ∧
      renAcquire s = { s with ren := { s.ren with ackSeen := syncOut s.ren.ackSync, reqTgl := !s.ren.reqTgl } }) := by
  unfold renAcquire
  by_cases h1 : syncOut s.ren.ackSync = s.ren.ackSeen
  · exact .inl ⟨h1, by simp [h1]⟩
  · cases h2 : s.ing.ackOk with
    | true => exact .inr (.inl ⟨h1, rfl, by simp [h1]⟩)
    | false => exact .inr (.inr ⟨h1, rfl, by simp [h1, request]⟩)

/-- An error answer goes to ABORT; an OK answer goes to the next repeat or the next row (R320). -/
theorem takeAnswer_ren (err : Bool) (s : State) :
    (takeAnswer err s).ren =
      if err then { s.ren with tp := .idle, renState := .abort } else nextRepeat s.cfg { s.ren with tp := .idle } := by
  cases err <;> rfl

theorem dataFrom_eq_data {r r' : Rect} {i j : Nat} (h : dataFrom r i = .data r' j) : r' = r ∧ j = i ∧ i < r.bytes.length := by
  unfold dataFrom at h
  split at h
  · cases h; exact ⟨rfl, rfl, ‹_›⟩
  · cases h

theorem dataFrom_ne (r : Rect) (i : Nat) : dataFrom r i ≠ .idle ∧ ∀ r', dataFrom r i ≠ .cmd r' := by
  unfold dataFrom
  split <;> simp

/-- Inversion of REN's clk_r cycle. -/
theorem renCycle_next {tp : TpIn} {y : Sync} {s t : State} (h : renCycle tp y s = .next t) :
    ¬(tp.respValid = true ∧ s.ren.tp ≠ .resp) ∧ ∃ u, renRule tp (renBegin y s) = .next u ∧ t = renFinish y u := by
  unfold renCycle at h
  split at h
  · cases h
  · next hb =>
    obtain ⟨u, h1, h2⟩ := Answer.andThen_eq_next h
    exact ⟨hb, u, h1, by cases h2; rfl⟩

/-! ## What the row functions read -/

theorem State.readSb_congr {s t : State} (h : t.dec.sb = s.dec.sb) : t.readSb = s.readSb := by
  funext i
  simp [State.readSb, h]

theorem State.readPb_congr {s t : State} (h : t.ren.pb = s.ren.pb) (he : t.epoch = s.epoch) : t.readPb = s.readPb := by
  funext i
  simp [State.readPb, h, he]

/-- A rectangle depends on the parameters and SB alone (R309 to R314). -/
theorem State.rowRect_congr {s t : State} (hc : t.cfg = s.cfg) (h : t.dec.sb = s.dec.sb) : t.rowRect = s.rowRect := by
  funext y dy
  simp [State.rowRect, State.scaledRow, State.readSb_congr h, hc]

/-- The skip test depends on the parameters, SB, PB and `prev_valid` alone (R310, R312). -/
theorem State.skipRow_congr {s t : State} (hc : t.cfg = s.cfg) (h : t.dec.sb = s.dec.sb) (hp : t.ren.pb = s.ren.pb)
    (hv : t.ren.prevValid = s.ren.prevValid) (he : t.epoch = s.epoch) : t.skipRow = s.skipRow := by
  funext y
  simp [State.skipRow, State.rowEq, State.rowOf, State.readSb_congr h, State.readPb_congr hp he, hc, hv]

/-! ## Row length -/

theorem wideBytes_length (c : Config) (p : Bool) : (wideBytes c p).length = c.bpp / 8 := List.length_replicate

/-- R351: a row of `n` pixels takes `NB` bytes, in every format. -/
theorem encodeRow_length {c : Config} (hc : c.Legal) (px : List Bool) : (encodeRow c px).length = c.rowBytes px.length := by
  unfold encodeRow
  split
  · next h8 =>
    have hl : (px.flatMap (wideBytes c)).length = px.length * (c.bpp / 8) := by
      induction px with
      | nil => simp
      | cons p rest ih => rw [List.flatMap_cons, List.length_append, ih, wideBytes_length, List.length_cons]; ring
    rw [hl, Config.rowBytes]
    obtain ⟨_, _, h3, _⟩ := Config.legal_parts hc
    simp only [List.mem_cons, List.not_mem_nil, or_false] at h3
    rcases h3 with h | h | h | h | h | h <;> rw [h] at h8 ⊢ <;> omega
  · simp

theorem State.scaledRow_length (s : State) (y : Nat) : (s.scaledRow y).length = s.cfg.wd := by simp [State.scaledRow]

/-- R322: every rectangle carries at least one pixel byte. -/
theorem State.rowRect_bytes_pos {s : State} (hc : s.cfg.Legal) (y dy : Nat) : 0 < (s.rowRect y dy).bytes.length := by
  simp only [State.rowRect, encodeRow_length hc, State.scaledRow_length, Config.rowBytes]
  have h1 := Config.wd_pos hc
  have h2 := Config.bpp_pos hc
  have := Nat.mul_le_mul h1 h2
  omega

end Sys2Proof.Machine
end

