-- ==== Sys2Proof/Laws/Step.lean ====
section
/-! SUPPORT. What a step does: its inversion into the three kinds of choice, and what each kind leaves alone. -/

namespace Sys2Proof.Machine

open Sys2Proof Sys2Proof.Safety

/-- A step that answers a next state: the parameter set is legal, and the next choice ran. -/
theorem step_next {s t : State} (h : step s = .next t) : s.cfg.Legal ∧ runTick s.nextTick s.popTick = .next t := by
  unfold step stepOnce at h
  split at h
  · exact ⟨‹_›, h⟩
  · cases h

theorem step_eq {s : State} (h : s.cfg.Legal) : step s = runTick s.nextTick s.popTick := if_pos h

/-- The choice of a step: a cycle of one clock, or a reset. -/
theorem runTick_next {k : Tick} {s t : State} (h : runTick k s = .next t) :
    (∃ bus y, k = .clkI bus y ∧ ingCycle bus y s = .next t) ∨ (∃ tp y, k = .clkR tp y ∧ renCycle tp y s = .next t) ∨
    (k = .reset ∧ t = s.applyReset) := by
  cases k with
  | clkI bus y => exact .inl ⟨bus, y, rfl, h⟩
  | clkR tp y => exact .inr (.inl ⟨tp, y, rfl, h⟩)
  | reset => exact .inr (.inr ⟨rfl, by cases h; rfl⟩)

@[simp] theorem State.nextTick_cons {s : State} {k : Tick} {rest : List Tick} (h : s.inputs = k :: rest) : s.nextTick = k := by
  simp [State.nextTick, h]

theorem State.popTick_cons {s : State} {k : Tick} {rest : List Tick} (h : s.inputs = k :: rest) :
    s.popTick = { s with inputs := rest } := by simp [State.popTick, h]

/-! ## What ING's cycle leaves alone: the render domain but for nothing, and the parameters -/

/-- What the steps of ING leave alone: the parameters, the clk_r domain, the choices to come and what was shown. -/
abbrev IngKeeps (s t : State) : Prop :=
  t.cfg = s.cfg ∧ t.dec = s.dec ∧ t.ren = s.ren ∧ t.inputs = s.inputs ∧ t.ticks = s.ticks ∧ t.epoch = s.epoch ∧
    t.shown = s.shown

theorem IngKeeps.refl (s : State) : IngKeeps s s := ⟨rfl, rfl, rfl, rfl, rfl, rfl, rfl⟩

theorem IngKeeps.trans {s t u : State} (h : IngKeeps s t) (h' : IngKeeps t u) : IngKeeps s u :=
  ⟨h'.1.trans h.1, h'.2.1.trans h.2.1, h'.2.2.1.trans h.2.2.1, h'.2.2.2.1.trans h.2.2.2.1, h'.2.2.2.2.1.trans h.2.2.2.2.1,
    h'.2.2.2.2.2.1.trans h.2.2.2.2.2.1, h'.2.2.2.2.2.2.trans h.2.2.2.2.2.2⟩

theorem pushFill_keeps {s t : State} (h : pushFill s = .next t) : IngKeeps s t := by
  obtain ⟨b, -, rfl⟩ := pushFill_next h
  exact IngKeeps.refl s

theorem ingServe_keeps (s : State) : IngKeeps s (ingServe s) := by
  simp only [ingServe]
  split <;> exact IngKeeps.refl s

theorem ingRetry_keeps {s t : State} (h : ingRetry s = .next t) : IngKeeps s t := by
  unfold ingRetry at h
  split at h
  · obtain ⟨u, h1, h2⟩ := Answer.andThen_eq_next h
    cases h2
    exact (pushFill_keeps h1).trans (IngKeeps.refl u)
  · cases h; exact IngKeeps.refl s

theorem ingBusEndsWait_keeps (bus : BusIn) (s : State) : IngKeeps s (ingBusEndsWait bus s) := by
  simp only [ingBusEndsWait]
  split <;> exact IngKeeps.refl s

theorem ingByte_keeps {bus : BusIn} {s t : State} (h : ingByte bus s = .next t) : IngKeeps s t := by
  unfold ingByte at h
  split at h
  · rcases storeByte_next h with ⟨-, -, rfl⟩ | ⟨-, rfl⟩ <;> exact IngKeeps.refl s
  · cases h; exact IngKeeps.refl s

theorem publish_keeps {s t : State} (h : publish s = .next t) : IngKeeps s t := by
  rcases publish_next h with ⟨-, -, h⟩ | ⟨-, -, -, rfl⟩ | ⟨-, -, -, rfl⟩ | ⟨-, h⟩
  · exact pushFill_keeps h
  · exact IngKeeps.refl s
  · exact IngKeeps.refl s
  · exact (show IngKeeps s { s with ing := discardOldest s.ing } from IngKeeps.refl s).trans (pushFill_keeps h)

theorem ingEnd_keeps {bus : BusIn} {s t : State} (h : ingEnd bus s = .next t) : IngKeeps s t := by
  unfold ingEnd at h
  split at h
  · rcases endTransfer_next h with ⟨-, h⟩ | ⟨-, rfl⟩
    · exact publish_keeps h
    · exact IngKeeps.refl s
  · cases h; exact IngKeeps.refl s

theorem ingCountdown_keeps (w e : Bool) (s : State) : IngKeeps s (ingCountdown w e s) := by
  simp only [ingCountdown]
  split
  · split <;> exact IngKeeps.refl s
  · exact IngKeeps.refl s

/-- ING's cycle leaves the clk_r domain, the parameters and what was shown alone (R415). -/
theorem ingCycle_keeps {bus : BusIn} {y : Sync} {s t : State} (h : ingCycle bus y s = .next t) : IngKeeps s t := by
  obtain ⟨b, d, e, h1, h2, h3, rfl⟩ := ingCycle_next h
  exact (show IngKeeps s (ingBegin y s) from IngKeeps.refl s).trans <| (ingServe_keeps _).trans <|
    (ingRetry_keeps h1).trans <| (ingBusEndsWait_keeps bus b).trans <| (ingByte_keeps h2).trans <| (ingEnd_keeps h3).trans <|
    (ingCountdown_keeps _ _ e).trans (IngKeeps.refl _)

/-! ## What REN's cycle leaves alone -/

/-- What REN's rules leave alone: the parameters, the clk_i domain, the arena and the choices to come (R415). -/
abbrev RenKeeps (s t : State) : Prop :=
  t.cfg = s.cfg ∧ t.ing = s.ing ∧ t.arena = s.arena ∧ t.inputs = s.inputs ∧ t.ticks = s.ticks ∧ t.epoch = s.epoch

theorem RenKeeps.refl (s : State) : RenKeeps s s := ⟨rfl, rfl, rfl, rfl, rfl, rfl⟩

theorem RenKeeps.trans {s t u : State} (h : RenKeeps s t) (h' : RenKeeps t u) : RenKeeps s u :=
  ⟨h'.1.trans h.1, h'.2.1.trans h.2.1, h'.2.2.1.trans h.2.2.1, h'.2.2.2.1.trans h.2.2.2.1, h'.2.2.2.2.1.trans h.2.2.2.2.1,
    h'.2.2.2.2.2.trans h.2.2.2.2.2⟩

theorem handleByte_keeps {b : Byte} {s t : State} (h : handleByte b s = .next t) : RenKeeps s t := by
  rw [(handleByte_next h).1]
  exact RenKeeps.refl s

theorem renRule_keeps {tp : TpIn} {s t : State} (h : renRule tp s = .next t) : RenKeeps s t := by
  unfold renRule at h
  split at h
  · obtain ⟨-, rfl⟩ := renClear_next h; exact RenKeeps.refl s
  · cases h
    rcases renAcquire_cases s with ⟨-, e⟩ | ⟨-, -, e⟩ | ⟨-, -, e⟩ <;> rw [e] <;> exact RenKeeps.refl s
  · obtain ⟨-, -, u, hu, rfl⟩ := renDecode_next h
    exact (show RenKeeps u (decodeNext u) from RenKeeps.refl u) |> (handleByte_keeps hu).trans
  · rcases renEmit_next h with ⟨-, h⟩ | ⟨-, rfl⟩ | ⟨r, -, rfl⟩ | ⟨r, i, -, rfl⟩ | ⟨-, rfl⟩
    · rcases emitRow_next h with ⟨-, rfl⟩ | ⟨-, -, -, rfl⟩ | ⟨-, -, rfl⟩ <;> exact RenKeeps.refl s
    · exact RenKeeps.refl _
    · exact RenKeeps.refl s
    · exact RenKeeps.refl s
    · simp [RenKeeps]
  · cases h; exact RenKeeps.refl s
  · cases h; exact RenKeeps.refl s

/-- REN's cycle leaves the clk_i domain, the arena and the parameters alone (R415). -/
theorem renCycle_keeps {tp : TpIn} {y : Sync} {s t : State} (h : renCycle tp y s = .next t) : RenKeeps s t := by
  obtain ⟨-, u, hu, rfl⟩ := renCycle_next h
  exact (show RenKeeps s (renBegin y s) from RenKeeps.refl s).trans ((renRule_keeps hu).trans (RenKeeps.refl u))

end Sys2Proof.Machine
end

