-- ==== Sys2Proof/Laws/Handshake.lean ====
section
/-! SUPPORT. The handshake across the clock domains: what a cycle of either clock does to its registers (R252 to R254), and how far
a toggle has moved through a synchroniser (R250, R269). -/

namespace Sys2Proof.Machine

open Sys2Proof Sys2Proof.Safety

/-! ## ING's side -/

/-- What steps B to F of ING's cycle leave alone (R250): the grant and the handshake. -/
abbrev GrantKeeps (s t : State) : Prop :=
  t.ing.heldValid = s.ing.heldValid ∧ t.ing.heldIdx = s.ing.heldIdx ∧ t.ing.reqSync = s.ing.reqSync ∧
    t.ing.reqSeen = s.ing.reqSeen ∧ t.ing.ackTgl = s.ing.ackTgl ∧ t.ing.ackOk = s.ing.ackOk ∧ t.ing.ackIdx = s.ing.ackIdx

theorem GrantKeeps.refl (s : State) : GrantKeeps s s := ⟨rfl, rfl, rfl, rfl, rfl, rfl, rfl⟩

theorem GrantKeeps.trans {s t u : State} (h : GrantKeeps s t) (h' : GrantKeeps t u) : GrantKeeps s u :=
  ⟨h'.1.trans h.1, h'.2.1.trans h.2.1, h'.2.2.1.trans h.2.2.1, h'.2.2.2.1.trans h.2.2.2.1, h'.2.2.2.2.1.trans h.2.2.2.2.1,
    h'.2.2.2.2.2.1.trans h.2.2.2.2.2.1, h'.2.2.2.2.2.2.trans h.2.2.2.2.2.2⟩

theorem pushFill_grant {s t : State} (h : pushFill s = .next t) : GrantKeeps s t := by
  obtain ⟨b, -, rfl⟩ := pushFill_next h
  exact GrantKeeps.refl s

theorem publish_grant {s t : State} (h : publish s = .next t) : GrantKeeps s t := by
  rcases publish_next h with ⟨-, -, h⟩ | ⟨-, -, -, rfl⟩ | ⟨-, -, -, rfl⟩ | ⟨-, h⟩
  · exact pushFill_grant h
  · exact GrantKeeps.refl s
  · exact GrantKeeps.refl s
  · refine GrantKeeps.trans ?_ (pushFill_grant h)
    simp only [GrantKeeps, discardOldest]
    split <;> exact ⟨rfl, rfl, rfl, rfl, rfl, rfl, rfl⟩

theorem ingRetry_grant {s t : State} (h : ingRetry s = .next t) : GrantKeeps s t := by
  unfold ingRetry at h
  split at h
  · obtain ⟨u, h1, h2⟩ := Answer.andThen_eq_next h
    cases h2
    exact (pushFill_grant h1).trans (GrantKeeps.refl u)
  · cases h; exact GrantKeeps.refl s

theorem ingByte_grant {bus : BusIn} {s t : State} (h : ingByte bus s = .next t) : GrantKeeps s t := by
  unfold ingByte at h
  split at h
  · rcases storeByte_next h with ⟨-, -, rfl⟩ | ⟨-, rfl⟩ <;> exact GrantKeeps.refl s
  · cases h; exact GrantKeeps.refl s

theorem ingBusEndsWait_grant (bus : BusIn) (s : State) : GrantKeeps s (ingBusEndsWait bus s) := by
  simp only [ingBusEndsWait]
  split <;> exact GrantKeeps.refl s

theorem ingEnd_grant {bus : BusIn} {s t : State} (h : ingEnd bus s = .next t) : GrantKeeps s t := by
  unfold ingEnd at h
  split at h
  · rcases endTransfer_next h with ⟨-, h⟩ | ⟨-, rfl⟩
    · exact publish_grant h
    · exact GrantKeeps.refl s
  · cases h; exact GrantKeeps.refl s

theorem ingCountdown_grant (w e : Bool) (s : State) : GrantKeeps s (ingCountdown w e s) := by
  simp only [ingCountdown]
  split
  · split <;> exact GrantKeeps.refl s
  · exact GrantKeeps.refl s

/-- After a clk_i cycle the handshake is what step A left, and `req_sync` has shifted. -/
theorem ingCycle_handshake {bus : BusIn} {y : Sync} {s t : State} (h : ingCycle bus y s = .next t) :
    let a := ingServe (ingBegin y s)
    t.ing.heldValid = a.ing.heldValid ∧ t.ing.heldIdx = a.ing.heldIdx ∧ t.ing.reqSeen = a.ing.reqSeen ∧
      t.ing.ackTgl = a.ing.ackTgl ∧ t.ing.ackOk = a.ing.ackOk ∧ t.ing.ackIdx = a.ing.ackIdx ∧
      t.ing.reqSync = syncAfter y a.ing.reqSync s.ren.reqTgl := by
  obtain ⟨b, d, e, h1, h2, h3, rfl⟩ := ingCycle_next h
  obtain ⟨g1, g2, g3, g4, g5, g6, g7⟩ :=
    (ingRetry_grant h1).trans <| (ingBusEndsWait_grant bus b).trans <| (ingByte_grant h2).trans <| (ingEnd_grant h3).trans <|
      ingCountdown_grant (s.ing.rxState = .pubWait) (d.ing.rxState = .rx ∧ e.ing.rxState = .pubWait) e
  have k : (ingCountdown (s.ing.rxState = .pubWait) (d.ing.rxState = .rx ∧ e.ing.rxState = .pubWait) e).ren = s.ren :=
    (ingCycle_keeps h).2.2.1
  refine ⟨g1, g2, g4, g5, g6, g7, ?_⟩
  simp only [ingFinish]
  rw [g3, k]

/-- Step A on an unseen request (R250, R252). -/
theorem ingServe_unseen {s : State} (h : syncOut s.ing.reqSync = s.ing.reqSeen) : ingServe s = s := by
  simp only [ingServe]
  exact if_neg (not_not.2 h)

/-- Step A on a seen request: it is answered. -/
theorem ingServe_seen {s : State} (h : syncOut s.ing.reqSync ≠ s.ing.reqSeen) :
    (ingServe s).ing.reqSeen = syncOut s.ing.reqSync ∧ (ingServe s).ing.ackTgl = (!s.ing.ackTgl) ∧
      (ingServe s).ing.reqSync = s.ing.reqSync := by
  simp only [ingServe, ne_eq, h, not_false_eq_true, if_true, serveAcquire, grantNext, releaseHeld]
  cases s.ing.heldValid <;> cases hq : s.ing.q <;> simp [hq]

/-- Step A leaves the receiver's registers alone. -/
theorem ingServe_receiver (s : State) :
    (ingServe s).ing.rxState = s.ing.rxState ∧ (ingServe s).ing.waitLeft = s.ing.waitLeft ∧
      (ingServe s).ing.rxCount = s.ing.rxCount := by
  simp only [ingServe]
  split
  · simp only [serveAcquire, grantNext, releaseHeld]
    cases s.ing.heldValid <;> cases hq : s.ing.q <;> simp [hq]
  · exact ⟨rfl, rfl, rfl⟩

/-! ## REN's side -/

/-- REN's rules leave `ack_sync` alone, and only ACQUIRE sets `ack_seen`, to the last stage (R303). -/
theorem renRule_answer {tp : TpIn} {s t : State} (h : renRule tp s = .next t) :
    t.ren.ackSync = s.ren.ackSync ∧
      t.ren.ackSeen = if s.ren.renState = .acquire then syncOut s.ren.ackSync else s.ren.ackSeen := by
  unfold renRule at h
  split at h
  · next hs =>
    obtain ⟨-, rfl⟩ := renClear_next h
    simp only [hs, reduceCtorEq, if_false]
    split <;> exact ⟨rfl, rfl⟩
  · next hs =>
    cases h
    rw [if_pos hs]
    rcases renAcquire_cases s with ⟨q, e⟩ | ⟨-, -, e⟩ | ⟨-, -, e⟩ <;> rw [e]
    · exact ⟨rfl, q.symm⟩
    · exact ⟨rfl, rfl⟩
    · exact ⟨rfl, rfl⟩
  · next hs =>
    obtain ⟨-, -, u, hu, rfl⟩ := renDecode_next h
    have e : u.ren = s.ren := by rw [(handleByte_next hu).1]
    rw [if_neg (by simp [hs]), ← e]
    simp only [decodeNext]
    split <;> exact ⟨rfl, rfl⟩
  · next hs =>
    rw [if_neg (by simp [hs])]
    rcases renEmit_next h with ⟨-, h⟩ | ⟨-, rfl⟩ | ⟨r, -, rfl⟩ | ⟨r, i, -, rfl⟩ | ⟨-, rfl⟩
    · rcases emitRow_next h with ⟨-, rfl⟩ | ⟨-, -, -, rfl⟩ | ⟨-, -, rfl⟩ <;> exact ⟨rfl, rfl⟩
    · exact ⟨rfl, rfl⟩
    · exact ⟨rfl, rfl⟩
    · exact ⟨rfl, rfl⟩
    · rw [takeAnswer_ren]
      simp only [nextRepeat]
      split <;> (try split) <;> exact ⟨rfl, rfl⟩
  · next hs =>
    cases h
    rw [if_neg (by simp [hs])]
    simp only [renCommit, enterAcquire, request]
    split <;> exact ⟨rfl, rfl⟩
  · next hs =>
    cases h
    exact ⟨rfl, by rw [if_neg (by simp [hs])]; rfl⟩

/-! ## A toggle on its way through a synchroniser -/

/-- Stages that show the sender's toggle go on showing it. -/
theorem syncCycle_keeps {y : Sync} {c : List Bool} {v : Bool} {j : Nat} (h : ∀ x ∈ c.take j, x = v) :
    ∀ x ∈ (syncAfter y (syncBefore y c v) v).take j, x = v := by
  cases y with
  | through => exact fun x hx => (List.mem_replicate.1 (List.mem_of_mem_take hx)).2
  | hold => exact h
  | shift =>
    intro x hx
    have hx := List.mem_of_mem_take (i := c.length) (by rwa [syncBefore, syncAfter, List.take_take, Nat.min_comm, ← List.take_take] at hx)
    cases j with
    | zero => simp at hx
    | succ j =>
      rcases List.mem_cons.1 hx with hx | hx
      · exact hx
      · exact h x (List.take_subset_take_left _ (Nat.le_succ j) hx)

/-- A cycle that does not hold moves the toggle one stage on. -/
theorem syncCycle_moves {y : Sync} {c : List Bool} {v : Bool} {j : Nat} (hy : y ≠ .hold) (h : ∀ x ∈ c.take j, x = v) :
    ∀ x ∈ (syncAfter y (syncBefore y c v) v).take (j + 1), x = v := by
  cases y with
  | through => exact fun x hx => (List.mem_replicate.1 (List.mem_of_mem_take hx)).2
  | hold => exact absurd rfl hy
  | shift =>
    intro x hx
    have hx := List.mem_of_mem_take (i := c.length) (by rwa [syncBefore, syncAfter, List.take_take, Nat.min_comm, ← List.take_take] at hx)
    rcases List.mem_cons.1 hx with hx | hx
    · exact hx
    · exact h x hx

end Sys2Proof.Machine
end

