-- ==== Sys2Proof/Laws/PerInstr.lean ====
section
/-! SUPPORT. The per-instruction families of LAWS.json. -/

namespace Sys2Proof.Laws

open Sys2Proof

/-- A well-formed instruction is one byte (R151), and a byte read in IDLE is listed in the map or IGNORED (R154). -/
def SingleByte.Statement (i : Instr) : Prop :=
  ∀ m : CmdMap, i.wf m = true →
    (encode m i).length = 1 ∧
    (i.readIn = .idle →
      encodeByte m i = m.cmdOff ∨ encodeByte m i = m.cmdOn ∨ m.isOneArg (encodeByte m i) = true ∨
        i = .ignored (encodeByte m i))

/-- A byte of one command's code set is listed. -/
theorem isOneArg_of_hasCode {m : CmdMap} {k : OneArg} {c : Byte} (h : m.hasCode k c = true) : m.isOneArg c = true :=
  (m.isOneArg_iff c).2 ⟨k, (m.hasCode_iff k c).1 h⟩

theorem SingleByte.displayOff : SingleByte.Statement .displayOff := fun _ _ => ⟨rfl, fun _ => .inl rfl⟩
theorem SingleByte.displayOn : SingleByte.Statement .displayOn := fun _ _ => ⟨rfl, fun _ => .inr (.inl rfl)⟩
theorem SingleByte.setContrast (c : Byte) : SingleByte.Statement (.setContrast c) :=
  fun _ h => ⟨rfl, fun _ => .inr (.inr (.inl (isOneArg_of_hasCode h)))⟩
theorem SingleByte.setMuxRatio (c : Byte) : SingleByte.Statement (.setMuxRatio c) :=
  fun _ h => ⟨rfl, fun _ => .inr (.inr (.inl (isOneArg_of_hasCode h)))⟩
theorem SingleByte.setDisplayOffset (c : Byte) : SingleByte.Statement (.setDisplayOffset c) :=
  fun _ h => ⟨rfl, fun _ => .inr (.inr (.inl (isOneArg_of_hasCode h)))⟩
theorem SingleByte.setChargePump (c : Byte) : SingleByte.Statement (.setChargePump c) :=
  fun _ h => ⟨rfl, fun _ => .inr (.inr (.inl (isOneArg_of_hasCode h)))⟩
theorem SingleByte.setAddrMode (c : Byte) : SingleByte.Statement (.setAddrMode c) :=
  fun _ h => ⟨rfl, fun _ => .inr (.inr (.inl (isOneArg_of_hasCode h)))⟩
theorem SingleByte.setSegRemap (c : Byte) : SingleByte.Statement (.setSegRemap c) :=
  fun _ h => ⟨rfl, fun _ => .inr (.inr (.inl (isOneArg_of_hasCode h)))⟩
theorem SingleByte.setComPins (c : Byte) : SingleByte.Statement (.setComPins c) :=
  fun _ h => ⟨rfl, fun _ => .inr (.inr (.inl (isOneArg_of_hasCode h)))⟩
theorem SingleByte.setPrecharge (c : Byte) : SingleByte.Statement (.setPrecharge c) :=
  fun _ h => ⟨rfl, fun _ => .inr (.inr (.inl (isOneArg_of_hasCode h)))⟩
theorem SingleByte.setVcom (c : Byte) : SingleByte.Statement (.setVcom c) :=
  fun _ h => ⟨rfl, fun _ => .inr (.inr (.inl (isOneArg_of_hasCode h)))⟩
theorem SingleByte.setClockDiv (c : Byte) : SingleByte.Statement (.setClockDiv c) :=
  fun _ h => ⟨rfl, fun _ => .inr (.inr (.inl (isOneArg_of_hasCode h)))⟩
theorem SingleByte.setStartLine (c : Byte) : SingleByte.Statement (.setStartLine c) :=
  fun _ h => ⟨rfl, fun _ => .inr (.inr (.inl (isOneArg_of_hasCode h)))⟩
theorem SingleByte.ignored (b : Byte) : SingleByte.Statement (.ignored b) := fun _ _ => ⟨rfl, fun _ => .inr (.inr (.inr rfl))⟩
theorem SingleByte.argument (a : Byte) : SingleByte.Statement (.argument a) := fun _ _ => ⟨rfl, fun h => nomatch h⟩
theorem SingleByte.pixelData (d : Byte) : SingleByte.Statement (.pixelData d) := fun _ _ => ⟨rfl, fun h => nomatch h⟩

end Sys2Proof.Laws
end

