-- ==== Sys2Proof/Tests/Slice0.lean ====
section
/-! SUPPORT. The model's own tests. Expected values are the spec's: the worked examples of its rules and the vectors of
spec/95_test_vectors.md (named D-, E-, G-, P-, L1.). The last part shows, for every statement with hypotheses, a state that meets
them. -/

namespace Sys2Proof.Tests

open Sys2Proof Sys2Proof.Machine Sys2Proof.Safety

/-! ## Small states -/

/-- Configuration T of 95_test_vectors.md. -/
def cfgT : Config where
  w := 4
  h := 8
  sx := 2
  sy := 2
  xOff := 1
  yOff := 3
  dw := 16
  dh := 32
  bpp := 4
  packMsbFirst := true
  policy := .dropOldest
  depth := 1
  pubTimeout := 0
  dirtyEn := true
  map := CmdMap.standard
  syncStages := 2

/-- Configuration T under BOUNDED with this timeout. -/
def cfgB (timeout : Nat) : Config := { cfgT with policy := .bounded, pubTimeout := timeout }

/-- Configuration T with one-byte bitmaps (CAP = 1), BOUNDED with timeout 3. -/
def cfg1 : Config := { cfgB 3 with w := 1 }

/-- The bytes of buffer `b` (R82). -/
def buffer (c : Config) (b : Nat) (bytes : List Byte) : Memory := (List.range bytes.length).map fun i => (arenaIndex c b i, bytes.getD i 0)

/-- REN decodes buffer 0, which holds `bytes`, with the decoder in `st` and the cursor at `cur`; a quiet clk_r cycle is next. -/
def decoding (c : Config) (st : DecState) (cur : Nat) (bytes : List Byte) : State :=
  let s := State.resetOf c
  { s with
    dec := { s.dec with decState := st, cursor := cur }
    ren := { s.ren with renState := .decode, clrPtr := c.cap }
    ing := { s.ing with heldValid := true, fillIdx := 1, free := s.ing.free.tail }
    arena := buffer c 0 bytes
    inputs := [.clkR TpIn.quiet .shift] }

/-- A bitmap whose listed bytes are these. -/
def bitmap (bytes : List Byte) : Memory := (List.range bytes.length).map fun i => (i, bytes.getD i 0)

/-- REN in EMIT at `row_y` and `row_dy` with these transport registers and this SB; TP's next cycle is `tp`. -/
def emitting (c : Config) (sb : List Byte) (y dy : Nat) (p : TpPhase) (tp : TpIn) : State :=
  let s := decoding c .pixel 0 [0xAF, 0, 0, 0]
  { s with
    dec := { s.dec with sb := bitmap sb }
    ren := { s.ren with renState := .emit, decPtr := c.cap, rowY := y, rowDy := dy, tp := p }
    inputs := [.clkR tp .shift] }

/-- A full queue and a chunk that waits for room (R259), with `left` cycles of the wait to go; a clk_i cycle with `bus` is next. -/
def waiting (c : Config) (left : Nat) (bus : BusIn) : State :=
  let s := State.resetOf c
  { s with
    ing := { s.ing with
      rxState := .pubWait, rxCount := c.cap, fillIdx := 1, q := [0], free := s.ing.free.tail, waitLeft := BitVec.ofNat 32 left }
    arena := buffer c 0 (List.replicate c.cap 0x11) ++ buffer c 1 (List.replicate c.cap 0x22)
    inputs := [.clkI bus .shift] }

/-- REN waits for its answer, with `rounds` stages of `req_sync` already showing the request. -/
def requesting (c : Config) (rounds : Nat) : State :=
  let s := State.resetOf c
  { s with
    ren := { s.ren with renState := .acquire, clrPtr := c.cap, reqTgl := true }
    ing := { s.ing with
      q := [0], fillIdx := 1, free := s.ing.free.tail
      reqSync := List.replicate rounds true ++ List.replicate (c.syncStages - rounds) false }
    arena := buffer c 0 (List.replicate c.cap 0x11)
    inputs := [.clkI BusIn.quiet .shift] }

/-- The answer `ok` has been given and shows at REN's last synchroniser stage. -/
def answered (c : Config) (ok : Bool) : State :=
  let s := requesting c c.syncStages
  { s with
    ren := { s.ren with ackSync := List.replicate c.syncStages true }
    ing := { s.ing with
      q := if ok then [] else s.ing.q, heldValid := ok, reqSeen := true, ackTgl := true, ackOk := ok }
    inputs := [.clkR TpIn.quiet .shift] }

/-- The receiver in RX has `n` bytes of a transfer in buffer 0, or in buffer 1 while buffer 0 waits in a full queue; a clk_i cycle
with `bus` is next. -/
def receiving (c : Config) (n : Nat) (full : Bool) (bus : BusIn) : State :=
  let s := State.resetOf c
  let got (b : Nat) := buffer c b (List.replicate (min n c.cap) 0x22)
  { s with
    ing :=
      if full then { s.ing with rxCount := n, fillIdx := 1, q := [0], free := s.ing.free.tail } else { s.ing with rxCount := n }
    arena := if full then buffer c 0 (List.replicate c.cap 0x11) ++ got 1 else got 0
    inputs := [.clkI bus .shift] }

/-- `waiting` with a request that shows at the last stage of `req_sync`. -/
def waitingServed (c : Config) (left : Nat) (bus : BusIn) : State :=
  let s := waiting c left bus
  { s with
    ren := { s.ren with renState := .acquire, clrPtr := c.cap, reqTgl := true }
    ing := { s.ing with reqSync := List.replicate c.syncStages true } }

/-- `o` is a next state that satisfies `p`. -/
def answers (o : Answer) (p : State → Bool) : Bool :=
  match o with
  | .next t => p t
  | _ => false

/-- The first CAP bytes of SB. -/
def sbBytes (s : State) : List Byte := (List.range s.cfg.cap).map s.readSb

/-! ## WellFormed and the parameter checks: each refuses an ill-formed term -/

theorem test_wf_contrast : (Instr.setContrast 0x82).wf CmdMap.standard = false := by decide
theorem test_wf_muxRatio : (Instr.setMuxRatio 0x81).wf CmdMap.standard = false := by decide
theorem test_wf_displayOffset : (Instr.setDisplayOffset 0xD5).wf CmdMap.standard = false := by decide
theorem test_wf_chargePump : (Instr.setChargePump 0x8E).wf CmdMap.standard = false := by decide
theorem test_wf_addrMode : (Instr.setAddrMode 0x21).wf CmdMap.standard = false := by decide
theorem test_wf_segRemap : (Instr.setSegRemap 0xA2).wf CmdMap.standard = false := by decide
theorem test_wf_comPins : (Instr.setComPins 0xD9).wf CmdMap.standard = false := by decide
theorem test_wf_precharge : (Instr.setPrecharge 0xDA).wf CmdMap.standard = false := by decide
theorem test_wf_vcom : (Instr.setVcom 0xDC).wf CmdMap.standard = false := by decide
theorem test_wf_clockDiv : (Instr.setClockDiv 0xD4).wf CmdMap.standard = false := by decide
theorem test_wf_startLine : (Instr.setStartLine 0x41).wf CmdMap.standard = false := by decide
theorem test_wf_ignored : ∀ b ∈ [0xAE, 0xAF, 0x81, 0xA1, 0x40], (Instr.ignored b).wf CmdMap.standard = false := by decide
theorem test_wf_ok : ∀ i ∈ [Instr.displayOff, .setSegRemap 0xA1, .ignored 0x41, .argument 0xAF, .pixelData 0xAE],
    i.wf CmdMap.standard = true := by decide

/-- R12: one illegal set for each constraint. -/
theorem test_illegal_sets : ∀ c ∈
    [{ cfgT with dw := 8 }, { cfgT with dh := 18 }, { cfgT with dw := 65536 }, { cfgT with dh := 65536 },
      { cfgT with h := 9 }, { cfgT with h := 0 }, { cfgT with w := 0 }, { cfgT with sx := 0 }, { cfgT with sy := 0 },
      { cfgT with bpp := 3 }, { cfgT with depth := 2 }, { cfgT with depth := 0, policy := .bounded },
      { cfgT with pubTimeout := 2 ^ 32 }, { cfgT with syncStages := 1 },
      { cfgT with map := { CmdMap.standard with cmdOn := 0xAE } }, { cfgT with map := { CmdMap.standard with vcom := [] } },
      { cfgT with map := { CmdMap.standard with vcom := [0x81] } }, { cfgT with map := { CmdMap.standard with vcom := [0xAF] } }],
    c.legal = false := by decide

theorem test_legal_sets : cfgT.legal = true ∧ (cfgB 3).legal = true ∧ cfg1.legal = true ∧ Config.standard.legal = true := by decide

/-! ## Decoding: every row of spec/opcode_table.json, by a word written out from R153 -/

theorem test_decode_noArgument : decodeTableWord 8 0b10101110 = some .displayOff ∧ decodeTableWord 8 0b10101111 = some .displayOn := by decide
theorem test_decode_contrast : decodeTableWord 8 0b10000001 = some (.setContrast 0x81) := by decide
theorem test_decode_muxRatio : decodeTableWord 8 0b10101000 = some (.setMuxRatio 0xA8) := by decide
theorem test_decode_displayOffset : decodeTableWord 8 0b11010011 = some (.setDisplayOffset 0xD3) := by decide
theorem test_decode_chargePump : decodeTableWord 8 0b10001101 = some (.setChargePump 0x8D) := by decide
theorem test_decode_addrMode : decodeTableWord 8 0b00100000 = some (.setAddrMode 0x20) := by decide
theorem test_decode_segRemap :
    decodeTableWord 8 0b10100000 = some (.setSegRemap 0xA0) ∧ decodeTableWord 8 0b10100001 = some (.setSegRemap 0xA1) := by decide
theorem test_decode_comPins : decodeTableWord 8 0b11011010 = some (.setComPins 0xDA) := by decide
theorem test_decode_precharge : decodeTableWord 8 0b11011001 = some (.setPrecharge 0xD9) := by decide
theorem test_decode_vcom : decodeTableWord 8 0b11011011 = some (.setVcom 0xDB) := by decide
theorem test_decode_clockDiv : decodeTableWord 8 0b11010101 = some (.setClockDiv 0xD5) := by decide
theorem test_decode_startLine : decodeTableWord 8 0b01000000 = some (.setStartLine 0x40) := by decide
/-- The command byte of a row of two bytes: the argument is the next instruction. -/
theorem test_decode_row_of_two_bytes : decodeTableWord 16 0x7F81 = some (.setContrast 0x81) := by decide
theorem test_decode_ignored : decodeTableWord 8 0x41 = some (.ignored 0x41) ∧ decodeTableWord 8 0xFF = some (.ignored 0xFF) := by decide
theorem test_decode_argument : decode CmdMap.standard .awaitArg [0xAF, 0x00] = .ok (.argument 0xAF, [0x00]) := rfl
theorem test_decode_pixelData : decode CmdMap.standard .pixel [0xAE, 0xAF] = .ok (.pixelData 0xAE, [0xAF]) := rfl
theorem test_decode_nothing : decode CmdMap.standard .idle [] = .error .noByte := rfl

/-- A table word placed at the fetch runs as the first step after reset. -/
theorem test_fetch_word : answers (step (State.reset.withFetchWord 8 0xAF)) (fun t => t.dec.power && t.dec.decState == .pixel) := by decide +kernel

/-! ## The instructions -/

/-- D-1. -/
theorem test_displayOff : answers (execDisplayOff { decoding cfgT .idle 2 [] with dec := { (decoding cfgT .idle 2 []).dec with power := true } })
    (fun t => !t.dec.power && t.dec.decState == .idle && t.dec.cursor == 2) := by decide
/-- R204's example. -/
theorem test_displayOn : answers (execDisplayOn (decoding cfgT .idle 3 []))
    (fun t => t.dec.power && t.dec.decState == .pixel && t.dec.cursor == 0) := by decide
/-- What L1.1 says of a pair: AWAIT_ARG with the command pending, then IDLE; the cursor and `power` stay. -/
def oneArgumentPair (c a : Byte) : Bool :=
  answers (handleByte c (decoding cfgT .idle 2 [])) (fun t =>
    t.dec.decState == .awaitArg && t.dec.pendingCmd == c &&
      answers (handleByte a t) (fun u => u.dec.decState == .idle && u.dec.pendingCmd == c && u.dec.cursor == 2 && !u.dec.power))
theorem test_setContrast : oneArgumentPair 0x81 0x7F = true ∧ oneArgumentPair 0x81 0xAF = true := by decide
theorem test_setMuxRatio : oneArgumentPair 0xA8 0x3F = true := by decide
theorem test_setDisplayOffset : oneArgumentPair 0xD3 0x00 = true := by decide
theorem test_setChargePump : oneArgumentPair 0x8D 0x14 = true := by decide
theorem test_setAddrMode : oneArgumentPair 0x20 0x00 = true := by decide
theorem test_setSegRemap : oneArgumentPair 0xA0 0x00 = true ∧ oneArgumentPair 0xA1 0xC8 = true := by decide
theorem test_setComPins : oneArgumentPair 0xDA 0x12 = true := by decide
theorem test_setPrecharge : oneArgumentPair 0xD9 0xF1 = true := by decide
theorem test_setVcom : oneArgumentPair 0xDB 0x40 = true := by decide
theorem test_setClockDiv : oneArgumentPair 0xD5 0x80 = true := by decide
theorem test_setStartLine : oneArgumentPair 0x40 0x00 = true := by decide
/-- D-5. -/
theorem test_argument : answers (execArgument 0xAF (decoding cfgT .awaitArg 2 [])) (fun t => t.dec.decState == .idle && !t.dec.power) := by decide
/-- D-9. -/
theorem test_ignored : answers (handleByte 0x41 (decoding cfgT .idle 0 []))
    (fun t => t.dec.decState == .idle && t.dec.diagValid && t.dec.diagByte == 0x41 && t.shown == [.diag 0x41]) := by decide
/-- D-12: the cursor wraps. -/
theorem test_pixelData : answers (execPixelData 0x81 (decoding cfgT .pixel 3 []))
    (fun t => sbBytes t == [0, 0, 0, 0x81] && t.dec.cursor == 0 && t.dec.decState == .pixel) := by decide
/-- L1.2: five data bytes from cursor 0. -/
theorem test_pixelData_wrap : answers (handleBytes [0x11, 0x22, 0x33, 0x44, 0x55] (decoding cfgT .pixel 0 []))
    (fun t => sbBytes t == [0x55, 0x22, 0x33, 0x44] && t.dec.cursor == 1) := by decide
/-- R308's example. -/
theorem test_decode_pass : answers (handleBytes [0xAE, 0x81, 0x7F, 0xAF] (decoding cfgT .idle 0 []))
    (fun t => t.dec.decState == .pixel && t.dec.cursor == 0 && t.dec.power) := by decide

/-! ## The exchange -/

/-- R252's example. -/
theorem test_serve :
    (serveAcquire { (State.resetOf cfgT).ing with q := [2], heldValid := true, heldIdx := 1, free := [] }).free = [1] ∧
    (serveAcquire { (State.resetOf cfgT).ing with q := [2], heldValid := true, heldIdx := 1, free := [] }).ackIdx = 2 := by decide
/-- E-1, E-2: a short transfer and an empty one are overruns. -/
theorem test_overrun : answers (endTransfer (State.resetOf cfgT)) (fun t => t.ing.overrunCnt == 1 && t.ing.rxCount == 0 && t.ing.q == []) := by decide
/-- L1.6 step 2: the unconsumed frame is replaced. -/
theorem test_dropOldest :
    answers (publish { State.resetOf cfgT with ing := { (State.resetOf cfgT).ing with q := [0], fillIdx := 1, free := [2], rxCount := 4 } })
      (fun t => t.ing.q == [1] && t.ing.fillIdx == 0 && t.ing.free == [2] && t.ing.droppedCnt == 0) := by decide
/-- E-5: the serve of step A comes before the publish of step E. -/
theorem test_serve_then_publish :
    answers (ingCycle ⟨false, 0, true⟩ .shift
        { requesting cfgT 2 with ing := { (requesting cfgT 2).ing with rxCount := 4 } })
      (fun t => t.ing.heldIdx == 0 && t.ing.q == [1] && t.ing.fillIdx == 2 && t.ing.free == []) := by decide
/-- E-4: the end in the cycle of the fourth byte. -/
theorem test_byte_then_end : answers (step (receiving cfgT 3 false ⟨true, 0x44, true⟩))
    (fun t => t.ing.q == [0] && t.ing.fillIdx == 1 && t.ing.rxCount == 0 && t.readArena 0 3 == 0x44 && t.ing.overrunCnt == 0) := by decide
/-- E-3: the fifth byte is counted and not stored. -/
theorem test_long_transfer : answers (step (receiving cfgT 4 false ⟨true, 0x50, true⟩))
    (fun t => t.ing.q == [] && t.ing.rxCount == 0 && t.readArena 0 3 == 0x22 && t.ing.overrunCnt == 1) := by decide
/-- E-8: the serve frees the slot, and the wait ends with a publish in the same cycle. -/
theorem test_serve_ends_wait : answers (step (waitingServed (cfgB 3) 2 BusIn.quiet))
    (fun t => t.ing.heldIdx == 0 && t.ing.q == [1] && t.ing.rxState == .rx && t.ing.droppedCnt == 0) := by decide
/-- E-7: the last cycle of the wait drops the frame. -/
theorem test_wait_expires : answers (step (waiting (cfgB 3) 1 BusIn.quiet)) (fun t => t.ing.droppedCnt == 1 && t.ing.rxState == .rx) := by decide
/-- E-9, E-10. -/
theorem test_bus_ends_wait :
    answers (step (waiting (cfgB 3) 3 ⟨true, 0x9C, false⟩)) (fun t => t.ing.droppedCnt == 1 && t.ing.rxCount == 1 && t.readArena 1 0 == 0x9C) ∧
    answers (step (waiting (cfgB 3) 3 ⟨false, 0, true⟩)) (fun t => t.ing.droppedCnt == 1 && t.ing.overrunCnt == 1) := by decide

/-! ## The render engine and the compositor -/

/-- L1.4, R320's example: the first rectangle of a diagonal. -/
theorem test_rectangle : answers (step (emitting cfgT [1, 2, 4, 8] 0 0 .idle TpIn.quiet))
    (fun t => t.tpCmdO == some ⟨1, 3, 8, 1, [0xFF, 0x00, 0x00, 0x00]⟩) := by decide
/-- D20: every transport output is 0 at reset; and R320's rectangle on the ports. -/
theorem test_transport_ports :
    State.reset.tpFieldsO = ⟨0, 0, 0, 0, 0, false⟩ ∧
    answers (step (emitting cfgT [1, 2, 4, 8] 0 0 .idle TpIn.quiet)) (fun t =>
      t.tpCmdValidO && !t.tpDataValidO && [t.tpFieldsO.x, t.tpFieldsO.y, t.tpFieldsO.w, t.tpFieldsO.h] == [1, 3, 8, 1]) := by decide
/-- R321 step 2: the first and the last byte of that rectangle. -/
theorem test_transport_bytes :
    (emitting cfgT [1, 2, 4, 8] 0 0 (.data ⟨1, 3, 8, 1, [0xFF, 0, 0, 0]⟩ 0) TpIn.quiet).tpDataO = some (0xFF, false) ∧
    (emitting cfgT [1, 2, 4, 8] 0 0 (.data ⟨1, 3, 8, 1, [0xFF, 0, 0, 0]⟩ 3) TpIn.quiet).tpDataO = some (0x00, true) := by decide
/-- R60's encoding on `dec_state_o`. -/
theorem test_decState_codes :
    [DecState.idle, .awaitArg, .pixel].map (fun d => (decoding cfgT d 0 []).decStateO) = [0b00, 0b01, 0b10] := by decide
/-- G-4: only row 0 differs. -/
theorem test_skip :
    let s := { emitting cfgT [1, 3, 4, 8] 0 0 .idle TpIn.quiet with
      ren := { (emitting cfgT [1, 3, 4, 8] 0 0 .idle TpIn.quiet).ren with pb := bitmap [1, 2, 4, 8], prevValid := true } }
    (List.range 8).map s.skipRow = [false, true, true, true, true, true, true, true] := by decide
/-- G-5's last answer, and R328's example. -/
theorem test_transport_error :
    answers (step (emitting cfgT [1, 2, 4, 8] 1 0 .resp ⟨false, false, true, true⟩)) (fun t => t.ren.renState == .abort) := by decide
/-- P-3, P-11, P-12, P-15, P-16, P-19, P-21. -/
theorem test_encode :
    encodeRow { cfgT with bpp := 1 } (List.replicate 9 true) = [0xFF, 0x80] ∧
    encodeRow { cfgT with bpp := 2 } [true, false, true, true, false, true] = [0xCF, 0x30] ∧
    encodeRow { cfgT with bpp := 2, packMsbFirst := false } [true, false, true, true, false, true] = [0xF3, 0x0C] ∧
    encodeRow cfgT [true, false, false, true, true] = [0xF0, 0x0F, 0xF0] ∧
    encodeRow { cfgT with packMsbFirst := false } [true, false, false, true, true] = [0x0F, 0xF0, 0x0F] ∧
    encodeRow { cfgT with bpp := 16 } [true, true, false, false] = [0xFF, 0xFF, 0xFF, 0xFF, 0x00, 0x00, 0x00, 0x00] ∧
    encodeRow { cfgT with bpp := 24 } [false, true] = [0x00, 0x00, 0x00, 0xFF, 0xFF, 0xFF] := by decide

/-! ## Witnesses: for each statement with hypotheses, a state and operands that meet them -/

/-- REN at the end of a pass of `SB = sb` with this PB and `prev_valid`, which has shown every row that is not skipped. -/
def committing (c : Config) (sb pb : List Byte) (valid : Bool) : State :=
  let s := emitting c sb c.h 0 .idle TpIn.quiet
  let s := { s with ren := { s.ren with renState := .commit, pb := bitmap pb, prevValid := valid } }
  { s with shown := (rectsBefore s c.h 0).reverse.map Obs.rect }

/-- The first rectangle of `emitting cfgT [1, 2, 4, 8]`. -/
def firstRect : Rect := ⟨1, 3, 8, 1, [0xFF, 0x00, 0x00, 0x00]⟩

/-- The step of `s` is a next state. -/
abbrev Runs (s : State) : Prop := answers (step s) (fun _ => true) = true

/-- With no rectangle in progress the rest of the invariant is decidable. -/
theorem coreInv_of_idle {s : State} (h : s.ren.tp = .idle)
    (hi : s.cfg.Legal ∧ OwnershipPartition s ∧ FreeRising s ∧ ReceiverInv s ∧ FillInv s)
    (hr : WaitInv s ∧ HandshakeInv s) (hm : RenderInv s ∧ PrevInv s ∧ MemoryInv s) : CoreInv s :=
  have ⟨h1, h2, h3, h4, h5⟩ := hi
  have ⟨h6, h7⟩ := hr
  have ⟨h8, h9, h10⟩ := hm
  ⟨h1, h2, h3, h4, h5, h6, h7, h8, ⟨by simp [h], by simp [h], by simp [h]⟩, h9, h10⟩

theorem decoding_inv : CoreInv (decoding cfgT .pixel 3 [0xAE, 0x12, 0x34, 0x56]) :=
  coreInv_of_idle rfl (by decide) (by decide) (by decide)
theorem emitting_inv : CoreInv (emitting cfgT [1, 2, 4, 8] 0 0 .idle TpIn.quiet) :=
  coreInv_of_idle rfl (by decide) (by decide) (by decide)
theorem offering_inv : CoreInv (emitting cfgT [1, 2, 4, 8] 0 0 (.cmd firstRect) TpIn.quiet) :=
  ⟨by decide, by decide, by decide, by decide, by decide, by decide, by decide, by decide,
    ⟨by decide, by rintro r ⟨⟩; decide, by rintro r i ⟨⟩⟩, by decide, by decide⟩
theorem sending_inv : CoreInv (emitting cfgT [1, 2, 4, 8] 0 0 (.data firstRect 3) TpIn.quiet) :=
  ⟨by decide, by decide, by decide, by decide, by decide, by decide, by decide, by decide,
    ⟨by decide, by rintro r ⟨⟩, by rintro r i ⟨⟩; decide⟩, by decide, by decide⟩
theorem waiting_inv : CoreInv (waiting (cfgB 3) 3 BusIn.quiet) :=
  coreInv_of_idle rfl (by decide) (by decide) (by decide)
theorem requesting_inv : CoreInv (requesting cfgT 0) :=
  coreInv_of_idle rfl (by decide) (by decide) (by decide)
theorem answered_inv : CoreInv (answered cfgT true) :=
  coreInv_of_idle rfl (by decide) (by decide) (by decide)

theorem witness_DisplayOffEffect : (decoding cfgT .idle 0 []).dec.decState = .idle := rfl
theorem witness_DisplayOnEffect : (decoding cfgT .idle 3 []).cfg.Legal ∧ (decoding cfgT .idle 3 []).dec.decState = .idle := by decide
theorem witness_OneArgumentCommandEffect : (decoding cfgT .idle 0 []).cfg.Legal ∧ (decoding cfgT .idle 0 []).dec.decState = .idle ∧
    0x81 ∈ CmdMap.standard.contrast ∧ 0xA8 ∈ CmdMap.standard.muxRatio ∧ 0xD3 ∈ CmdMap.standard.displayOffset ∧
    0x8D ∈ CmdMap.standard.chargePump ∧ 0x20 ∈ CmdMap.standard.addrMode ∧ 0xA1 ∈ CmdMap.standard.segRemap ∧
    0xDA ∈ CmdMap.standard.comPins ∧ 0xD9 ∈ CmdMap.standard.precharge ∧ 0xDB ∈ CmdMap.standard.vcom ∧
    0xD5 ∈ CmdMap.standard.clockDiv ∧ 0x40 ∈ CmdMap.standard.startLine := by decide
theorem witness_ArgumentEffect : (decoding cfgT .awaitArg 0 []).dec.decState = .awaitArg := rfl
theorem witness_IgnoredEffect : (decoding cfgT .idle 0 []).dec.decState = .idle ∧ (0x41 : Byte) ≠ cfgT.map.cmdOff ∧
    (0x41 : Byte) ≠ cfgT.map.cmdOn ∧ ∀ k, (0x41 : Byte) ∉ cfgT.map.codes k := ⟨rfl, by decide, by decide, by intro k; cases k <;> decide⟩
theorem witness_PixelDataEffect :
    let s := decoding cfgT .pixel 3 []
    Memory.wf Space.sb.unlisted s.dec.sb ∧ s.dec.decState = .pixel ∧ s.dec.cursor < s.cfg.cap := by decide
theorem witness_MeaningStops : (decoding cfgT .pixel 0 []).dec.decState ≠ Instr.displayOff.readIn ∧
    (decoding cfgT .pixel 4 []).dec.decState = .pixel ∧ (decoding cfgT .pixel 4 []).cfg.cap ≤ (decoding cfgT .pixel 4 []).dec.cursor := by decide
theorem witness_InstructionFrame :
    answers (exec .displayOff (decoding cfgT .idle 3 [])) (fun _ => true) ∧ answers (exec .displayOn (decoding cfgT .idle 3 [])) (fun _ => true) ∧
    answers (exec (.setVcom 0xDB) (decoding cfgT .idle 3 [])) (fun _ => true) ∧ answers (exec (.ignored 0) (decoding cfgT .idle 3 [])) (fun _ => true) ∧
    answers (exec (.argument 0) (decoding cfgT .awaitArg 3 [])) (fun _ => true) ∧
    answers (exec (.pixelData 7) (decoding cfgT .pixel 3 [])) (fun _ => true) := by decide
theorem witness_DecoderReadsOnly :
    let s := decoding cfgT .awaitArg 3 []
    let s' := { s with dec := { s.dec with power := true, sb := bitmap [1, 2] } }
    s'.cfg = s.cfg ∧ s'.dec.decState = s.dec.decState ∧ s'.dec.cursor = s.dec.cursor ∧ answers (handleByte 5 s) (fun _ => true) ∧
      s.dec.decState = .awaitArg := by decide
theorem witness_EveryByteHandled : (decoding cfgT .pixel 3 []).dec.cursor < (decoding cfgT .pixel 3 []).cfg.cap := by decide
theorem witness_StepRunsDecodedInstruction :
    let s := decoding cfgT .idle 0 [0xAF, 1, 2, 3]
    s.cfg.Legal ∧ s.inputs = [.clkR TpIn.quiet .shift] ∧ ¬(TpIn.quiet.respValid = true ∧ s.ren.tp ≠ .resp) ∧ s.ren.renState = .decode ∧
      s.ren.curIdx < s.cfg.nbuf ∧ s.ren.decPtr < s.cfg.cap ∧
      decode s.cfg.map s.dec.decState [s.readArena s.ren.curIdx s.ren.decPtr] = .ok (.displayOn, []) :=
  ⟨by decide, rfl, by decide, rfl, by decide, by decide, rfl⟩
theorem witness_DecodeStep :
    let s := { decoding cfgT .pixel 3 [1, 2, 3, 4] with ren := { (decoding cfgT .pixel 3 [1, 2, 3, 4]).ren with decPtr := 3 } }
    s.ren.renState = .decode ∧ s.ren.curIdx < s.cfg.nbuf ∧ s.ren.decPtr < s.cfg.cap ∧ s.dec.cursor < s.cfg.cap := by decide
theorem witness_DecodeOfEncode : CmdMap.standard.legal = true ∧ (Instr.setSegRemap 0xA1).wf CmdMap.standard = true := by decide
theorem witness_EncodeOfDecode : decode CmdMap.standard .idle [0x81, 0x7F] = .ok (.setContrast 0x81, [0x7F]) := rfl
theorem witness_ByteClassification : CmdMap.standard.legal = true ∧ 0xAE = CmdMap.standard.cmdOff ∧ 0xAF = CmdMap.standard.cmdOn ∧
    0xA1 ∈ CmdMap.standard.codes .segRemap ∧ (0x7F : Byte) ≠ CmdMap.standard.cmdOff ∧ (0x7F : Byte) ≠ CmdMap.standard.cmdOn ∧
    ∀ k, (0x7F : Byte) ∉ CmdMap.standard.codes k := ⟨by decide, rfl, rfl, by decide, by decide, by decide, by intro k; cases k <;> decide⟩
theorem witness_OneArgumentLaw :
    let s := decoding cfgT .idle 2 []
    s.cfg.Legal ∧ s.dec.decState = .idle ∧ s.cfg.map.isOneArg 0x40 = true := by decide
theorem witness_PixelIsAbsorbing :
    let s := decoding cfgT .pixel 3 [0xAE, 0x12, 0x34, 0x56]
    s.dec.decState = .pixel ∧ s.nextTick ≠ .reset ∧ Runs s := by decide
theorem witness_CursorResetLaw :
    let s := decoding cfgT .idle 3 []
    s.cfg.Legal ∧ Memory.wf Space.sb.unlisted s.dec.sb ∧ s.dec.decState = .idle := by decide
theorem witness_PagePackingLaw :
    let s := decoding cfgT .pixel 0 []
    s.cfg.Legal ∧ Memory.wf Space.sb.unlisted s.dec.sb ∧ s.dec.decState = .pixel ∧ s.dec.cursor = 0 ∧
      [0x11, 0x22, 0x33, (0x44 : Byte)].length = s.cfg.cap := by decide
theorem witness_PagePackingMap : cfgT.Legal ∧ 3 < cfgT.w ∧ 7 < cfgT.h ∧ 3 < cfgT.cap := by decide
/-- The listed choices; and each outcome of a cycle in RX. -/
theorem witness_StepRunsChoice : ((waiting (cfgB 3) 3 BusIn.quiet).cfg.Legal ∧
    (waiting (cfgB 3) 3 BusIn.quiet).inputs = [.clkI BusIn.quiet .shift] ∧
    (decoding cfgT .idle 0 []).inputs = [.clkR TpIn.quiet .shift] ∧ (decoding cfgT .idle 0 []).cfg.Legal ∧
    ¬(TpIn.quiet.respValid = true ∧ (decoding cfgT .idle 0 []).ren.tp ≠ .resp) ∧
    ({ State.resetOf cfgT with inputs := [.reset] } : State).inputs = [.reset]) ∧
    (CoreInv (receiving cfgT 3 false ⟨true, 0x44, true⟩) ∧ (receiving cfgT 3 false ⟨true, 0x44, true⟩).ing.rxState = .rx ∧
      min (3 + 1) (cfgT.cap + 1) = cfgT.cap ∧ cfgT.policy = .dropOldest) ∧
    (CoreInv (receiving cfgT 5 false ⟨true, 0x44, true⟩) ∧ (receiving cfgT 5 false ⟨true, 0x44, true⟩).ing.rxState = .rx ∧
      min (5 + 1) (cfgT.cap + 1) ≠ cfgT.cap) ∧
    (let s := receiving (cfgB 3) 4 false ⟨false, 0, true⟩
     CoreInv s ∧ s.ing.rxState = .rx ∧ s.ing.rxCount = s.cfg.cap ∧ s.cfg.policy = .bounded ∧
       (ingServe (ingBegin .shift s)).ing.q.length < s.cfg.depth) ∧
    (let s := receiving (cfgB 0) 4 true ⟨false, 0, true⟩
     CoreInv s ∧ s.ing.rxState = .rx ∧ s.ing.rxCount = s.cfg.cap ∧ s.cfg.depth ≤ (ingServe (ingBegin .shift s)).ing.q.length ∧
       s.cfg.pubTimeout = 0) ∧
    (let s := receiving (cfgB 3) 3 true ⟨true, 0, true⟩
     CoreInv s ∧ s.ing.rxState = .rx ∧ s.ing.rxCount + 1 = s.cfg.cap ∧
       s.cfg.depth ≤ (ingServe (ingBegin .shift s)).ing.q.length ∧ s.cfg.pubTimeout ≠ 0) :=
  ⟨by decide, ⟨coreInv_of_idle rfl (by decide) (by decide) (by decide), by decide⟩, ⟨coreInv_of_idle rfl (by decide) (by decide) (by decide), by decide⟩,
    ⟨coreInv_of_idle rfl (by decide) (by decide) (by decide), by decide⟩, ⟨coreInv_of_idle rfl (by decide) (by decide) (by decide), by decide⟩,
    coreInv_of_idle rfl (by decide) (by decide) (by decide), by decide⟩
/-- Each disjunct, at its boundary. -/
theorem witness_IllegalParametersRefused :
    ({ cfgT with dw := 8 } : Config).dw < 1 + 4 * 2 ∧ ({ cfgT with dh := 18 } : Config).dh < 3 + 8 * 2 ∧
    65535 < ({ cfgT with dw := 65536 } : Config).dw ∧ 65535 < ({ cfgT with dh := 65536 } : Config).dh ∧
    65535 < ({ cfgT with w := 65536, sx := 1 } : Config).w * 1 ∧
    ({ CmdMap.standard with cmdOn := 0xAE } : CmdMap).cmdOff = 0xAE ∧
    ({ CmdMap.standard with vcom := [0xAE] } : CmdMap).isOneArg 0xAE = true ∧
    ({ CmdMap.standard with vcom := [0xAF] } : CmdMap).isOneArg 0xAF = true ∧
    (cfgT.policy = .dropOldest ∧ ({ cfgT with depth := 2 } : Config).depth ≠ 1) ∧
    ({ cfgT with w := 0 } : Config).w = 0 ∧ ({ cfgT with h := 0 } : Config).h < 8 ∧ ({ cfgT with h := 9 } : Config).h % 8 ≠ 0 ∧
    ({ cfgT with sx := 0 } : Config).sx = 0 ∧ ({ cfgT with sy := 0 } : Config).sy = 0 ∧ ({ cfgT with depth := 0 } : Config).depth = 0 ∧
    ({ cfgT with bpp := 3 } : Config).bpp ∉ [1, 2, 4, 8, 16, 24] ∧ 2 ^ 32 ≤ ({ cfgT with pubTimeout := 2 ^ 32 } : Config).pubTimeout ∧
    ({ cfgT with syncStages := 1 } : Config).syncStages < 2 ∧ ({ CmdMap.standard with vcom := [] } : CmdMap).codes .vcom = [] ∧
    (OneArg.vcom ≠ .contrast ∧ (0x81 : Byte) ∈ ({ CmdMap.standard with vcom := [0x81] } : CmdMap).codes .vcom ∧
      (0x81 : Byte) ∈ CmdMap.standard.codes .contrast) := by decide
theorem witness_ClearStep :
    let s := { State.resetOf cfgT with ren := { (State.resetOf cfgT).ren with clrPtr := 3 } }
    s.ren.renState = .clear ∧ Memory.wf Space.sb.unlisted s.dec.sb ∧ s.ren.clrPtr < s.cfg.cap := by decide
theorem witness_ServeAcquireEffect :
    (let s := requesting cfgT 2; syncOut s.ing.reqSync ≠ s.ing.reqSeen ∧ s.ing.q = [0]) ∧
    (let s := requesting cfgT 2; syncOut ({ s with ing := { s.ing with q := [] } } : State).ing.reqSync ≠ s.ing.reqSeen) ∧
    (let s := requesting cfgT 1; syncOut s.ing.reqSync = s.ing.reqSeen) := by decide
theorem witness_StoreByteEffect :
    let s := { State.resetOf cfgT with ing := { (State.resetOf cfgT).ing with rxCount := 3 } }
    let s' := { State.resetOf cfgT with ing := { (State.resetOf cfgT).ing with rxCount := 4 } }
    Memory.wf Space.arena.unlisted s.arena ∧ s.ing.fillIdx < s.cfg.nbuf ∧ s.ing.rxCount < s.cfg.cap ∧ s'.cfg.cap ≤ s'.ing.rxCount ∧
    s.ing.rxState = .rx := by decide
theorem witness_EndTransferEffect :
    (waiting (cfgB 3) 3 BusIn.quiet).ing.rxCount = (cfgB 3).cap ∧ (State.resetOf cfgT).ing.rxCount ≠ cfgT.cap ∧
    (State.resetOf cfgT).ing.rxState = .rx := by decide
theorem witness_PushFillEffect : FreeRising (State.resetOf cfgT) ∧ (State.resetOf cfgT).ing.free ≠ [] := by decide
theorem witness_PublishBoundedEffect :
    let s := { State.resetOf (cfgB 0) with ing := { (State.resetOf (cfgB 0)).ing with q := [1], rxCount := 4 } }
    let s' := { State.resetOf (cfgB 3) with ing := { (State.resetOf (cfgB 3)).ing with q := [1], rxCount := 4 } }
    ((State.resetOf (cfgB 0)).cfg.policy = .bounded ∧ (State.resetOf (cfgB 0)).ing.q.length < (cfgB 0).depth) ∧
    (s.cfg.depth ≤ s.ing.q.length ∧ s.cfg.pubTimeout = 0) ∧
    (s'.cfg.depth ≤ s'.ing.q.length ∧ s'.cfg.pubTimeout ≠ 0 ∧ s'.ing.rxState = .rx ∧ s'.ing.rxCount = s'.cfg.cap) := by decide
theorem witness_PublishDropOldestEffect :
    (State.resetOf cfgT).cfg.policy = .dropOldest ∧ (State.resetOf cfgT).ing.q.length ≠ 1 ∧ (requesting cfgT 0).ing.q = [0] := by decide
theorem witness_PublishWaitCycle :
    let s := waiting (cfgB 3) 2 BusIn.quiet
    let s' := waiting (cfgB 3) 1 BusIn.quiet
    let s'' := { s with ing := { s.ing with q := [] } }
    (s.ing.rxState = .pubWait ∧ syncOut s.ing.reqSync = s.ing.reqSeen ∧ BusIn.quiet.inValid = false ∧ BusIn.quiet.inEnd = false ∧
      (s.cfg.depth ≤ s.ing.q.length ∧ s.ing.waitLeft - 1 ≠ 0) ∧ (s'.cfg.depth ≤ s'.ing.q.length ∧ s'.ing.waitLeft - 1 = 0) ∧
      (s''.ing.q.length < s''.cfg.depth ∧ s''.ing.free ≠ [])) ∧
    (let s := waitingServed (cfgB 3) 2 BusIn.quiet
     CoreInv s ∧ s.ing.rxState = .pubWait ∧ syncOut (ingBegin .shift s).ing.reqSync ≠ s.ing.reqSeen ∧ RequestPending s ∧
       (List.replicate 2 BusIn.quiet).length = s.ing.waitLeft.toNat) ∧
    (CoreInv (waiting (cfgB 3) 3 BusIn.quiet) ∧
      (List.replicate 3 BusIn.quiet).length = (waiting (cfgB 3) 3 BusIn.quiet).ing.waitLeft.toNat ∧
      ∀ bus ∈ List.replicate 3 BusIn.quiet, bus.inValid = false ∧ bus.inEnd = false) :=
  ⟨by decide, ⟨coreInv_of_idle rfl (by decide) (by decide) (by decide), by decide⟩, waiting_inv, by decide, by decide⟩
theorem witness_BusEndsWait :
    let s := waiting (cfgB 3) 3 BusIn.quiet
    let s' := waiting cfg1 3 BusIn.quiet
    s.ing.rxState = .pubWait ∧ syncOut s.ing.reqSync = s.ing.reqSeen ∧ s.cfg.depth ≤ s.ing.q.length ∧
      Memory.wf Space.arena.unlisted s.arena ∧ s.ing.fillIdx < s.cfg.nbuf ∧ s.cfg.Legal ∧ s.cfg.cap ≠ 1 ∧
      s'.ing.rxState = .pubWait ∧ syncOut s'.ing.reqSync = s'.ing.reqSeen ∧ s'.cfg.depth ≤ s'.ing.q.length ∧
      Memory.wf Space.arena.unlisted s'.arena ∧ s'.ing.fillIdx < s'.cfg.nbuf ∧ s'.cfg.Legal ∧ s'.cfg.cap = 1 ∧
      s'.cfg.policy = .bounded ∧ s'.cfg.pubTimeout ≠ 0 := by decide
theorem witness_PublishAlwaysCompletes :
    let s := requesting cfgT 0
    s.cfg.Legal ∧ OwnershipPartition s ∧ s.ing.q.length ≤ s.cfg.depth := by decide
theorem witness_ReadableBuffersUnwritten :
    (CoreInv (decoding cfgT .pixel 3 [0xAE, 0x12, 0x34, 0x56]) ∧ (decoding cfgT .pixel 3 [0xAE, 0x12, 0x34, 0x56]).nextTick ≠ .reset ∧
      Runs (decoding cfgT .pixel 3 [0xAE, 0x12, 0x34, 0x56]) ∧ (decoding cfgT .pixel 3 [0xAE, 0x12, 0x34, 0x56]).ren.renState = .decode) ∧
    (CoreInv (waiting (cfgB 3) 3 BusIn.quiet) ∧ (waiting (cfgB 3) 3 BusIn.quiet).nextTick ≠ .reset ∧ Runs (waiting (cfgB 3) 3 BusIn.quiet) ∧
      0 ∈ (waiting (cfgB 3) 3 BusIn.quiet).ing.q) ∧
    (CoreInv (answered cfgT true) ∧ (answered cfgT true).nextTick ≠ .reset ∧ Runs (answered cfgT true) ∧
      (answered cfgT true).ing.heldValid = true ∧ ¬RequestPending (answered cfgT true) ∧ AnswerPending (answered cfgT true) ∧
      (answered cfgT true).ing.ackOk = true) :=
  ⟨⟨decoding_inv, by decide, by decide, by decide⟩, ⟨waiting_inv, by decide, by decide, by decide⟩,
    answered_inv, by decide, by decide, by decide, by decide, by decide, by decide⟩
theorem witness_BoundedQueueOrder :
    let s := waiting (cfgB 3) 3 BusIn.quiet
    CoreInv s ∧ s.cfg.policy = .bounded ∧ s.nextTick ≠ .reset ∧ Runs s := ⟨waiting_inv, by decide, by decide, by decide⟩
theorem witness_CountersAndConfiguration :
    (let s := waiting (cfgB 3) 3 BusIn.quiet
     CoreInv s ∧ s.nextTick ≠ .reset ∧ Runs s ∧ s.nextTick = .clkI BusIn.quiet .shift) ∧
    (let s := emitting cfgT [1, 2, 4, 8] 0 0 (.cmd firstRect) TpIn.quiet
     CoreInv s ∧ s.nextTick ≠ .reset ∧ Runs s ∧ s.nextTick = .clkR TpIn.quiet .shift ∧ s.ren.renState ≠ .decode ∧
       s.ren.renState ≠ .clear) :=
  ⟨⟨waiting_inv, by decide, by decide, by decide⟩, offering_inv, by decide, by decide, by decide, by decide, by decide⟩
theorem witness_HandshakeDiscipline :
    let s := answered cfgT true
    CoreInv s ∧ s.nextTick ≠ .reset ∧ Runs s := ⟨answered_inv, by decide, by decide⟩
/-- REN polls an empty exchange (R303): its first request has just been made. -/
def polling : State :=
  let s := State.resetOf cfgT
  { s with ren := { s.ren with renState := .acquire, clrPtr := cfgT.cap, reqTgl := true } }

theorem polling_inv : CoreInv polling :=
  coreInv_of_idle rfl (by decide) (by decide) (by decide)

/-- Quiet cycles of the two clocks by turns. -/
def byTurns (n : Nat) : Tick := if n % 2 = 0 then .clkI BusIn.quiet .shift else .clkR TpIn.quiet .shift

/-- The state after `n` of them; two polls, 20 cycles, lead back to `polling`. -/
def pollAfter : Nat → State
  | 0 => polling
  | n + 1 =>
    match step { pollAfter n with inputs := [byTurns n] } with
    | .next t => t
    | _ => pollAfter n

theorem pollAfter_step : ∀ r < 20, answers (step { pollAfter r with inputs := [byTurns r] }) (· == pollAfter ((r + 1) % 20)) := by
  decide +kernel

/-- An infinite run: REN polls for ever. -/
theorem polling_run : Run byTurns (fun n => pollAfter (n % 20)) := by
  intro n
  have h := pollAfter_step (n % 20) (Nat.mod_lt _ (by decide))
  have e : byTurns (n % 20) = byTurns n := by simp [byTurns, show n % 20 % 2 = n % 2 by omega]
  rw [e, show (n % 20 + 1) % 20 = (n + 1) % 20 by omega] at h
  unfold answers at h
  split at h
  · next t ht => rw [ht, eq_of_beq h]
  · cases h

theorem byTurns_clocksRun : ClocksRun byTurns := fun n =>
  ⟨⟨2 * n, by omega, BusIn.quiet, .shift, by decide, by simp [byTurns]⟩,
    ⟨2 * n + 1, by omega, TpIn.quiet, .shift, by decide, by simp [byTurns, Nat.add_mod]⟩⟩

theorem polling_fair : FairHandshake byTurns (fun n => pollAfter (n % 20)) := by
  refine ⟨fun n h => absurd (h (20 * n + 5) (by omega)) ?_, fun n h => absurd (h (20 * n) (by omega)) ?_⟩
  · show ¬RequestPending (pollAfter ((20 * n + 5) % 20))
    rw [show (20 * n + 5) % 20 = 5 by omega]
    decide +kernel
  · show ¬AnswerPending (pollAfter (20 * n % 20))
    rw [show 20 * n % 20 = 0 by omega]
    decide +kernel

theorem witness_RequestServedInTime :
    (CoreInv (requesting cfgT 0) ∧ RequestPending (requesting cfgT 0) ∧
      [BusIn.quiet, BusIn.quiet, BusIn.quiet].length = (requesting cfgT 0).cfg.syncStages + 1) ∧
    (CoreInv (answered cfgT true) ∧ AnswerPending (answered cfgT true) ∧
      [TpIn.quiet, TpIn.quiet, TpIn.quiet].length = (answered cfgT true).cfg.syncStages + 1) ∧
    (CoreInv (pollAfter (0 % 20)) ∧ Run byTurns (fun n => pollAfter (n % 20)) ∧
      FairHandshake byTurns (fun n => pollAfter (n % 20)) ∧ ClocksRun byTurns ∧
      RequestPending (pollAfter (0 % 20)) ∧ AnswerPending (pollAfter (5 % 20))) :=
  ⟨⟨requesting_inv, by decide, by decide⟩, ⟨answered_inv, by decide, by decide⟩,
    ⟨polling_inv, polling_run, polling_fair, byTurns_clocksRun, by decide, by decide +kernel⟩⟩
theorem witness_TakeAnswerEffect :
    (answered cfgT true).ren.renState = .acquire ∧ syncOut (answered cfgT true).ren.ackSync ≠ (answered cfgT true).ren.ackSeen ∧
    (answered cfgT true).ing.ackOk = true ∧ (answered cfgT false).ren.renState = .acquire ∧
    syncOut (answered cfgT false).ren.ackSync ≠ (answered cfgT false).ren.ackSeen ∧ (answered cfgT false).ing.ackOk = false ∧
    (requesting cfgT 2).ren.renState = .acquire ∧ syncOut (requesting cfgT 2).ren.ackSync = (requesting cfgT 2).ren.ackSeen := by decide
theorem witness_RenTransitions :
    (let s := answered cfgT true; s.nextTick ≠ .reset ∧ Runs s) ∧
    (let s := committing cfgT [1, 2, 4, 8] [] false; s.nextTick ≠ .reset ∧ Runs s ∧ s.ren.renState = .commit) := by decide
theorem witness_DecodeBeforeEmit :
    (let s := decoding cfgT .pixel 3 [1, 2, 3, 4]; s.nextTick ≠ .reset ∧ Runs s ∧ s.ren.renState = .decode) ∧
    (let s := emitting cfgT [1, 2, 4, 8] 0 0 .idle TpIn.quiet; s.nextTick ≠ .reset ∧ Runs s ∧ s.ren.renState = .emit) := by decide
theorem witness_PowerGatesNothing : Runs (decoding cfgT .idle 0 [0xAE, 0, 0, 0]) := by decide
theorem witness_ScaledRowPixels : 7 < cfgT.w * cfgT.sx := by decide
theorem witness_RectangleOfRow : (State.resetOf cfgT).cfg.Legal ∧ 7 < cfgT.h ∧ 1 < cfgT.sy := by decide
/-- The phases of R320 and R321, each at its boundary. -/
theorem witness_EmitStep :
    (let s := emitting cfgT [1, 2, 4, 8] 8 0 .idle TpIn.quiet; s.ren.renState = .emit ∧ s.ren.tp = .idle ∧ s.ren.rowY = s.cfg.h) ∧
    (let s := emitting { cfgT with dirtyEn := true } [1, 2, 4, 8] 7 0 .idle TpIn.quiet
     let s := { s with ren := { s.ren with pb := bitmap [1, 2, 4, 8], prevValid := true } }
     s.ren.rowY < s.cfg.h ∧ s.ren.rowDy = 0 ∧ s.skipRow s.ren.rowY = true) ∧
    (let s := emitting cfgT [1, 2, 4, 8] 7 1 .idle TpIn.quiet
     s.ren.rowY < s.cfg.h ∧ ¬(s.ren.rowDy = 0 ∧ s.skipRow s.ren.rowY = true)) ∧
    (let s := emitting cfgT [1, 2, 4, 8] 0 0 (.cmd firstRect) TpIn.quiet; s.ren.tp = .cmd firstRect ∧ 0 < firstRect.bytes.length) ∧
    (let s := emitting cfgT [1, 2, 4, 8] 0 0 (.data firstRect 2) TpIn.quiet; s.ren.tp = .data firstRect 2 ∧ 2 + 1 < firstRect.bytes.length) ∧
    (let s := emitting cfgT [1, 2, 4, 8] 0 0 (.data firstRect 3) TpIn.quiet; s.ren.tp = .data firstRect 3 ∧ 3 + 1 = firstRect.bytes.length) ∧
    (let s := emitting cfgT [1, 2, 4, 8] 0 0 (.data firstRect 0) TpIn.quiet; s.ren.tp = .data firstRect 0 ∧ 0 < firstRect.bytes.length) ∧
    (let s := emitting cfgT [1, 2, 4, 8] 0 0 .resp ⟨false, false, true, true⟩; s.ren.renState = .emit ∧ s.ren.tp = .resp) ∧
    (let s := emitting cfgT [1, 2, 4, 8] 0 0 .resp TpIn.quiet; s.ren.tp = .resp ∧ TpIn.quiet.respValid = false) ∧
    (let s := emitting cfgT [1, 2, 4, 8] 0 0 .resp ⟨false, false, true, false⟩; s.ren.renState = .emit ∧ s.ren.tp = .resp) := by decide
theorem witness_TransportPortsStable :
    (let s := emitting cfgT [1, 2, 4, 8] 0 0 (.cmd firstRect) TpIn.quiet
     CoreInv s ∧ s.nextTick = .clkR TpIn.quiet .shift ∧ TpIn.quiet.cmdReady = false ∧ Runs s ∧ s.tpCmdO = some firstRect) ∧
    (let s := emitting cfgT [1, 2, 4, 8] 0 0 (.data firstRect 3) TpIn.quiet
     CoreInv s ∧ s.nextTick = .clkR TpIn.quiet .shift ∧ TpIn.quiet.dataReady = false ∧ Runs s ∧ s.tpDataO = some (0x00, true)) :=
  ⟨⟨offering_inv, by decide, by decide, by decide, by decide⟩, sending_inv, by decide, by decide, by decide, by decide⟩
theorem witness_CommitStep : (committing cfgT [1, 2, 4, 8] [] false).ren.renState = .commit ∧ cfgT.dirtyEn = true ∧
    ({ cfgT with dirtyEn := false } : Config).dirtyEn = false ∧
    (committing { cfgT with dirtyEn := false } [1, 2, 4, 8] [] false).ren.renState = .commit := by decide
theorem witness_AbortStep :
    ({ State.resetOf cfgT with ren := { (State.resetOf cfgT).ren with renState := .abort } } : State).ren.renState = .abort := rfl
theorem witness_DiagnosticPulse :
    (let s := decoding cfgT .idle 0 [0x41, 0, 0, 0]
     Runs s ∧ s.nextTick = .clkR TpIn.quiet .shift ∧ s.ren.renState = .decode ∧ s.fetchInstr = .ignored 0x41) ∧
    (let s := decoding cfgT .idle 0 [0xAF, 0, 0, 0]
     Runs s ∧ s.nextTick = .clkR TpIn.quiet .shift ∧ s.fetchInstr = .displayOn) ∧
    (let s := waiting (cfgB 3) 3 BusIn.quiet
     Runs s ∧ s.nextTick = .clkI BusIn.quiet .shift) := by decide
theorem witness_TpBreachRefused :
    let s := emitting cfgT [1, 2, 4, 8] 0 0 (.data firstRect 3) ⟨false, true, true, false⟩
    s.cfg.Legal ∧ TpBreach s := ⟨by decide, ⟨rfl, by decide⟩⟩
theorem witness_EncodeByteMultiple : ({ cfgT with bpp := 24 } : Config).bpp = 24 ∧ 0 < [true].length ∧ 2 < 24 / 8 := by decide
theorem witness_EncodePacked : ({ cfgT with bpp := 2 } : Config).bpp = 2 ∧ 1 < (encodeRow { cfgT with bpp := 2 } (List.replicate 6 true)).length ∧
    3 < 8 / 2 ∧ 1 < 2 := by decide
theorem witness_ResetMeetsCoreInv : cfgT.Legal ∧ (cfgB 3).Legal := by decide
theorem witness_StepKeepsCoreInv :
    let s := decoding cfgT .pixel 3 [0xAE, 0x12, 0x34, 0x56]
    CoreInv s ∧ Runs s := ⟨decoding_inv, by decide⟩
theorem witness_StepNeverStops :
    let s := emitting cfgT [1, 2, 4, 8] 0 0 (.cmd firstRect) TpIn.quiet
    CoreInv s ∧ ¬TpBreach s := ⟨offering_inv, fun h => nomatch h.1⟩
theorem witness_StepKeepsPassShows :
    let s := emitting cfgT [1, 2, 4, 8] 0 0 .idle TpIn.quiet
    CoreInv s ∧ PassShows s ∧ Runs s := ⟨emitting_inv, by decide, by decide⟩
theorem witness_CommittedPassShows :
    (let s := committing cfgT [1, 2, 4, 8] [] false
     s.cfg.Legal ∧ PassShows s ∧ s.ren.renState = .commit ∧ s.ren.prevValid = false) ∧
    (let s := committing cfgT [1, 3, 4, 8] [1, 2, 4, 8] true
     s.cfg.Legal ∧ PassShows s ∧ s.ren.renState = .commit ∧ s.cfg.dirtyEn = true ∧ s.ren.prevValid = true ∧ s.rowEq 0 = false ∧
       ∀ z < s.cfg.h, z ≠ 0 → s.rowEq z = true) :=
  ⟨⟨by decide, by decide, rfl, rfl⟩, by decide, by decide, rfl, rfl, rfl, by decide, by decide⟩
theorem witness_EmissionOrder :
    let s := emitting cfgT [1, 2, 4, 8] 0 0 .idle TpIn.quiet
    CoreInv s ∧ PassShows s ∧ (s.ren.renState = .emit ∨ s.ren.renState = .commit) := ⟨emitting_inv, by decide, .inl rfl⟩

end Sys2Proof.Tests
end

section
/-! The refusal of an illegal parameter set (00_scope.md R11, R12; 30_encoding.md R153). -/

namespace Sys2Proof.Machine
open Sys2Proof

theorem step_eq_refused {s : State} (h : ¬s.cfg.Legal) : step s = .refused .illegalParameters := if_neg h

/-- A byte in no code set takes no argument. -/
theorem isOneArg_ne_true_of_not_code {m : CmdMap} {b : Byte} (h : ∀ k, b ∉ m.codes k) : m.isOneArg b ≠ true := fun hb =>
  have ⟨k, hk⟩ := (m.isOneArg_iff b).1 hb
  h k hk

/-- R11: a queue that drops its oldest frame holds one frame. -/
theorem depth_eq_one_of_dropOldest {c : Config} (h : c.Legal) (hp : c.policy = .dropOldest) : c.depth = 1 := by
  obtain ⟨_, _, _, ⟨_, hpolicy, _⟩, _⟩ := Config.legal_parts h
  exact hpolicy.resolve_left (by simp [hp])

/-- Settles O24: each breach contradicts the check of a legal set that it names, and a step of an illegal set is refused. -/
theorem illegalParametersRefused : Obligations.IllegalParametersRefused := by
  intro s hbad
  refine step_eq_refused fun hl => ?_
  obtain ⟨⟨hw, hh, hh8, hsx, hsy⟩, ⟨hx, hy, hdw, hdh, hrow⟩, hbpp, ⟨hdepth, _, htimeout, hsync⟩, hmap⟩ :=
    Config.legal_parts hl
  rcases hbad with b | b | b | b | b | b | b | b | ⟨hp, b⟩ | b | b | b | b | b | b | b | b | b | ⟨k, b⟩ |
    ⟨k, k', c, hne, hc, hc'⟩
  · exact hx.not_gt b
  · exact hy.not_gt b
  · exact hdw.not_gt b
  · exact hdh.not_gt b
  · exact hrow.not_gt b
  · exact (CmdMap.legal_sets hmap).1 b
  · exact isOneArg_ne_true_of_not_code (fun k => (CmdMap.off_on_not_code hmap k).1) b
  · exact isOneArg_ne_true_of_not_code (fun k => (CmdMap.off_on_not_code hmap k).2) b
  · exact b (depth_eq_one_of_dropOldest hl hp)
  · exact Nat.ne_of_gt hw b
  · exact hh.not_gt b
  · exact b hh8
  · exact Nat.ne_of_gt hsx b
  · exact Nat.ne_of_gt hsy b
  · exact Nat.ne_of_gt hdepth b
  · exact b hbpp
  · exact htimeout.not_ge b
  · exact hsync.not_gt b
  · exact CmdMap.codes_ne_nil hmap k b
  · exact hne (CmdMap.codes_disjoint hmap hc hc')

end Sys2Proof.Machine
end

section
/-! The page packing (20_memory.md R100, R101): a pixel's bit of its byte, and the mapping from pixels to bits and back. -/

namespace Sys2Proof.Machine
open Sys2Proof

/-- R100: a pixel is lit when bit `y mod 8` of its byte is 1. -/
theorem pixel_eq_true_iff (c : Config) (m : Nat → Byte) (x y : Nat) :
    pixel c m x y = true ↔ (m (pixelByte c x y)).toNat / 2 ^ pixelBit y % 2 = 1 := by
  simp only [pixel, BitVec.getLsbD, Nat.testBit_eq_decide_div_mod_eq, decide_eq_true_eq]

theorem pixelBit_lt (y : Nat) : pixelBit y < 8 := Nat.mod_lt y (by decide)

/-- R101 after R100: column `x` is below `W`, so the byte's index determines the page and the column. -/
theorem dataPixel_pixelByte {c : Config} {x : Nat} (hx : x < c.w) (y : Nat) :
    dataPixel c (pixelByte c x y) (pixelBit y) = (x, y) := by
  have hcolumn : pixelByte c x y % c.w = x := by
    rw [pixelByte, Nat.mul_add_mod', Nat.mod_eq_of_lt hx]
  have hpage : pixelByte c x y / c.w = y / 8 := by
    rw [pixelByte, Nat.add_comm, Nat.add_mul_div_right _ _ (Nat.zero_lt_of_lt hx), Nat.div_eq_of_lt hx, Nat.zero_add]
  rw [dataPixel, hcolumn, hpage, pixelBit, Nat.div_add_mod]

/-- R101: bit `k` of a byte of page `p` is a pixel of row `8 * p + k`, so it is in page `p`. -/
theorem dataPixel_page (c : Config) (i : Nat) {k : Nat} (hk : k < 8) : (dataPixel c i k).2 / 8 = i / c.w := by
  rw [dataPixel, Nat.mul_add_div (by decide), Nat.div_eq_of_lt hk, Nat.add_zero]

/-- R100 after R101, for the byte. -/
theorem pixelByte_dataPixel (c : Config) (i : Nat) {k : Nat} (hk : k < 8) :
    pixelByte c (dataPixel c i k).1 (dataPixel c i k).2 = i := by
  rw [pixelByte, dataPixel_page c i hk, dataPixel, Nat.div_add_mod']

/-- R100 after R101, for the bit. -/
theorem pixelBit_dataPixel (c : Config) (i : Nat) {k : Nat} (hk : k < 8) : pixelBit (dataPixel c i k).2 = k := by
  rw [pixelBit, dataPixel, Nat.mul_add_mod, Nat.mod_eq_of_lt hk]

theorem dataPixel_column_lt {c : Config} (h : c.Legal) (i k : Nat) : (dataPixel c i k).1 < c.w := by
  obtain ⟨⟨hw, _⟩, _⟩ := Config.legal_parts h
  exact Nat.mod_lt i hw

/-- A byte below `CAP` lies in one of the `H/8` pages, so its pixels lie in the bitmap's rows. -/
theorem dataPixel_row_lt {c : Config} (h : c.Legal) {i k : Nat} (hi : i < c.cap) (hk : k < 8) :
    (dataPixel c i k).2 < c.h := by
  have hpage : i / c.w < c.h / 8 := Nat.div_lt_of_lt_mul (by rwa [Nat.mul_comm, ← Config.cap_eq h])
  rw [← dataPixel_page c i hk] at hpage
  omega

/-- Settles O21: `dataPixel` undoes `pixelByte` and `pixelBit`, which undo it, and each stays inside the bitmap. -/
theorem pagePackingMap : Obligations.PagePackingMap := by
  intro c hc
  refine ⟨pixel_eq_true_iff c, fun x y hx hy => ?_, fun i k hi hk => ?_⟩
  · exact ⟨Config.pixelByte_lt hc hx hy, pixelBit_lt y, dataPixel_pixelByte hx y⟩
  · exact ⟨dataPixel_column_lt hc i k, dataPixel_row_lt hc hi hk, pixelByte_dataPixel c i hk, pixelBit_dataPixel c i hk⟩

end Sys2Proof.Machine
end

section
/-! The classification of a byte (30_encoding.md R154, R155): one reading for each line of R154, under that line's condition
alone and not the failure of the lines before it. -/

namespace Sys2Proof.Machine
open Sys2Proof

theorem classify_cmdOff (m : CmdMap) : classify m m.cmdOff = .displayOff := if_pos rfl

/-- R153: `CMD_ON` is not `CMD_OFF`, so R154's first line does not take it. -/
theorem classify_cmdOn {m : CmdMap} (hm : m.legal = true) : classify m m.cmdOn = .displayOn := by
  have hne : m.cmdOn ≠ m.cmdOff := (CmdMap.legal_sets hm).1.symm
  rw [classify, if_neg hne, if_pos rfl]

theorem classify_ignored {m : CmdMap} {b : Byte} (hoff : b ≠ m.cmdOff) (hon : b ≠ m.cmdOn) (hcode : ∀ k, b ∉ m.codes k) :
    classify m b = .ignored b := by
  simp only [classify, if_neg hoff, if_neg hon, CmdMap.oneArgOf?_none.2 hcode]

/-- Settles O16: in IDLE the disjointness of `CMD_OFF`, `CMD_ON` and the code sets makes each condition of R154 decide alone; in
AWAIT_ARG and PIXEL the reading does not look at the byte's value. -/
theorem byteClassification : Obligations.ByteClassification := by
  intro m b hm
  refine ⟨?displayOff, ?displayOn, fun k => classify_code hm, classify_ignored, rfl, rfl⟩
  case displayOff => rintro rfl; exact classify_cmdOff m
  case displayOn => rintro rfl; exact classify_cmdOn hm

end Sys2Proof.Machine
end

section
/-! The effects of the decoder's instructions (40_decoder.md R203 to R218): what each meaning answers in the decoder state of its
Condition, and what `handle_byte` does with a byte in IDLE and in AWAIT_ARG. -/

namespace Sys2Proof.Machine
open Sys2Proof Sys2Proof.Safety

theorem exec_displayOff {s : State} (h : s.dec.decState = .idle) :
    exec .displayOff s = .next { s with dec := { s.dec with power := false, decState := .idle } } := inDecState_eq h

theorem exec_displayOn {s : State} (h : s.dec.decState = .idle) :
    exec .displayOn s = .next { s with dec := { s.dec with power := true, cursor := 0, decState := .pixel } } :=
  inDecState_eq h

theorem exec_oneArg_idle {s : State} (h : s.dec.decState = .idle) (k : OneArg) (c : Byte) :
    exec (k.instr c) s = .next { s with dec := { s.dec with pendingCmd := c, decState := .awaitArg } } :=
  (exec_oneArg k c s).trans (inDecState_eq h)

theorem exec_argument {s : State} (h : s.dec.decState = .awaitArg) (a : Byte) :
    exec (.argument a) s = .next { s with dec := { s.dec with decState := .idle } } := inDecState_eq h

/-- R401: the event ProtocolAnomaly is the diagnostic pulse. -/
theorem exec_ignored {s : State} (h : s.dec.decState = .idle) (b : Byte) : exec (.ignored b) s = .next (s.diag b) :=
  inDecState_eq h

/-- R201: in IDLE the byte's classification decides. -/
theorem handleByte_idle {s : State} (h : s.dec.decState = .idle) (b : Byte) :
    handleByte b s = exec (classify s.cfg.map b) s := by rw [handleByte, h, readByte]

/-- R201: in AWAIT_ARG the byte is the argument. -/
theorem handleByte_awaitArg {s : State} (h : s.dec.decState = .awaitArg) (a : Byte) :
    handleByte a s = .next { s with dec := { s.dec with decState := .idle } } := by
  rw [handleByte, h, readByte, exec_argument h]

theorem handleByte_cmdOff {s : State} (h : s.dec.decState = .idle) :
    handleByte s.cfg.map.cmdOff s = .next { s with dec := { s.dec with power := false, decState := .idle } } := by
  rw [handleByte_idle h, classify_cmdOff, exec_displayOff h]

theorem handleByte_cmdOn {s : State} (hl : s.cfg.Legal) (h : s.dec.decState = .idle) :
    handleByte s.cfg.map.cmdOn s = .next { s with dec := { s.dec with power := true, cursor := 0, decState := .pixel } } := by
  obtain ⟨_, _, _, _, hmap⟩ := Config.legal_parts hl
  rw [handleByte_idle h, classify_cmdOn hmap, exec_displayOn h]

theorem handleByte_code {s : State} (hl : s.cfg.Legal) (h : s.dec.decState = .idle) {k : OneArg} {c : Byte}
    (hc : c ∈ s.cfg.map.codes k) :
    handleByte c s = .next { s with dec := { s.dec with pendingCmd := c, decState := .awaitArg } } := by
  obtain ⟨_, _, _, _, hmap⟩ := Config.legal_parts hl
  rw [handleByte_idle h, classify_code hmap hc, exec_oneArg_idle h]

theorem handleBytes_pair {a b : Byte} {s t u : State} (ha : handleByte a s = .next t) (hb : handleByte b t = .next u) :
    handleBytes [a, b] s = .next u := by
  rw [handleBytes, ha, Answer.andThen_next, handleBytes, hb, Answer.andThen_next, handleBytes]

/-- R215: no default code is in 0x41 to 0x7F. -/
theorem codes_standard_outside (k : OneArg) : ∀ c ∈ CmdMap.standard.codes k, c < 0x41 ∨ 0x7F < c := by
  cases k <;> decide

theorem classify_standard_ignored {b : Byte} (hlo : 0x41 ≤ b) (hhi : b ≤ 0x7F) : classify CmdMap.standard b = .ignored b := by
  refine classify_ignored ?off ?on fun k hb => ?code
  case off => rintro rfl; exact absurd hhi (by decide)
  case on => rintro rfl; exact absurd hhi (by decide)
  case code =>
    rcases codes_standard_outside k b hb with h | h
    · exact BitVec.not_lt.2 hlo h
    · exact BitVec.not_lt.2 hhi h

/-- Settles O1: R154's first line reads `CMD_OFF`, and the meaning is R203's. -/
theorem displayOffEffect : Obligations.DisplayOffEffect :=
  ⟨rfl, fun s hs => ⟨classify_cmdOff s.cfg.map, exec_displayOff hs⟩⟩

/-- Settles O2: under a legal map `CMD_ON` is read as DISPLAY_ON, whose meaning is R204's. -/
theorem displayOnEffect : Obligations.DisplayOnEffect := by
  refine ⟨rfl, fun s hl hs => ⟨?_, exec_displayOn hs⟩⟩
  obtain ⟨_, _, _, _, hmap⟩ := Config.legal_parts hl
  exact classify_cmdOn hmap

/-- Settles O3: the eleven commands share one meaning, so one argument over the command serves each code set. -/
theorem oneArgumentCommandEffect : Obligations.OneArgumentCommandEffect := by
  refine ⟨rfl, fun b => classify_standard_ignored, fun c a s hl hs => ?_⟩
  obtain ⟨_, _, _, _, hmap⟩ := Config.legal_parts hl
  have code (k : OneArg) (hc : c ∈ s.cfg.map.codes k) : readByte s.cfg.map .idle c = k.instr c ∧
      exec (k.instr c) s = .next { s with dec := { s.dec with pendingCmd := c, decState := .awaitArg } } :=
    ⟨classify_code hmap hc, exec_oneArg_idle hs k c⟩
  exact ⟨code .contrast, code .muxRatio, code .displayOffset, code .chargePump, code .addrMode, code .segRemap, code .comPins,
    code .precharge, code .vcom, code .clockDiv, code .startLine, handleByte_awaitArg rfl a⟩

/-- Settles O4: AWAIT_ARG alone makes the byte an argument, and the meaning does not look at it. -/
theorem argumentEffect : Obligations.ArgumentEffect := fun a _ hs => ⟨rfl, exec_argument hs a⟩

/-- Settles O5: a byte that fails every line of R154 is IGNORED, and the meaning raises R401's event. -/
theorem ignoredEffect : Obligations.IgnoredEffect :=
  ⟨rfl, rfl, fun b _ hs hoff hon hcode => ⟨classify_ignored hoff hon hcode, exec_ignored hs b⟩⟩

/-- Settles O17: the code waits in AWAIT_ARG and its argument returns to IDLE; neither byte's effect names SB, `power` or the
cursor. -/
theorem oneArgumentLaw : Obligations.OneArgumentLaw := by
  intro c a s hl hs hc
  obtain ⟨k, hk⟩ := (s.cfg.map.isOneArg_iff c).1 hc
  refine ⟨{ s with dec := { s.dec with pendingCmd := c, decState := .idle } }, ?_, rfl, fun _ => rfl, rfl, rfl⟩
  exact handleBytes_pair (handleByte_code hl hs hk) (handleByte_awaitArg rfl a)

end Sys2Proof.Machine
end

section
/-! The data bytes (40_decoder.md R218 to R222): the state that PIXEL_DATA leaves, the runs that stay in PIXEL, and the page packing
of a stream. -/

namespace Sys2Proof.Machine
open Sys2Proof Sys2Proof.Safety

/-- The state that PIXEL_DATA with byte `d` leaves (R218). -/
def State.storePixel (s : State) (d : Byte) : State :=
  { s with dec := { s.dec with
    sb := Memory.write Space.sb.unlisted s.dec.sb s.dec.cursor d, cursor := cursorNext s.cfg s.dec.cursor } }

@[simp] theorem State.storePixel_cursor (s : State) (d : Byte) :
    (s.storePixel d).dec.cursor = cursorNext s.cfg s.dec.cursor := rfl

theorem State.storePixel_sb_wf {s : State} (h : Memory.wf Space.sb.unlisted s.dec.sb) (d : Byte) :
    Memory.wf Space.sb.unlisted (s.storePixel d).dec.sb := Memory.write_wf _ _ _ _ h

theorem State.readSb_storePixel_cursor {s : State} {a : Nat} (h : Memory.wf Space.sb.unlisted s.dec.sb)
    (ha : s.dec.cursor = a) (d : Byte) : (s.storePixel d).readSb a = d := ha ▸ State.readSb_write_eq h

theorem State.readSb_storePixel_ne {s : State} {a : Nat} (h : a ≠ s.dec.cursor) (d : Byte) :
    (s.storePixel d).readSb a = s.readSb a := State.readSb_write_ne h

theorem exec_pixelData {s : State} (h : s.dec.decState = .pixel) (hc : s.dec.cursor < s.cfg.cap) (d : Byte) :
    exec (.pixelData d) s = .next (s.storePixel d) := execPixelData_eq h hc

/-- R201: in PIXEL the byte is a data byte. -/
theorem handleByte_pixel {s : State} (h : s.dec.decState = .pixel) (hc : s.dec.cursor < s.cfg.cap) (d : Byte) :
    handleByte d s = .next (s.storePixel d) := by rw [handleByte, h, readByte, exec_pixelData h hc]

theorem handleByte_stores_first {s : State} (hl : s.cfg.Legal) (hwf : Memory.wf Space.sb.unlisted s.dec.sb)
    (hs : s.dec.decState = .pixel) (hc : s.dec.cursor = 0) (d : Byte) : ∃ t, handleByte d s = .next t ∧ t.readSb 0 = d :=
  ⟨s.storePixel d, handleByte_pixel hs (hc ▸ Config.cap_pos hl) d, State.readSb_storePixel_cursor hwf hc d⟩

theorem cursorNext_eq_ite {c : Config} {n : Nat} (h : n < c.cap) : cursorNext c n = if n + 1 = c.cap then 0 else n + 1 := by
  rw [cursorNext]
  split
  · next hwrap => rw [hwrap, Nat.mod_self]
  · next hne => exact Nat.mod_eq_of_lt (by omega)

/-- Settles O6: the state that PIXEL_DATA leaves, with R218's `mod` written as the wrap after `CAP-1`. -/
theorem pixelDataEffect : Obligations.PixelDataEffect := by
  intro d s hwf hs hc
  refine ⟨rfl, s.storePixel d, exec_pixelData hs hc d, ?_, State.readSb_storePixel_cursor hwf rfl d,
    fun a ha => State.readSb_storePixel_ne ha d⟩
  rw [← cursorNext_eq_ite hc]
  rfl

/-! ## The runs that stay in PIXEL (R220) -/

theorem handleByte_keeps_pixel {b : Byte} {s t : State} (hs : s.dec.decState = .pixel) (h : handleByte b s = .next t) :
    t.dec.decState = .pixel := by
  rw [handleByte, hs, readByte] at h
  obtain ⟨-, -, rfl⟩ := execPixelData_next h
  exact hs

/-- What one rule of REN does to the decoder: DECODE handles the fetched byte, and every other state writes SB at most (R200,
R301). -/
theorem renRule_dec {tp : TpIn} {s t : State} (h : renRule tp s = .next t) :
    (s.ren.renState = .decode ∧ ∃ u, handleByte s.fetchByte s = .next u ∧ t.dec = u.dec) ∨
    (s.ren.renState ≠ .decode ∧ t.dec = { s.dec with sb := t.dec.sb }) := by
  unfold renRule at h
  split at h
  · next hr => obtain ⟨-, rfl⟩ := renClear_next h; exact .inr ⟨by simp [hr], rfl⟩
  · next hr =>
    cases h
    rcases renAcquire_cases s with ⟨-, e⟩ | ⟨-, -, e⟩ | ⟨-, -, e⟩ <;> rw [e] <;> exact .inr ⟨by simp [hr], rfl⟩
  · next hr =>
    obtain ⟨-, -, u, hu, rfl⟩ := renDecode_next h
    exact .inl ⟨hr, u, hu, rfl⟩
  · next hr =>
    refine .inr ⟨by simp [hr], ?_⟩
    rcases renEmit_next h with ⟨-, h⟩ | ⟨-, rfl⟩ | ⟨r, -, rfl⟩ | ⟨r, i, -, rfl⟩ | ⟨-, rfl⟩
    · rcases emitRow_next h with ⟨-, rfl⟩ | ⟨-, -, -, rfl⟩ | ⟨-, -, rfl⟩ <;> rfl
    · rfl
    · rfl
    · rfl
    · rw [takeAnswer_dec]
  · next hr => cases h; exact .inr ⟨by simp [hr], rfl⟩
  · next hr => cases h; exact .inr ⟨by simp [hr], rfl⟩

theorem renRule_keeps_pixel {tp : TpIn} {s t : State} (hs : s.dec.decState = .pixel) (h : renRule tp s = .next t) :
    t.dec.decState = .pixel := by
  rcases renRule_dec h with ⟨-, u, hu, e⟩ | ⟨-, e⟩
  · rw [e]; exact handleByte_keeps_pixel hs hu
  · rw [e]; exact hs

/-- Settles O18: ING's cycle leaves the decoder alone, and in REN's cycle only a data byte is handled. -/
theorem pixelIsAbsorbing : Obligations.PixelIsAbsorbing := by
  refine ⟨fun s t hs hne h => ?_, fun s hs => by rw [State.fetchInstr, hs, readByte]⟩
  rw [← State.popTick_dec s] at hs
  obtain ⟨-, hrun⟩ := step_next h
  rcases runTick_next hrun with ⟨bus, y, -, hi⟩ | ⟨tp, y, -, hr⟩ | ⟨hreset, -⟩
  · obtain ⟨-, hdec, -⟩ := ingCycle_keeps hi
    rw [hdec]; exact hs
  · obtain ⟨-, u, hu, rfl⟩ := renCycle_next hr
    exact renRule_keeps_pixel (s := renBegin y s.popTick) (t := u) hs hu
  · exact absurd hreset hne

/-- Settles O19: DISPLAY_OFF stays in IDLE, so DISPLAY_ON follows it, and the data byte after them is stored at cursor 0. -/
theorem cursorResetLaw : Obligations.CursorResetLaw := by
  intro d s hl hwf hs
  have hon := handleByte_cmdOn (s := { s with dec := { s.dec with power := false, decState := .idle } }) hl rfl
  refine ⟨_, handleBytes_pair (handleByte_cmdOff hs) hon, rfl, rfl, rfl, handleByte_stores_first ?legal ?wf rfl rfl d⟩
  case legal => exact hl
  case wf => exact hwf

/-! ## The page packing of a stream (R222) -/

theorem handleBytes_append (xs ys : List Byte) (s : State) :
    handleBytes (xs ++ ys) s = (handleBytes xs s).andThen (handleBytes ys) := by
  induction xs generalizing s with
  | nil => rfl
  | cons x xs ih =>
    rw [List.cons_append, handleBytes, handleBytes]
    cases handleByte x s with
    | next t => exact ih t
    | fault f => rfl
    | refused r => rfl

theorem handleBytes_concat {xs : List Byte} {s t : State} (h : handleBytes xs s = .next t) (d : Byte) :
    handleBytes (xs ++ [d]) s = handleByte d t := by
  rw [handleBytes_append, h, Answer.andThen_next, handleBytes]
  cases handleByte d t <;> rfl

/-- `t` is `s` after the data bytes `ds` from cursor 0: they fill SB from index 0, and the decoder stands after them in PIXEL. -/
structure Packed (ds : List Byte) (s t : State) : Prop where
  cfg : t.cfg = s.cfg
  sb_wf : Memory.wf Space.sb.unlisted t.dec.sb
  decState : t.dec.decState = .pixel
  cursor : t.dec.cursor = ds.length % s.cfg.cap
  stored : ∀ i (h : i < ds.length), t.readSb i = ds[i]
  kept : ∀ i, ds.length ≤ i → t.readSb i = s.readSb i

theorem Packed.nil {s : State} (hwf : Memory.wf Space.sb.unlisted s.dec.sb) (hs : s.dec.decState = .pixel)
    (hc : s.dec.cursor = 0) : Packed [] s s where
  cfg := rfl
  sb_wf := hwf
  decState := hs
  cursor := by simp [hc]
  stored := by simp
  kept := fun _ _ => rfl

theorem Packed.cursor_lt {ds : List Byte} {s t : State} (h : Packed ds s t) (hl : s.cfg.Legal) : t.dec.cursor < t.cfg.cap := by
  rw [h.cursor, h.cfg]
  exact Nat.mod_lt _ (Config.cap_pos hl)

/-- While SB is not full the next byte is stored at the index of its place in the stream. -/
theorem Packed.storePixel {ds : List Byte} {s t : State} (h : Packed ds s t) (hn : ds.length < s.cfg.cap) (d : Byte) :
    Packed (ds ++ [d]) s (t.storePixel d) := by
  have hcur : t.dec.cursor = ds.length := h.cursor.trans (Nat.mod_eq_of_lt hn)
  refine ⟨h.cfg, State.storePixel_sb_wf h.sb_wf d, h.decState, ?cursor, fun i hi => ?stored, fun i hi => ?kept⟩
  case cursor => simp [cursorNext, hcur, h.cfg]
  case stored =>
    rw [List.length_append, List.length_singleton] at hi
    rcases Nat.lt_succ_iff_lt_or_eq.1 hi with hlt | rfl
    · rw [State.readSb_storePixel_ne (by omega), h.stored i hlt, List.getElem_append_left hlt]
    · rw [List.getElem_concat_length rfl, State.readSb_storePixel_cursor h.sb_wf hcur]
  case kept =>
    rw [List.length_append, List.length_singleton] at hi
    rw [State.readSb_storePixel_ne (by omega), h.kept i (by omega)]

/-- R222, by induction on the stream from its end: each byte but the last finds SB not full. -/
theorem handleBytes_packed {s : State} (hl : s.cfg.Legal) (hwf : Memory.wf Space.sb.unlisted s.dec.sb)
    (hs : s.dec.decState = .pixel) (hc : s.dec.cursor = 0) (ds : List Byte) (hn : ds.length ≤ s.cfg.cap) :
    ∃ t, handleBytes ds s = .next t ∧ Packed ds s t := by
  induction ds using List.reverseRecOn with
  | nil => exact ⟨s, rfl, .nil hwf hs hc⟩
  | append_singleton ds d ih =>
    rw [List.length_append, List.length_singleton] at hn
    obtain ⟨t, hrun, hpacked⟩ := ih (by omega)
    refine ⟨t.storePixel d, ?_, hpacked.storePixel hn d⟩
    rw [handleBytes_concat hrun, handleByte_pixel hpacked.decState (hpacked.cursor_lt hl)]

/-- Settles O20: the stream is packed, R100 reads a pixel from the byte that holds it, and a full SB leaves the cursor at 0. -/
theorem pagePackingLaw : Obligations.PagePackingLaw := by
  intro ds e s hl hwf hs hc hn
  obtain ⟨t, hrun, hp⟩ := handleBytes_packed hl hwf hs hc ds hn
  refine ⟨t, hrun, hp.decState, hp.cursor, hp.stored, hp.kept, fun x y _ _ h => ?pixel, fun hfull => ?overwrite⟩
  case pixel => rw [pixel, pixelByte, hp.stored _ h, pixelBit]
  case overwrite =>
    have hcur : t.dec.cursor = 0 := by rw [hp.cursor, hfull, Nat.mod_self]
    exact handleByte_stores_first (hp.cfg ▸ hl) hp.sb_wf hp.decState hcur e

end Sys2Proof.Machine
end

section
/-! The operations of the exchange one by one (41_exchange.md R252, R255 to R260): what each answers, and where it does. -/

namespace Sys2Proof.Machine
open Sys2Proof Sys2Proof.Safety

/-! ## store_byte (R255) -/

/-- The receiver after `store_byte(v)`: the byte stored while there is room, and counted up to CAP+1. -/
def State.storedByte (s : State) (v : Byte) : State :=
  { s with
    arena :=
      if s.ing.rxCount < s.cfg.cap then
        Memory.write Space.arena.unlisted s.arena (arenaIndex s.cfg s.ing.fillIdx s.ing.rxCount) v
      else s.arena
    ing := { s.ing with rxCount := min (s.ing.rxCount + 1) (s.cfg.cap + 1) } }

theorem storeByte_eq {s : State} (h : s.ing.fillIdx < s.cfg.nbuf) (v : Byte) : storeByte v s = .next (s.storedByte v) := by
  unfold storeByte State.storedByte
  split
  · next hc => rw [State.writeArena, if_pos ⟨h, hc⟩, Answer.andThen_next]
  · rfl

/-- From CAP on nothing is stored, so the fill buffer's index does not matter. -/
theorem storeByte_full {s : State} (h : s.cfg.cap ≤ s.ing.rxCount) (v : Byte) :
    storeByte v s = .next { s with ing := { s.ing with rxCount := s.cfg.cap + 1 } } := by
  simp only [storeByte, if_neg h.not_gt, Nat.min_eq_right (Nat.succ_le_succ h)]

theorem State.readArena_storedByte_same {s : State} (hwf : Memory.wf Space.arena.unlisted s.arena)
    (hc : s.ing.rxCount < s.cfg.cap) (v : Byte) : (s.storedByte v).readArena s.ing.fillIdx s.ing.rxCount = v := by
  simp only [State.readArena, State.storedByte, if_pos hc, Memory.read_write_eq _ _ _ _ hwf, Option.getD_some]

/-- R104, R255: every byte of the arena but the one at `rx_count` of the fill buffer reads as before. -/
theorem State.readArena_storedByte_ne {s : State} {b i : Nat} (hi : i < s.cfg.cap)
    (hne : (b, i) ≠ (s.ing.fillIdx, s.ing.rxCount)) (v : Byte) : (s.storedByte v).readArena b i = s.readArena b i := by
  unfold State.readArena State.storedByte
  by_cases hc : s.ing.rxCount < s.cfg.cap
  · have hidx : arenaIndex s.cfg b i ≠ arenaIndex s.cfg s.ing.fillIdx s.ing.rxCount := fun e =>
      have ⟨hb, hi'⟩ := arenaIndex_inj hi hc e
      hne (by rw [hb, hi'])
    simp only [if_pos hc, Memory.read_write_ne _ _ _ _ _ hidx]
  · simp only [if_neg hc]

/-- Step D in RX (R250). -/
theorem ingByte_rx {s : State} (h : s.ing.rxState = .rx) (bus : BusIn) :
    ingByte bus s = if bus.inValid then storeByte bus.inByte s else .next s := by
  simp [ingByte, h]

/-- Settles O27: the byte goes to the index of the fill buffer that `rx_count` names, and to no other index of the arena. -/
theorem storeByteEffect : Obligations.StoreByteEffect := by
  intro v s hwf hfill
  refine ⟨fun hc => ⟨s.storedByte v, storeByte_eq hfill v, ?counted, ?stored, fun b i hi hne => ?others⟩,
    fun bus hv hrx => ?stepD, fun hc => storeByte_full hc v⟩
  case counted => rw [State.storedByte, Nat.min_eq_left (by omega)]
  case stored => exact State.readArena_storedByte_same hwf hc v
  case others => exact State.readArena_storedByte_ne hi hne v
  case stepD => rw [ingByte_rx hrx, if_pos hv]

/-! ## push_fill (R258) -/

theorem free_nodup {s : State} (h : FreeRising s) : s.ing.free.Nodup := h.imp Nat.ne_of_lt

/-- Settles O29: the buffer taken is the least of the free list, and taking it from a rising list leaves a rising list. -/
theorem pushFillEffect : Obligations.PushFillEffect := by
  intro s hrise hfree
  obtain ⟨t, ht⟩ := pushFill_completes hfree
  obtain ⟨b, hb, rfl⟩ := pushFill_next ht
  obtain ⟨hmem, hleast⟩ := List.min?_eq_some_iff.1 hb
  refine ⟨b, _, ht, hmem, hleast, rfl, fun x => ?_, hrise.sublist List.erase_sublist⟩
  rw [(free_nodup hrise).mem_erase_iff, and_comm]

/-! ## end_transfer (R256, R257) -/

theorem endTransfer_overrun {s : State} (h : s.ing.rxCount ≠ s.cfg.cap) : endTransfer s = .next (overrun s) := if_neg h

theorem endTransfer_publish {s : State} (h : s.ing.rxCount = s.cfg.cap) : endTransfer s = publish s := if_pos h

/-- Step E in RX (R250). -/
theorem ingEnd_rx {s : State} (h : s.ing.rxState = .rx) (bus : BusIn) :
    ingEnd bus s = if bus.inEnd then endTransfer s else .next s := by
  simp [ingEnd, h]

/-- Settles O28: the size check has two branches, and an overrun is one event and an empty count. -/
theorem endTransferEffect : Obligations.EndTransferEffect := fun _ =>
  ⟨fun bus he hrx => by rw [ingEnd_rx hrx, if_pos he], endTransfer_publish, endTransfer_overrun⟩

/-! ## publish (R259, R260) -/

theorem publish_push {s : State} (hp : s.cfg.policy = .bounded) (hq : s.ing.q.length < s.cfg.depth) :
    publish s = pushFill s := by
  simp only [publish, hp, if_pos hq]

theorem publish_drop {s : State} (hp : s.cfg.policy = .bounded) (hq : s.cfg.depth ≤ s.ing.q.length)
    (ht : s.cfg.pubTimeout = 0) : publish s = .next (dropFrame s) := by
  simp only [publish, hp, if_neg hq.not_gt, if_pos ht]

theorem publish_wait {s : State} (hp : s.cfg.policy = .bounded) (hq : s.cfg.depth ≤ s.ing.q.length)
    (ht : s.cfg.pubTimeout ≠ 0) :
    publish s = .next { s with ing := { s.ing with rxState := .pubWait, waitLeft := BitVec.ofNat 32 s.cfg.pubTimeout } } := by
  simp only [publish, hp, if_neg hq.not_gt, if_neg ht]

theorem publish_dropOldest {s : State} (hp : s.cfg.policy = .dropOldest) :
    publish s = pushFill { s with ing := discardOldest s.ing } := by
  simp only [publish, hp]

/-- R260: a mailbox without its one frame holds nothing to discard. -/
theorem discardOldest_of_length_ne_one {g : Ingest} (h : g.q.length ≠ 1) : discardOldest g = g := by
  unfold discardOldest
  split
  · next hq => simp [hq] at h
  · rfl

theorem discardOldest_singleton {g : Ingest} {b : Nat} (h : g.q = [b]) :
    discardOldest g = { g with q := [], free := insertIdx b g.free } := by
  simp only [discardOldest, h]

/-- The cycle that begins a wait does not count it down: `entered_wait` (R259, R250 step F). -/
theorem ingCountdown_entered (waiting : Bool) (s : State) : ingCountdown waiting true s = s := if_neg (by simp)

/-- Settles O30: the three branches of R259, and the countdown of the cycle that begins the wait. -/
theorem publishBoundedEffect : Obligations.PublishBoundedEffect := by
  intro s hp
  refine ⟨publish_push hp, publish_drop hp, fun hq ht => ⟨publish_wait hp hq ht, fun waiting bus he hrx hc => ?_⟩⟩
  have hend := ingEnd_rx hrx bus
  rw [if_pos he, endTransfer_publish hc, publish_wait hp hq ht] at hend
  simp [ingEndAndCountdown, hend, hrx, ingCountdown_entered]

/-- Settles O31: only a mailbox with a frame discards one, and its buffer joins the free set. -/
theorem publishDropOldestEffect : Obligations.PublishDropOldestEffect := by
  intro s hp
  refine ⟨fun hq => ?_, fun b hq => ⟨insertIdx b s.ing.free, fun x => mem_insertIdx.trans or_comm, ?_⟩⟩
  · rw [publish_dropOldest hp, discardOldest_of_length_ne_one hq]
  · rw [publish_dropOldest hp, discardOldest_singleton hq]

/-! ## serve_acquire (R252) -/

/-- Step A on a seen request (R250): it is served. -/
theorem ingServe_eq_serveAcquire {s : State} (h : syncOut s.ing.reqSync ≠ s.ing.reqSeen) :
    ingServe s = { s with ing := { serveAcquire s.ing with reqSeen := syncOut s.ing.reqSync } } := if_pos h

/-- The grant of the queue's first buffer, after the release. -/
theorem serveAcquire_cons {g : Ingest} {b : Nat} {rest : List Nat} (hq : g.q = b :: rest) :
    serveAcquire g = { g with
      free := (releaseHeld g).free, q := rest, heldValid := true, heldIdx := b, ackOk := true, ackIdx := b
      ackTgl := !g.ackTgl } := by
  unfold serveAcquire grantNext releaseHeld
  cases g.heldValid <;> simp [hq]

/-- The answer "no frame", after the release. -/
theorem serveAcquire_nil {g : Ingest} (hq : g.q = []) :
    serveAcquire g = { g with free := (releaseHeld g).free, heldValid := false, ackOk := false, ackTgl := !g.ackTgl } := by
  unfold serveAcquire grantNext releaseHeld
  cases hv : g.heldValid <;> simp [hq, hv]

@[simp] theorem serveAcquire_free (g : Ingest) : (serveAcquire g).free = (releaseHeld g).free := by
  simp [serveAcquire]

theorem mem_releaseHeld_free {g : Ingest} {b : Nat} :
    b ∈ (releaseHeld g).free ↔ b ∈ g.free ∨ (g.heldValid = true ∧ b = g.heldIdx) := by
  unfold releaseHeld
  split
  · next hv => simp only [mem_insertIdx, hv, true_and]; exact or_comm
  · next hv => simp [hv]

/-- Settles O26: the release does not depend on the queue, and the answer does. -/
theorem serveAcquireEffect : Obligations.ServeAcquireEffect := by
  intro s
  refine ⟨ingServe_unseen, fun h => ?_⟩
  rw [ingServe_eq_serveAcquire h]
  refine ⟨fun b => ?_, fun b rest hq => ?_, fun hq => ?_⟩
  · rw [serveAcquire_free, mem_releaseHeld_free]
  · rw [serveAcquire_cons hq]
  · rw [serveAcquire_nil hq]

end Sys2Proof.Machine
end

section
/-! The receiver in RX (41_exchange.md R250, R255 to R260), and that a clk_i cycle completes wherever the buffers are in their
places and the queue is in its bound (R265). -/

namespace Sys2Proof.Machine
open Sys2Proof Sys2Proof.Safety

/-! ## Where ING's cycle completes (R110, R265) -/

/-- What ING's cycle needs in order to complete, and keeps: the buffers are in their places and the queue is in its bound. -/
structure ExchangeSound (s : State) : Prop where
  legal : s.cfg.Legal
  partition : OwnershipPartition s
  queue : s.ing.q.length ≤ s.cfg.depth

theorem ExchangeSound.of_coreInv {s : State} (h : CoreInv s) : ExchangeSound s := ⟨h.legal, h.partition, h.receiver.2.1⟩

theorem fillIdx_lt_nbuf {s : State} (h : OwnershipPartition s) : s.ing.fillIdx < s.cfg.nbuf :=
  List.mem_range.1 (h.mem_iff.1 List.mem_cons_self)

theorem heldIdx_lt_nbuf {s : State} (h : OwnershipPartition s) (hv : s.ing.heldValid = true) : s.ing.heldIdx < s.cfg.nbuf :=
  List.mem_range.1 (h.mem_iff.1 (by simp [places, hv]))

theorem Answer.andThen_completes {o : Answer} {k : State → Answer} {P Q : State → Prop} (ho : ∃ u, o = .next u ∧ P u)
    (hk : ∀ u, P u → ∃ t, k u = .next t ∧ Q t) : ∃ t, o.andThen k = .next t ∧ Q t := by
  obtain ⟨u, rfl, hu⟩ := ho
  exact hk u hu

theorem serveAcquire_q (g : Ingest) : (serveAcquire g).q = g.q.tail := by
  cases hq : g.q with
  | nil => rw [serveAcquire_nil hq]; exact hq
  | cons b rest => rw [serveAcquire_cons hq]; rfl

theorem ExchangeSound.begin {s : State} (h : ExchangeSound s) (y : Sync) : ExchangeSound (ingBegin y s) :=
  ⟨h.legal, h.partition, h.queue⟩

theorem ExchangeSound.serve {s : State} (h : ExchangeSound s) : ExchangeSound (ingServe s) := by
  by_cases hseen : syncOut s.ing.reqSync = s.ing.reqSeen
  · rwa [ingServe_unseen hseen]
  · rw [ingServe_eq_serveAcquire hseen]
    refine ⟨h.legal, serveAcquire_partition h.partition, ?_⟩
    have hq := h.queue
    simp only [serveAcquire_q, List.length_tail]
    omega

/-- R265: with room in the queue there is a buffer to take. -/
theorem ExchangeSound.push_completes {s : State} (h : ExchangeSound s) (hq : s.ing.q.length < s.cfg.depth) :
    ∃ t, pushFill s = .next t ∧ ExchangeSound t := by
  obtain ⟨t, ht⟩ := pushFill_completes (free_ne_nil h.partition hq)
  have hpart := pushFill_partition h.partition ht
  obtain ⟨b, -, rfl⟩ := pushFill_next ht
  exact ⟨_, ht, h.legal, hpart, by simpa using hq⟩

/-- Under DROP_OLDEST the mailbox is empty once an unconsumed frame is discarded (R260). -/
theorem ExchangeSound.discardOldest_q {s : State} (h : ExchangeSound s) (hp : s.cfg.policy = .dropOldest) :
    (discardOldest s.ing).q = [] := by
  have hq := h.queue
  rw [depth_eq_one_of_dropOldest h.legal hp] at hq
  by_cases h1 : s.ing.q.length = 1
  · obtain ⟨b, hb⟩ := List.length_eq_one_iff.1 h1
    rw [discardOldest_singleton hb]
  · rw [discardOldest_of_length_ne_one h1]
    exact List.length_eq_zero_iff.1 (by omega)

/-- R265: publish completes under both policies. -/
theorem ExchangeSound.publish_completes {s : State} (h : ExchangeSound s) : ∃ t, publish s = .next t ∧ ExchangeSound t := by
  cases hp : s.cfg.policy with
  | bounded =>
    by_cases hq : s.ing.q.length < s.cfg.depth
    · rw [publish_push hp hq]; exact h.push_completes hq
    · by_cases ht : s.cfg.pubTimeout = 0
      · exact ⟨_, publish_drop hp (Nat.le_of_not_lt hq) ht, h.legal, h.partition, h.queue⟩
      · exact ⟨_, publish_wait hp (Nat.le_of_not_lt hq) ht, h.legal, h.partition, h.queue⟩
  | dropOldest =>
    have hempty := h.discardOldest_q hp
    have hdepth := depth_eq_one_of_dropOldest h.legal hp
    rw [publish_dropOldest hp]
    exact ExchangeSound.push_completes ⟨h.legal, discardOldest_partition h.partition, by simp [hempty]⟩
      (by simp [hempty, hdepth])

theorem ExchangeSound.endTransfer_completes {s : State} (h : ExchangeSound s) :
    ∃ t, endTransfer s = .next t ∧ ExchangeSound t := by
  by_cases hc : s.ing.rxCount = s.cfg.cap
  · rw [endTransfer_publish hc]; exact h.publish_completes
  · exact ⟨_, endTransfer_overrun hc, h.legal, h.partition, h.queue⟩

theorem ExchangeSound.retry_completes {s : State} (h : ExchangeSound s) : ∃ t, ingRetry s = .next t ∧ ExchangeSound t := by
  unfold ingRetry
  split
  · next hw => exact Answer.andThen_completes (h.push_completes hw.2) fun u hu => ⟨_, rfl, hu.legal, hu.partition, hu.queue⟩
  · exact ⟨s, rfl, h⟩

theorem ExchangeSound.busEndsWait {s : State} (h : ExchangeSound s) (bus : BusIn) : ExchangeSound (ingBusEndsWait bus s) := by
  unfold ingBusEndsWait
  split
  · exact ⟨h.legal, h.partition, h.queue⟩
  · exact h

theorem ExchangeSound.byte_completes {s : State} (h : ExchangeSound s) (bus : BusIn) :
    ∃ t, ingByte bus s = .next t ∧ ExchangeSound t := by
  unfold ingByte
  split
  · exact ⟨_, storeByte_eq (fillIdx_lt_nbuf h.partition) _, h.legal, h.partition, h.queue⟩
  · exact ⟨s, rfl, h⟩

theorem ExchangeSound.end_completes {s : State} (h : ExchangeSound s) (bus : BusIn) :
    ∃ t, ingEnd bus s = .next t ∧ ExchangeSound t := by
  unfold ingEnd
  split
  · exact h.endTransfer_completes
  · exact ⟨s, rfl, h⟩

theorem ExchangeSound.countdown {s : State} (h : ExchangeSound s) (waiting entered : Bool) :
    ExchangeSound (ingCountdown waiting entered s) := by
  unfold ingCountdown
  split
  · dsimp only
    split <;> exact ⟨h.legal, h.partition, h.queue⟩
  · exact h

/-- Each of the steps A to F completes and keeps what the next one needs. -/
theorem ExchangeSound.cycle_completes {s : State} (h : ExchangeSound s) (bus : BusIn) (y : Sync) :
    ∃ t, ingCycle bus y s = .next t ∧ ExchangeSound t := by
  refine Answer.andThen_completes (h.begin y).serve.retry_completes fun b hb => ?_
  refine Answer.andThen_completes ((hb.busEndsWait bus).byte_completes bus) fun d hd => ?_
  refine Answer.andThen_completes (P := ExchangeSound) ?_ fun f hf => ⟨_, rfl, hf.legal, hf.partition, hf.queue⟩
  exact Answer.andThen_completes (hd.end_completes bus) fun e he => ⟨_, rfl, he.countdown _ _⟩

/-! ## A clk_i cycle in RX (R250, R85) -/

theorem Answer.andThen_pure (o : Answer) : o.andThen .next = o := by cases o <;> rfl

theorem ingRetry_rx {s : State} (h : s.ing.rxState = .rx) : ingRetry s = .next s := if_neg (by simp [h])

theorem ingBusEndsWait_rx {s : State} (h : s.ing.rxState = .rx) (bus : BusIn) : ingBusEndsWait bus s = s := if_neg (by simp [h])

/-- R262: a wait counts down only in a cycle that began with it. -/
theorem ingCountdown_not_waiting (entered : Bool) (s : State) : ingCountdown false entered s = s := if_neg (by simp)

theorem ingEndAndCountdown_rx {s : State} (h : s.ing.rxState = .rx) (bus : BusIn) :
    ingEndAndCountdown false bus s = if bus.inEnd then endTransfer s else .next s := by
  simp only [ingEndAndCountdown, ingEnd_rx h, ingCountdown_not_waiting]
  exact Answer.andThen_pure _

theorem storeByte_rxState {v : Byte} {s t : State} (h : storeByte v s = .next t) : t.ing.rxState = s.ing.rxState := by
  rcases storeByte_next h with ⟨-, -, rfl⟩ | ⟨-, rfl⟩ <;> rfl

/-- R250 in RX: steps B, C and F do nothing. -/
theorem ingCycle_rx {s : State} (h : s.ing.rxState = .rx) (bus : BusIn) (y : Sync) :
    ingCycle bus y s = (busInRx bus (ingServe (ingBegin y s))).andThen fun t => .next (ingFinish y t) := by
  have ha : (ingServe (ingBegin y s)).ing.rxState = .rx := (ingServe_receiver _).1.trans h
  have hw : decide (s.ing.rxState = .pubWait) = false := by simp [h]
  rw [ingCycle, ingRetry_rx ha, Answer.andThen_next, ingBusEndsWait_rx ha, ingByte_rx ha, hw, busInRx]
  cases hbyte : (if bus.inValid then storeByte bus.inByte (ingServe (ingBegin y s)) else .next (ingServe (ingBegin y s)) :
      Answer) with
  | next d =>
    have hd : d.ing.rxState = .rx := by
      split at hbyte
      · exact (storeByte_rxState hbyte).trans ha
      · cases hbyte; exact ha
    rw [Answer.andThen_next, Answer.andThen_next, ingEndAndCountdown_rx hd]
  | fault f => rfl
  | refused r => rfl

/-! ## What step A leaves for the receiver (R252) -/

@[simp] theorem ingServe_cfg (s : State) : (ingServe s).cfg = s.cfg := (ingServe_keeps s).1
@[simp] theorem ingServe_arena (s : State) : (ingServe s).arena = s.arena := by simp only [ingServe]; split <;> rfl
@[simp] theorem ingServe_rxState (s : State) : (ingServe s).ing.rxState = s.ing.rxState := (ingServe_receiver s).1
@[simp] theorem ingServe_rxCount (s : State) : (ingServe s).ing.rxCount = s.ing.rxCount := (ingServe_receiver s).2.2
@[simp] theorem ingServe_fillIdx (s : State) : (ingServe s).ing.fillIdx = s.ing.fillIdx := by
  simp only [ingServe]; split <;> simp
@[simp] theorem ingServe_overrunCnt (s : State) : (ingServe s).ing.overrunCnt = s.ing.overrunCnt := by
  simp only [ingServe]; split <;> simp
@[simp] theorem ingServe_droppedCnt (s : State) : (ingServe s).ing.droppedCnt = s.ing.droppedCnt := by
  simp only [ingServe]; split <;> simp

/-! ## The bus's byte, then its end -/

/-- The receiver in RX after step D: the bus's byte, if there is one, is stored and counted. -/
def State.busByte (s : State) (bus : BusIn) : State := if bus.inValid then s.storedByte bus.inByte else s

@[simp] theorem State.busByte_cfg (s : State) (bus : BusIn) : (s.busByte bus).cfg = s.cfg := by
  unfold State.busByte; split <;> rfl
theorem State.busByte_ing (s : State) (bus : BusIn) :
    (s.busByte bus).ing =
      { s.ing with rxCount := if bus.inValid then min (s.ing.rxCount + 1) (s.cfg.cap + 1) else s.ing.rxCount } := by
  unfold State.busByte; split <;> rfl

theorem State.busByte_exchangeSound {s : State} (h : ExchangeSound s) (bus : BusIn) : ExchangeSound (s.busByte bus) := by
  unfold State.busByte
  split
  · exact ⟨h.legal, h.partition, h.queue⟩
  · exact h

theorem State.readArena_busByte_same {s : State} {bus : BusIn} (hwf : Memory.wf Space.arena.unlisted s.arena)
    (hv : bus.inValid = true) (hc : s.ing.rxCount < s.cfg.cap) :
    (s.busByte bus).readArena s.ing.fillIdx s.ing.rxCount = bus.inByte := by
  rw [State.busByte, if_pos hv]
  exact State.readArena_storedByte_same hwf hc _

theorem State.readArena_busByte_ne {s : State} {bus : BusIn} {b i : Nat} (hi : i < s.cfg.cap)
    (hne : ¬(bus.inValid = true ∧ b = s.ing.fillIdx ∧ i = s.ing.rxCount)) :
    (s.busByte bus).readArena b i = s.readArena b i := by
  unfold State.busByte
  split
  · next hv => exact State.readArena_storedByte_ne hi (fun e => hne ⟨hv, Prod.mk.inj e⟩) _
  · rfl

theorem busInRx_eq {s : State} (h : OwnershipPartition s) (bus : BusIn) :
    busInRx bus s = if bus.inEnd then endTransfer (s.busByte bus) else .next (s.busByte bus) := by
  rw [busInRx, State.busByte]
  split
  · rw [storeByte_eq (fillIdx_lt_nbuf h), Answer.andThen_next]
  · rw [Answer.andThen_next]

theorem State.readArena_congr {s t : State} (hc : t.cfg = s.cfg) (ha : t.arena = s.arena) (he : t.epoch = s.epoch) (b i : Nat) :
    t.readArena b i = s.readArena b i := by simp [State.readArena, hc, ha, he]

/-- R256: publishing, dropping and overrunning move buffers and never their bytes. -/
theorem endTransfer_arena {s t : State} (h : endTransfer s = .next t) : t.arena = s.arena := by
  rcases endTransfer_next h with ⟨-, h⟩ | ⟨-, rfl⟩
  · rcases publish_next h with ⟨-, -, h⟩ | ⟨-, -, -, rfl⟩ | ⟨-, -, -, rfl⟩ | ⟨-, h⟩
    · obtain ⟨b, -, rfl⟩ := pushFill_next h; rfl
    · rfl
    · rfl
    · obtain ⟨b, -, rfl⟩ := pushFill_next h; rfl
  · rfl

theorem endTransfer_keeps {s t : State} (h : endTransfer s = .next t) : IngKeeps s t := by
  rcases endTransfer_next h with ⟨-, h⟩ | ⟨-, rfl⟩
  · exact publish_keeps h
  · exact IngKeeps.refl s

/-- The state of a clk_i cycle in RX between the bus's byte and its end: step A, then step D (R250). -/
def State.afterByte (s : State) (bus : BusIn) (y : Sync) : State := (ingServe (ingBegin y s)).busByte bus

/-- `rx_count` there (R255). -/
def State.countAfterByte (s : State) (bus : BusIn) : Nat :=
  if bus.inValid then min (s.ing.rxCount + 1) (s.cfg.cap + 1) else s.ing.rxCount

@[simp] theorem State.afterByte_cfg (s : State) (bus : BusIn) (y : Sync) : (s.afterByte bus y).cfg = s.cfg :=
  (State.busByte_cfg _ bus).trans (ingServe_cfg _)

/-- The receiver's registers there: step A has left them alone, and the byte is counted. -/
theorem State.afterByte_ing {s : State} (hrx : s.ing.rxState = .rx) (bus : BusIn) (y : Sync) :
    (s.afterByte bus y).ing = { (ingServe (ingBegin y s)).ing with
      rxState := .rx, rxCount := s.countAfterByte bus, fillIdx := s.ing.fillIdx
      overrunCnt := s.ing.overrunCnt, droppedCnt := s.ing.droppedCnt } := by
  have hcount : (ingServe (ingBegin y s)).ing.rxCount = s.ing.rxCount := ingServe_rxCount _
  have hfill : (ingServe (ingBegin y s)).ing.fillIdx = s.ing.fillIdx := ingServe_fillIdx _
  have hover : (ingServe (ingBegin y s)).ing.overrunCnt = s.ing.overrunCnt := ingServe_overrunCnt _
  have hdrop : (ingServe (ingBegin y s)).ing.droppedCnt = s.ing.droppedCnt := ingServe_droppedCnt _
  have hrx' : (ingServe (ingBegin y s)).ing.rxState = .rx := (ingServe_rxState _).trans hrx
  have hcfg : (ingServe (ingBegin y s)).cfg = s.cfg := ingServe_cfg _
  rw [State.afterByte, State.busByte_ing, State.countAfterByte, hcount, hcfg, ← hfill, ← hover, ← hdrop, ← hrx']

theorem State.afterByte_exchangeSound {s : State} (h : ExchangeSound s) (bus : BusIn) (y : Sync) :
    ExchangeSound (s.afterByte bus y) :=
  State.busByte_exchangeSound (h.begin y).serve bus

/-- R255: the byte that finds room is at `rx_count` of the fill buffer. -/
theorem State.readArena_afterByte_same {s : State} {bus : BusIn} (hwf : Memory.wf Space.arena.unlisted s.arena)
    (hv : bus.inValid = true) (hc : s.ing.rxCount < s.cfg.cap) (y : Sync) :
    (s.afterByte bus y).readArena s.ing.fillIdx s.ing.rxCount = bus.inByte := by
  have h := State.readArena_busByte_same (s := ingServe (ingBegin y s)) (bus := bus)
  simp only [ingServe_arena, ingServe_rxCount, ingServe_cfg, ingServe_fillIdx] at h
  exact h hwf hv hc

theorem State.readArena_afterByte_ne {s : State} {bus : BusIn} {b i : Nat} (hi : i < s.cfg.cap)
    (hne : ¬(bus.inValid = true ∧ b = s.ing.fillIdx ∧ i = s.ing.rxCount)) (y : Sync) :
    (s.afterByte bus y).readArena b i = s.readArena b i := by
  have h := State.readArena_busByte_ne (s := ingServe (ingBegin y s)) (bus := bus) (b := b) (i := i)
  simp only [ingServe_rxCount, ingServe_cfg, ingServe_fillIdx] at h
  refine (h hi hne).trans (State.readArena_congr (ingServe_cfg _) (ingServe_arena _) ?_ b i)
  obtain ⟨-, -, -, -, -, hepoch, -⟩ := ingServe_keeps (ingBegin y s)
  exact hepoch

/-- A clk_i cycle in RX is the size check, at an end, on the state after the byte, and the synchroniser's shift. -/
theorem ingCycle_eq_endTransfer_afterByte {s : State} (h : ExchangeSound s) (hrx : s.ing.rxState = .rx) (bus : BusIn) (y : Sync) :
    ingCycle bus y s =
      (if bus.inEnd then endTransfer (s.afterByte bus y) else .next (s.afterByte bus y) : Answer).andThen fun t =>
        .next (ingFinish y t) := by
  rw [ingCycle_rx hrx, busInRx_eq (h.begin y).serve.partition, State.afterByte]

/-- R15, R256: the rest of such a cycle completes, and changes no byte of the arena. -/
theorem end_completes {d : State} (h : ExchangeSound d) (bus : BusIn) :
    ∃ e, (if bus.inEnd then endTransfer d else .next d : Answer) = .next e ∧ ∀ b i, e.readArena b i = d.readArena b i := by
  split
  · obtain ⟨e, he, -⟩ := h.endTransfer_completes
    obtain ⟨hcfg, -, -, -, -, hepoch, -⟩ := endTransfer_keeps he
    exact ⟨e, he, State.readArena_congr hcfg (endTransfer_arena he) hepoch⟩
  · exact ⟨d, rfl, fun _ _ => rfl⟩

/-- A step takes the oldest listed choice (R9, R300, R451). -/
theorem step_inputs_cons {s : State} {k : Tick} {rest : List Tick} (hl : s.cfg.Legal) (h : s.inputs = k :: rest) :
    step s = runTick k { s with inputs := rest } := by
  rw [step_eq hl, State.nextTick_cons h, State.popTick_cons h]

/-- What may become the fill buffer once the mailbox is emptied (R260): a free buffer, or the discarded one. -/
theorem mem_discardOldest_free {g : Ingest} {b : Nat} (h : b ∈ (discardOldest g).free) : b ∈ g.free ∨ b ∈ g.q := by
  unfold discardOldest at h
  split at h
  · next c hq =>
    rcases mem_insertIdx.1 h with rfl | hb
    · exact .inr (by simp [hq])
    · exact .inl hb
  · exact .inl h

/-- Settles O23: the kinds of step are the cases of the choice; in RX the cycle is the byte and then the end, and each outcome is
the branch of the size check and of publish that its premises name. -/
theorem stepRunsChoice : Obligations.StepRunsChoice := by
  refine ⟨fun s rest hl => ⟨fun bus y hin => ?clkI, fun tp y hin hduty => ?clkR, fun hin => ?reset⟩,
    fun s bus y hrx => ingCycle_rx hrx bus y, fun s bus y hinv hrx => ?cycle⟩
  case clkI => rw [step_inputs_cons hl hin, runTick]
  case clkR => rw [step_inputs_cons hl hin, runTick, renCycle, if_neg hduty]
  case reset => rw [step_inputs_cons hl hin]; rfl
  case cycle =>
    intro a n
    have hs := ExchangeSound.of_coreInv hinv
    have hd := State.afterByte_exchangeSound hs bus y
    have hing : (s.afterByte bus y).ing = { a.ing with
        rxState := .rx, rxCount := n, fillIdx := s.ing.fillIdx
        overrunCnt := s.ing.overrunCnt, droppedCnt := s.ing.droppedCnt } := State.afterByte_ing hrx bus y
    have hcfg := State.afterByte_cfg s bus y
    obtain ⟨e, he, hkept⟩ := end_completes hd bus
    refine ⟨ingFinish y e, ?_, fun hv hc => ?stored, fun b i hi hne => ?kept, fun hE => ?noEnd, fun hE hn => ?overrun,
      fun hE hn hp hq => ?push, fun hE hn hp => ?dropOldest, fun hE hn hp hq ht => ?drop, fun hE hn hp hq ht => ?wait⟩
    · rw [ingCycle_eq_endTransfer_afterByte hs hrx, he, Answer.andThen_next]
    case stored => exact (hkept _ _).trans (State.readArena_afterByte_same hinv.memory.2.2.1 hv hc y)
    case kept => exact (hkept _ _).trans (State.readArena_afterByte_ne hi hne y)
    case noEnd =>
      rw [if_neg (by simp [hE])] at he
      cases he
      simp [ingFinish, hing]
    case overrun =>
      rw [if_pos hE, endTransfer_overrun (by rwa [hing, hcfg])] at he
      cases he
      simp [ingFinish, hing]
    case push =>
      rw [if_pos hE, endTransfer_publish (by rwa [hing, hcfg]), publish_push (by rwa [hcfg]) (by rwa [hing, hcfg])] at he
      obtain ⟨b, hb, rfl⟩ := pushFill_next he
      rw [hing] at hb
      have hmem : b ∈ a.ing.free := List.min?_mem hb
      simp [ingFinish, hing, hmem]
    case dropOldest =>
      have hempty := hd.discardOldest_q (by rwa [hcfg])
      rw [if_pos hE, endTransfer_publish (by rwa [hing, hcfg]), publish_dropOldest (by rwa [hcfg])] at he
      obtain ⟨b, hb, rfl⟩ := pushFill_next he
      have hmem : b ∈ a.ing.free ∨ b ∈ a.ing.q := by
        have h := mem_discardOldest_free (List.min?_mem hb)
        rwa [hing] at h
      rw [hing] at hempty
      simp [ingFinish, hing, hempty, hmem]
    case drop =>
      rw [if_pos hE, endTransfer_publish (by rwa [hing, hcfg]),
        publish_drop (by rwa [hcfg]) (by rwa [hing, hcfg]) (by rwa [hcfg])] at he
      cases he
      simp [ingFinish, hing]
    case wait =>
      rw [if_pos hE, endTransfer_publish (by rwa [hing, hcfg]),
        publish_wait (by rwa [hcfg]) (by rwa [hing, hcfg]) (by rwa [hcfg])] at he
      cases he
      simp [ingFinish, hing, hn]

end Sys2Proof.Machine
end

section
/-! The handshake across the clock domains (41_exchange.md R250 to R254, R268): each cycle of either clock keeps its invariant,
and moves a toggle that is not yet seen one stage on. -/

namespace Sys2Proof.Machine
open Sys2Proof Sys2Proof.Safety

/-! ## A toggle on its way through a synchroniser -/

/-- The value `v` has come through the first `j` stages. -/
def Through (j : Nat) (v : Bool) (chain : List Bool) : Prop := j ≤ chain.length ∧ ∀ x ∈ chain.take j, x = v

theorem Through.zero (v : Bool) (chain : List Bool) : Through 0 v chain := ⟨Nat.zero_le _, by simp⟩

theorem Through.cycle {j : Nat} {v : Bool} {chain : List Bool} (h : Through j v chain) (y : Sync) :
    Through j v (syncAfter y (syncBefore y chain v) v) :=
  ⟨by simpa using h.1, syncCycle_keeps h.2⟩

/-- While the last stage does not show the value, a cycle that does not hold moves it one stage on. -/
theorem Through.cycle_moves {j : Nat} {v : Bool} {chain : List Bool} {y : Sync} (h : Through j v chain) (hy : y ≠ .hold)
    (hpos : 0 < chain.length) (hout : syncOut (syncBefore y chain v) ≠ v) :
    Through (j + 1) v (syncAfter y (syncBefore y chain v) v) := by
  refine ⟨?_, syncCycle_moves hy h.2⟩
  have hne : j ≠ chain.length := by
    rintro rfl
    have hall := h.2
    rw [List.take_length] at hall
    exact hout (syncOut_settled (syncBefore_settled hall) (by simpa using hpos))
  have hle := h.1
  simp only [syncAfter_length, syncBefore_length]
  omega

/-! ## What the handshake needs, and what each side's registers say of the other's -/

/-- The handshake's invariant, with the legal parameters that give each synchroniser its stages. -/
structure HandshakeSound (s : State) : Prop where
  legal : s.cfg.Legal
  inv : HandshakeInv s

theorem HandshakeSound.of_coreInv {s : State} (h : CoreInv s) : HandshakeSound s := ⟨h.legal, h.handshake⟩

theorem HandshakeSound.reqSync_length {s : State} (h : HandshakeSound s) : s.ing.reqSync.length = s.cfg.syncStages := h.inv.1

theorem HandshakeSound.ackSync_length {s : State} (h : HandshakeSound s) : s.ren.ackSync.length = s.cfg.syncStages := h.inv.2.1

theorem HandshakeSound.syncStages_pos {s : State} (h : HandshakeSound s) : 0 < s.cfg.syncStages := by
  obtain ⟨_, _, _, ⟨_, _, _, hsync⟩, _⟩ := Config.legal_parts h.legal
  omega

/-- R253: a request is pending only in ACQUIRE, and then no answer is. -/
theorem HandshakeSound.of_requestPending {s : State} (h : HandshakeSound s) (hp : RequestPending s) :
    s.ren.renState = .acquire ∧ ¬AnswerPending s := by
  obtain ⟨-, -, ⟨-, hn, -⟩ | ⟨hacq, -, hans, -⟩ | ⟨-, hn, -⟩⟩ := h.inv
  · exact absurd hp hn
  · exact ⟨hacq, hans⟩
  · exact absurd hp hn

/-- R254: an answer is pending only in ACQUIRE, and then no request is; and a granted buffer is the held one. -/
theorem HandshakeSound.of_answerPending {s : State} (h : HandshakeSound s) (hp : AnswerPending s) :
    s.ren.renState = .acquire ∧ ¬RequestPending s ∧ s.ing.heldValid = s.ing.ackOk ∧
      (s.ing.ackOk = true → s.ing.heldIdx = s.ing.ackIdx) := by
  obtain ⟨-, -, ⟨-, -, hn, -⟩ | ⟨-, -, hn, -⟩ | ⟨hacq, hreq, -, -, -, hheld, hidx⟩⟩ := h.inv
  · exact absurd hp hn
  · exact absurd hp hn
  · exact ⟨hacq, hreq, hheld, hidx⟩

/-- With no request pending, ING's last stage shows what ING has seen. -/
theorem HandshakeSound.syncOut_reqSync {s : State} (h : HandshakeSound s) (hn : ¬RequestPending s) :
    syncOut s.ing.reqSync = s.ing.reqSeen := by
  have hsettled : Settled s.ren.reqTgl s.ing.reqSync := by
    obtain ⟨-, -, ⟨-, -, -, hset, -⟩ | ⟨-, hp, -⟩ | ⟨-, -, -, hset, -⟩⟩ := h.inv
    · exact hset
    · exact absurd hp hn
    · exact hset
  rw [syncOut_settled hsettled (by rw [h.reqSync_length]; exact h.syncStages_pos), not_not.1 hn]

/-- With no answer pending, REN's last stage shows what REN has seen. -/
theorem HandshakeSound.syncOut_ackSync {s : State} (h : HandshakeSound s) (hn : ¬AnswerPending s) :
    syncOut s.ren.ackSync = s.ren.ackSeen := by
  have hsettled : Settled s.ing.ackTgl s.ren.ackSync := by
    obtain ⟨-, -, ⟨-, -, -, -, hset⟩ | ⟨-, -, -, -, hset⟩ | ⟨-, -, hp, -⟩⟩ := h.inv
    · exact hset
    · exact hset
    · exact absurd hp hn
  rw [syncOut_settled hsettled (by rw [h.ackSync_length]; exact h.syncStages_pos), not_not.1 hn]

/-! ## ING's cycle -/

theorem HandshakeSound.begin_ing {s : State} (h : HandshakeSound s) (y : Sync) : HandshakeSound (ingBegin y s) := by
  obtain ⟨hreq, hack, hcase⟩ := h.inv
  refine ⟨h.legal, (syncBefore_length _ _ _).trans hreq, hack, ?_⟩
  obtain ⟨hst, hr, ha, hset, hset'⟩ | ⟨hst, hr, ha, hmov, hset⟩ | ⟨hst, hr, ha, hset, hmov, hgrant⟩ := hcase
  · exact .inl ⟨hst, hr, ha, syncBefore_settled hset, hset'⟩
  · exact .inr (.inl ⟨hst, hr, ha, syncBefore_moving hmov, hset⟩)
  · exact .inr (.inr ⟨hst, hr, ha, syncBefore_settled hset, hmov, hgrant⟩)

theorem HandshakeSound.finish_ing {s : State} (h : HandshakeSound s) (y : Sync) : HandshakeSound (ingFinish y s) := by
  obtain ⟨hreq, hack, hcase⟩ := h.inv
  refine ⟨h.legal, (syncAfter_length _ _ _).trans hreq, hack, ?_⟩
  obtain ⟨hst, hr, ha, hset, hset'⟩ | ⟨hst, hr, ha, hmov, hset⟩ | ⟨hst, hr, ha, hset, hmov, hgrant⟩ := hcase
  · exact .inl ⟨hst, hr, ha, syncAfter_settled hset, hset'⟩
  · exact .inr (.inl ⟨hst, hr, ha, syncAfter_moving hmov, hset⟩)
  · exact .inr (.inr ⟨hst, hr, ha, syncAfter_settled hset, hmov, hgrant⟩)

/-- R252: the answer grants the buffer that ING then holds, or none. -/
theorem serveAcquire_grant (g : Ingest) :
    (serveAcquire g).heldValid = (serveAcquire g).ackOk ∧
      ((serveAcquire g).ackOk = true → (serveAcquire g).heldIdx = (serveAcquire g).ackIdx) := by
  cases hq : g.q with
  | nil => rw [serveAcquire_nil hq]; simp
  | cons b rest => rw [serveAcquire_cons hq]; simp

theorem ingServe_reqSeen (s : State) : (ingServe s).ing.reqSeen = syncOut s.ing.reqSync := by
  by_cases hseen : syncOut s.ing.reqSync = s.ing.reqSeen
  · rw [ingServe_unseen hseen, hseen]
  · exact (ingServe_seen hseen).1

/-- Two toggles that differ from a third agree. -/
theorem toggle_eq_of_ne {a b c : Bool} (ha : a ≠ c) (hb : b ≠ c) : a = b :=
  (Bool.eq_not_of_ne ha).trans (Bool.eq_not_of_ne hb).symm

theorem ingServe_reqSync (s : State) : (ingServe s).ing.reqSync = s.ing.reqSync := by
  simp only [ingServe]; split <;> simp

theorem ingServe_ackTgl_of_seen {s : State} (h : syncOut s.ing.reqSync ≠ s.ing.reqSeen) :
    (ingServe s).ing.ackTgl = !s.ing.ackTgl := (ingServe_seen h).2.1

/-- Step A: a request that ING sees becomes a pending answer, and its toggle has passed every stage. -/
theorem HandshakeSound.serve {s : State} (h : HandshakeSound s) : HandshakeSound (ingServe s) := by
  by_cases hseen : syncOut s.ing.reqSync = s.ing.reqSeen
  · rwa [ingServe_unseen hseen]
  · have hp : RequestPending s := by_contra fun hn => hseen (h.syncOut_reqSync hn)
    have hout : syncOut s.ing.reqSync = s.ren.reqTgl := toggle_eq_of_ne hseen hp
    obtain ⟨hreq, hack, ⟨-, hn, -⟩ | ⟨hst, -, ha, hmov, hset⟩ | ⟨-, hn, -⟩⟩ := h.inv
    · exact absurd hp hn
    · have hans : (!s.ing.ackTgl) ≠ s.ren.ackSeen := by simpa [AnswerPending] using ha
      rw [ingServe_eq_serveAcquire hseen]
      exact ⟨h.legal, by simpa using hreq, hack, .inr (.inr ⟨hst, not_not.2 hout.symm, by simpa using hans,
        by simpa using settled_of_moving hmov hout, moving_of_settled hset, serveAcquire_grant s.ing⟩)⟩
    · exact absurd hp hn

/-- Steps B to F leave the handshake alone (R250), so ING's cycle keeps its invariant. -/
theorem HandshakeSound.of_ingCycle {s t : State} {bus : BusIn} {y : Sync} (h : HandshakeSound s)
    (hc : ingCycle bus y s = .next t) :
    HandshakeSound t := by
  obtain ⟨hcfg, -, hren, -⟩ := ingCycle_keeps hc
  obtain ⟨hheld, hidx, hseen, hack, hok, hackIdx, hsync⟩ := ingCycle_handshake hc
  obtain ⟨acfg, -, aren, -⟩ := ingServe_keeps (ingBegin y s)
  have ha := ((h.begin_ing y).serve.finish_ing y).inv
  refine ⟨hcfg ▸ h.legal, ?_⟩
  simp only [HandshakeInv, RequestPending, AnswerPending, ingFinish, acfg, aren] at ha
  simp only [HandshakeInv, RequestPending, AnswerPending, hcfg, hren, hheld, hidx, hseen, hack, hok, hackIdx, hsync]
  exact ha

/-- With no request pending, ING's cycle leaves its toggle. -/
theorem ingCycle_ackTgl_of_not_requestPending {s t : State} {bus : BusIn} {y : Sync} (h : HandshakeSound s)
    (hn : ¬RequestPending s) (hc : ingCycle bus y s = .next t) : t.ing.ackTgl = s.ing.ackTgl := by
  obtain ⟨-, -, -, hack, -⟩ := ingCycle_handshake hc
  rw [hack, ingServe_unseen ((h.begin_ing y).syncOut_reqSync hn)]
  rfl

/-- After ING's cycle ING has seen what its last stage showed. -/
theorem ingCycle_reqSeen {s t : State} {bus : BusIn} {y : Sync} (hc : ingCycle bus y s = .next t) :
    t.ing.reqSeen = syncOut (syncBefore y s.ing.reqSync s.ren.reqTgl) := by
  obtain ⟨-, -, hseen, -⟩ := ingCycle_handshake hc
  exact hseen.trans (ingServe_reqSeen _)

/-- R268: a pending request is served, or it stays pending. -/
theorem ingCycle_request {s t : State} {bus : BusIn} {y : Sync} (hp : RequestPending s) (hc : ingCycle bus y s = .next t) :
    t.ing.ackTgl ≠ s.ing.ackTgl ∨ RequestPending t := by
  obtain ⟨-, -, hseen, hack, -⟩ := ingCycle_handshake hc
  obtain ⟨-, -, hren, -⟩ := ingCycle_keeps hc
  by_cases hshown : syncOut (ingBegin y s).ing.reqSync = (ingBegin y s).ing.reqSeen
  · rw [ingServe_unseen hshown] at hseen
    exact .inr (by rw [RequestPending, hren, hseen]; exact hp)
  · rw [ingServe_ackTgl_of_seen hshown] at hack
    exact .inl (hack ▸ Bool.not_ne_self _)

/-- A request that is still pending after the cycle has moved on, if the synchroniser did not hold. -/
theorem ingCycle_through {s t : State} {bus : BusIn} {y : Sync} {j : Nat} (h : HandshakeSound s) (hc : ingCycle bus y s = .next t)
    (hp : RequestPending t) (hj : Through j s.ren.reqTgl s.ing.reqSync) :
    Through j t.ren.reqTgl t.ing.reqSync ∧ (y ≠ .hold → Through (j + 1) t.ren.reqTgl t.ing.reqSync) := by
  obtain ⟨-, -, -, -, -, -, hsync⟩ := ingCycle_handshake hc
  obtain ⟨-, -, hren, -⟩ := ingCycle_keeps hc
  rw [ingServe_reqSync] at hsync
  rw [RequestPending, ingCycle_reqSeen hc, hren] at hp
  rw [hsync, hren]
  exact ⟨hj.cycle y, fun hy => hj.cycle_moves hy (h.reqSync_length ▸ h.syncStages_pos) hp.symm⟩

/-! ## REN's cycle -/

theorem HandshakeSound.begin_ren {s : State} (h : HandshakeSound s) (y : Sync) : HandshakeSound (renBegin y s) := by
  obtain ⟨hreq, hack, hcase⟩ := h.inv
  refine ⟨h.legal, hreq, (syncBefore_length _ _ _).trans hack, ?_⟩
  obtain ⟨hst, hr, ha, hset, hset'⟩ | ⟨hst, hr, ha, hmov, hset⟩ | ⟨hst, hr, ha, hset, hmov, hgrant⟩ := hcase
  · exact .inl ⟨hst, hr, ha, hset, syncBefore_settled hset'⟩
  · exact .inr (.inl ⟨hst, hr, ha, hmov, syncBefore_settled hset⟩)
  · exact .inr (.inr ⟨hst, hr, ha, hset, syncBefore_moving hmov, hgrant⟩)

theorem HandshakeSound.finish_ren {s : State} (h : HandshakeSound s) (y : Sync) : HandshakeSound (renFinish y s) := by
  obtain ⟨hreq, hack, hcase⟩ := h.inv
  refine ⟨h.legal, hreq, (syncAfter_length _ _ _).trans hack, ?_⟩
  obtain ⟨hst, hr, ha, hset, hset'⟩ | ⟨hst, hr, ha, hmov, hset⟩ | ⟨hst, hr, ha, hset, hmov, hgrant⟩ := hcase
  · exact .inl ⟨hst, hr, ha, hset, syncAfter_settled hset'⟩
  · exact .inr (.inl ⟨hst, hr, ha, hmov, syncAfter_settled hset⟩)
  · exact .inr (.inr ⟨hst, hr, ha, hset, syncAfter_moving hmov, hgrant⟩)

/-- R253, R302: a rule outside ACQUIRE inverts REN's toggle exactly when it enters ACQUIRE, and one in ACQUIRE takes the
answer. -/
theorem renRule_request {tp : TpIn} {s t : State} (h : renRule tp s = .next t) :
    (s.ren.renState = .acquire ∧ t = renAcquire s) ∨
    (s.ren.renState ≠ .acquire ∧ t.ren.renState ≠ .acquire ∧ t.ren.reqTgl = s.ren.reqTgl) ∨
    (s.ren.renState ≠ .acquire ∧ t.ren.renState = .acquire ∧ t.ren.reqTgl = !s.ren.reqTgl) := by
  unfold renRule at h
  split at h
  · next hs =>
    obtain ⟨-, rfl⟩ := renClear_next h
    by_cases hlast : s.ren.clrPtr + 1 = s.cfg.cap
    · exact .inr (.inr (by simp [hs, hlast]))
    · exact .inr (.inl (by simp [hs, hlast]))
  · next hs => cases h; exact .inl ⟨hs, rfl⟩
  · next hs =>
    obtain ⟨-, -, u, hu, rfl⟩ := renDecode_next h
    have hren : u.ren = s.ren := by rw [(handleByte_next hu).1]
    refine .inr (.inl ⟨by simp [hs], ?_, by rw [decodeNext_reqTgl, hren]⟩)
    rw [decodeNext_renState, hren, hs]
    split <;> simp
  · next hs =>
    refine .inr (.inl ⟨by simp [hs], ?_⟩)
    rcases renEmit_next h with ⟨-, h⟩ | ⟨-, rfl⟩ | ⟨r, -, rfl⟩ | ⟨r, i, -, rfl⟩ | ⟨-, rfl⟩
    · rcases emitRow_next h with ⟨-, rfl⟩ | ⟨-, -, -, rfl⟩ | ⟨-, -, rfl⟩ <;> simp [hs]
    · simp [hs]
    · simp [hs]
    · simp [hs]
    · rw [takeAnswer_ren]
      cases tp.respErr <;> simp [hs]
  · next hs => cases h; exact .inr (.inr ⟨by simp [hs], rfl, by simp only [renCommit]; split <;> rfl⟩)
  · next hs => cases h; exact .inr (.inr ⟨by simp [hs], rfl, rfl⟩)

/-- While no answer shows, ACQUIRE waits (R303). -/
theorem renAcquire_unseen {s : State} (h : syncOut s.ren.ackSync = s.ren.ackSeen) : renAcquire s = s := by
  rcases renAcquire_cases s with ⟨-, e⟩ | ⟨hne, -⟩ | ⟨hne, -⟩
  · exact e
  · exact absurd h hne
  · exact absurd h hne

/-- Taking the answer (R303): a grant ends the exchange, and "no frame" begins another. -/
theorem HandshakeSound.acquire {s : State} (h : HandshakeSound s) (hacq : s.ren.renState = .acquire) :
    HandshakeSound (renAcquire s) := by
  by_cases hseen : syncOut s.ren.ackSync = s.ren.ackSeen
  · rwa [renAcquire_unseen hseen]
  · have hp : AnswerPending s := by_contra fun hn => hseen (h.syncOut_ackSync hn)
    have hout : syncOut s.ren.ackSync = s.ing.ackTgl := toggle_eq_of_ne hseen hp
    obtain ⟨hreq, hack, ⟨hst, -⟩ | ⟨-, -, hn, -⟩ | ⟨-, hr, -, hset, hmov, -⟩⟩ := h.inv
    · exact absurd hacq hst
    · exact absurd hp hn
    · have hsettled := settled_of_moving hmov hout
      rcases renAcquire_cases s with ⟨e, -⟩ | ⟨-, -, e⟩ | ⟨-, -, e⟩
      · exact absurd e hseen
      · rw [e]
        exact ⟨h.legal, hreq, hack, .inl ⟨by simp, hr, not_not.2 hout.symm, hset, hsettled⟩⟩
      · have hreq' : (!s.ren.reqTgl) ≠ s.ing.reqSeen := by simpa [RequestPending] using hr
        rw [e]
        exact ⟨h.legal, hreq, hack, .inr (.inl ⟨hacq, hreq', not_not.2 hout.symm, moving_of_settled hset, hsettled⟩)⟩

theorem HandshakeSound.of_renRule {tp : TpIn} {s t : State} (h : HandshakeSound s) (hr : renRule tp s = .next t) :
    HandshakeSound t := by
  obtain ⟨hcfg, hing, -⟩ := renRule_keeps hr
  obtain ⟨hsync, hseen⟩ := renRule_answer hr
  obtain ⟨hreq, hack, hcase⟩ := h.inv
  rcases renRule_request hr with ⟨hacq, rfl⟩ | ⟨hst, hst', htgl⟩ | ⟨hst, hst', htgl⟩
  · exact h.acquire hacq
  all_goals
    rw [if_neg hst] at hseen
    obtain ⟨-, hreq0, hack0, hset, hset'⟩ := hcase.resolve_right
      (by rintro (⟨hacq, -⟩ | ⟨hacq, -⟩) <;> exact hst hacq)
    refine ⟨hcfg ▸ h.legal, by rw [hing, hcfg, hreq], by rw [hsync, hcfg, hack], ?_⟩
  · refine .inl ⟨hst', ?_⟩
    simp only [RequestPending, AnswerPending, htgl, hing, hseen, hsync]
    exact ⟨hreq0, hack0, hset, hset'⟩
  · refine .inr (.inl ⟨hst', ?_⟩)
    simp only [RequestPending, AnswerPending, htgl, hing, hseen, hsync]
    exact ⟨by simpa [RequestPending] using hreq0, hack0, moving_of_settled hset, hset'⟩

theorem HandshakeSound.of_renCycle {tp : TpIn} {y : Sync} {s t : State} (h : HandshakeSound s)
    (hc : renCycle tp y s = .next t) : HandshakeSound t := by
  obtain ⟨-, u, hu, rfl⟩ := renCycle_next hc
  exact ((h.begin_ren y).of_renRule hu).finish_ren y

/-- While a request is pending REN waits for its answer (R302). -/
theorem renCycle_waits {tp : TpIn} {y : Sync} {s t : State} (h : HandshakeSound s) (hp : RequestPending s)
    (hc : renCycle tp y s = .next t) : t = renFinish y (renBegin y s) := by
  obtain ⟨hacq, hn⟩ := h.of_requestPending hp
  obtain ⟨-, u, hu, rfl⟩ := renCycle_next hc
  rcases renRule_request hu with ⟨-, rfl⟩ | ⟨hst, -⟩ | ⟨hst, -⟩
  · rw [renAcquire_unseen ((h.begin_ren y).syncOut_ackSync hn)]
  · exact absurd hacq hst
  · exact absurd hacq hst

/-- With no answer pending REN's cycle takes none. -/
theorem renCycle_keeps_not_answerPending {tp : TpIn} {y : Sync} {s t : State} (h : HandshakeSound s) (hn : ¬AnswerPending s)
    (hc : renCycle tp y s = .next t) : ¬AnswerPending t := by
  obtain ⟨-, hing, -⟩ := renCycle_keeps hc
  obtain ⟨-, u, hu, rfl⟩ := renCycle_next hc
  have hseen : u.ren.ackSeen = s.ren.ackSeen := by
    obtain ⟨-, hu⟩ := renRule_answer hu
    rw [hu, (h.begin_ren y).syncOut_ackSync hn, ite_self]
    rfl
  rw [AnswerPending, hing]
  exact hseen ▸ hn

/-- An answer that is still pending after the cycle has moved on, if the synchroniser did not hold. -/
theorem renCycle_through {tp : TpIn} {y : Sync} {s t : State} {j : Nat} (h : HandshakeSound s) (hs : AnswerPending s)
    (hc : renCycle tp y s = .next t) (ht : AnswerPending t) (hj : Through j s.ing.ackTgl s.ren.ackSync) :
    Through j t.ing.ackTgl t.ren.ackSync ∧ (y ≠ .hold → Through (j + 1) t.ing.ackTgl t.ren.ackSync) := by
  obtain ⟨-, hing, -⟩ := renCycle_keeps hc
  obtain ⟨-, u, hu, rfl⟩ := renCycle_next hc
  obtain ⟨hsync, hseen⟩ := renRule_answer hu
  obtain ⟨-, huing, -⟩ := renRule_keeps hu
  have hshown : (renFinish y u).ren.ackSeen = syncOut (syncBefore y s.ren.ackSync s.ing.ackTgl) :=
    hseen.trans (if_pos (h.of_answerPending hs).1)
  have hchain : (renFinish y u).ren.ackSync = syncAfter y (syncBefore y s.ren.ackSync s.ing.ackTgl) s.ing.ackTgl := by
    simp only [renFinish, hsync, huing]
    rfl
  rw [AnswerPending, hing, hshown] at ht
  rw [hing, hchain]
  exact ⟨hj.cycle y, fun hy => hj.cycle_moves hy (h.ackSync_length ▸ h.syncStages_pos) ht.symm⟩

end Sys2Proof.Machine
end

section
/-! Where REN's cycle completes (42_render.md R300 to R328): its registers are in the ranges that its rules read. -/

namespace Sys2Proof.Machine
open Sys2Proof Sys2Proof.Safety

/-- What REN's cycle needs in order to complete, and keeps. -/
structure RenderSound (s : State) : Prop where
  handshake : HandshakeSound s
  partition : OwnershipPartition s
  render : RenderInv s
  offering : s.ren.tp ≠ .idle → s.ren.renState = .emit ∧ s.ren.rowY < s.cfg.h

theorem RenderSound.of_coreInv {s : State} (h : CoreInv s) : RenderSound s :=
  ⟨.of_coreInv h, h.partition, h.render, h.transport.1⟩

/-- R201: with the cursor in SB every byte is handled, in every decoder state. -/
theorem handleByte_completes {s : State} (hc : s.dec.cursor < s.cfg.cap) (b : Byte) : ∃ t, handleByte b s = .next t := by
  cases hs : s.dec.decState with
  | idle =>
    rw [handleByte_idle hs]
    rcases classify_cases s.cfg.map b with ⟨-, e⟩ | ⟨-, e⟩ | ⟨k, -, e⟩ | ⟨-, -, -, e⟩ <;> rw [e]
    · exact ⟨_, exec_displayOff hs⟩
    · exact ⟨_, exec_displayOn hs⟩
    · exact ⟨_, exec_oneArg_idle hs k b⟩
    · exact ⟨_, exec_ignored hs b⟩
  | awaitArg => exact ⟨_, handleByte_awaitArg hs b⟩
  | pixel => exact ⟨_, handleByte_pixel hs hc b⟩

theorem emitRow_completes {s : State} (h : s.ren.rowY ≤ s.cfg.h) : ∃ t, emitRow s = .next t := by
  unfold emitRow
  split
  · exact ⟨_, rfl⟩
  · rw [if_neg h.not_gt]
    split <;> exact ⟨_, rfl⟩

theorem renEmit_completes {s : State} (h : s.ren.rowY ≤ s.cfg.h) (tp : TpIn) : ∃ t, renEmit tp s = .next t := by
  unfold renEmit
  split
  · exact emitRow_completes h
  · exact ⟨_, rfl⟩
  · exact ⟨_, rfl⟩
  · exact ⟨_, rfl⟩

/-- R300: each state's rule completes on the registers it reads. -/
theorem renRule_completes {s : State} (h : RenderSound s) (tp : TpIn) : ∃ t, renRule tp s = .next t := by
  obtain ⟨hcur, hclear, hdecode, hemit⟩ := h.render
  cases hs : s.ren.renState with
  | clear => simp only [renRule, hs, renClear, State.writeSb, if_pos (hclear hs)]; exact ⟨_, rfl⟩
  | acquire => simp only [renRule, hs]; exact ⟨_, rfl⟩
  | decode =>
    obtain ⟨hptr, hheld, hidx⟩ := hdecode hs
    obtain ⟨u, hu⟩ := handleByte_completes hcur s.fetchByte
    have hbuf : s.ren.curIdx < s.cfg.nbuf := hidx ▸ heldIdx_lt_nbuf h.partition hheld
    simp only [renRule, hs, renDecode, if_pos (And.intro hbuf hptr), hu]
    exact ⟨_, rfl⟩
  | emit => simp only [renRule, hs]; exact renEmit_completes (hemit hs).1 tp
  | commit => simp only [renRule, hs]; exact ⟨_, rfl⟩
  | abort => simp only [renRule, hs]; exact ⟨_, rfl⟩

/-! ## The ranges are kept -/

/-- The ranges of REN's registers, and that a rectangle is in progress only at a row, in EMIT. -/
abbrev RenderRanges (s : State) : Prop :=
  RenderInv s ∧ (s.ren.tp ≠ .idle → s.ren.renState = .emit ∧ s.ren.rowY < s.cfg.h)

/-- In ACQUIRE, COMMIT and ABORT no rule reads a register with a range but the cursor. -/
theorem renderRanges_at_rest {s : State} (hs : s.ren.renState = .acquire ∨ s.ren.renState = .commit ∨ s.ren.renState = .abort)
    (hcur : s.dec.cursor < s.cfg.cap) (htp : s.ren.tp = .idle) : RenderRanges s := by
  rcases hs with hs | hs | hs <;> exact ⟨⟨hcur, by simp [hs], by simp [hs], by simp [hs]⟩, fun h => absurd htp h⟩

theorem renderRanges_clear {s : State} (hs : s.ren.renState = .clear) (hcur : s.dec.cursor < s.cfg.cap) (htp : s.ren.tp = .idle)
    (hptr : s.ren.clrPtr < s.cfg.cap) : RenderRanges s :=
  ⟨⟨hcur, fun _ => hptr, by simp [hs], by simp [hs]⟩, fun h => absurd htp h⟩

theorem renderRanges_decode {s : State} (hs : s.ren.renState = .decode) (hcur : s.dec.cursor < s.cfg.cap) (htp : s.ren.tp = .idle)
    (hptr : s.ren.decPtr < s.cfg.cap) (hheld : s.ing.heldValid = true) (hidx : s.ren.curIdx = s.ing.heldIdx) : RenderRanges s :=
  ⟨⟨hcur, by simp [hs], fun _ => ⟨hptr, hheld, hidx⟩, by simp [hs]⟩, fun h => absurd htp h⟩

theorem renderRanges_emit {s : State} (hs : s.ren.renState = .emit) (hcur : s.dec.cursor < s.cfg.cap)
    (hy : s.ren.rowY ≤ s.cfg.h) (hdy : s.ren.rowDy < s.cfg.sy) (hlast : s.ren.rowY = s.cfg.h → s.ren.rowDy = 0)
    (htp : s.ren.tp ≠ .idle → s.ren.rowY < s.cfg.h) : RenderRanges s :=
  ⟨⟨hcur, by simp [hs], by simp [hs], fun _ => ⟨hy, hdy, hlast⟩⟩, fun h => ⟨hs, htp h⟩⟩

/-- R223: `handle_byte` keeps the cursor in SB. -/
theorem handleByte_cursor_lt {b : Byte} {s t : State} (hl : s.cfg.Legal) (hc : s.dec.cursor < s.cfg.cap)
    (h : handleByte b s = .next t) : t.dec.cursor < s.cfg.cap := by
  obtain ⟨-, -, -, e | e | e⟩ := handleByte_next h <;> rw [e]
  · exact hc
  · exact Config.cap_pos hl
  · exact Nat.mod_lt _ (Config.cap_pos hl)

/-- R320: after a repeat of a row comes another of it, or the next row from its first. -/
theorem nextRepeat_row {c : Config} {r : Render} (hy : r.rowY < c.h) (hsy : 1 ≤ c.sy) :
    (nextRepeat c r).rowY ≤ c.h ∧ (nextRepeat c r).rowDy < c.sy ∧
      ((nextRepeat c r).rowY = c.h → (nextRepeat c r).rowDy = 0) := by
  unfold nextRepeat
  split
  · next hrep => exact ⟨hy.le, hrep, fun e => absurd e hy.ne⟩
  · exact ⟨hy, hsy, fun _ => rfl⟩

/-- TP's answer in EMIT (R320): an error leaves EMIT, and an OK answer goes to the next repeat or the next row. -/
theorem takeAnswer_ranges {s : State} (hs : s.ren.renState = .emit) (hl : s.cfg.Legal) (hcur : s.dec.cursor < s.cfg.cap)
    (hy : s.ren.rowY < s.cfg.h) (err : Bool) : RenderRanges (takeAnswer err s) := by
  obtain ⟨⟨-, -, -, -, hsy⟩, -⟩ := Config.legal_parts hl
  cases err with
  | true => exact renderRanges_at_rest (.inr (.inr rfl)) hcur rfl
  | false =>
    obtain ⟨hy', hdy, hlast⟩ := nextRepeat_row (r := { s.ren with tp := .idle }) hy hsy
    exact renderRanges_emit ((nextRepeat_renState _ _).trans hs) hcur hy' hdy hlast fun hp => absurd (nextRepeat_tp _ _) hp

/-- DECODE (R308): the index moves on, and after the last byte EMIT begins at row 0. -/
theorem renDecode_ranges {s t : State} (hs : s.ren.renState = .decode) (htp : s.ren.tp = .idle) (h : RenderSound s)
    (hr : renDecode s = .next t) : RenderRanges t := by
  obtain ⟨hcur, -, hdecode, -⟩ := h.render
  obtain ⟨-, hheld, hidx⟩ := hdecode hs
  obtain ⟨⟨-, -, -, -, hsy⟩, -⟩ := Config.legal_parts h.handshake.legal
  obtain ⟨-, hptr, u, hu, rfl⟩ := renDecode_next hr
  obtain ⟨hcfg, hing, -⟩ := handleByte_keeps hu
  have hren : u.ren = s.ren := by rw [(handleByte_next hu).1]
  have hcur' : u.dec.cursor < u.cfg.cap := hcfg ▸ handleByte_cursor_lt h.handshake.legal hcur hu
  by_cases hlast : s.ren.decPtr + 1 = s.cfg.cap
  · have hdy : (decodeNext u).ren.rowDy < u.cfg.sy := by
      rw [decodeNext_rowDy, hren, hcfg, if_pos hlast]
      exact hsy
    exact renderRanges_emit (by simp [hren, hcfg, hlast]) hcur' (by simp [hren, hcfg, hlast]) hdy (by simp [hren, hcfg, hlast])
      (by simp [hren, htp])
  · have hptr' : (decodeNext u).ren.decPtr < u.cfg.cap := by
      rw [decodeNext_decPtr, hren, hcfg]
      omega
    exact renderRanges_decode (by simp [hren, hcfg, hlast, hs]) hcur' (by simp [hren, htp]) hptr' (by simp [hing, hheld])
      (by simp [hren, hing, hidx])

/-- EMIT (R320, R321): the row is passed or skipped, and what is offered is a rectangle of it. -/
theorem renEmit_ranges {s t : State} {tp : TpIn} (hs : s.ren.renState = .emit) (h : RenderSound s) (hr : renEmit tp s = .next t) :
    RenderRanges t := by
  obtain ⟨hcur, -, -, hemit⟩ := h.render
  obtain ⟨hy, hdy, hlast⟩ := hemit hs
  have hoff (hp : s.ren.tp ≠ .idle) : s.ren.rowY < s.cfg.h := (h.offering hp).2
  have hmoved (p : TpPhase) (hp : s.ren.tp ≠ .idle) : RenderRanges { s with ren := { s.ren with tp := p } } :=
    renderRanges_emit hs hcur hy hdy hlast fun _ => hoff hp
  rcases renEmit_next hr with ⟨hp, hr⟩ | ⟨-, rfl⟩ | ⟨r, hp, rfl⟩ | ⟨r, i, hp, rfl⟩ | ⟨hp, rfl⟩
  · rcases emitRow_next hr with ⟨-, rfl⟩ | ⟨hlt, h0, -, rfl⟩ | ⟨hlt, -, rfl⟩
    · exact renderRanges_at_rest (.inr (.inl rfl)) hcur hp
    · exact renderRanges_emit hs hcur hlt hdy (fun _ => h0) fun hne => absurd hp hne
    · exact renderRanges_emit hs hcur hy hdy hlast fun _ => hlt
  · exact ⟨h.render, h.offering⟩
  · exact hmoved _ (by simp [hp])
  · exact hmoved _ (by simp [hp])
  · exact takeAnswer_ranges hs h.handshake.legal hcur (hoff (by simp [hp])) _

theorem renRule_ranges {s t : State} {tp : TpIn} (h : RenderSound s) (hr : renRule tp s = .next t) : RenderRanges t := by
  obtain ⟨hcur, hclear, hdecode, hemit⟩ := h.render
  have hidle (hs : s.ren.renState ≠ .emit) : s.ren.tp = .idle := by_contra fun hp => hs (h.offering hp).1
  unfold renRule at hr
  split at hr
  · next hs =>
    have htp := hidle (by simp [hs])
    obtain ⟨hlt, rfl⟩ := renClear_next hr
    by_cases hlast : s.ren.clrPtr + 1 = s.cfg.cap
    · simp only [if_pos hlast]; exact renderRanges_at_rest (.inl rfl) hcur htp
    · simp only [if_neg hlast]; exact renderRanges_clear hs hcur htp (show s.ren.clrPtr + 1 < s.cfg.cap by omega)
  · next hs =>
    have htp := hidle (by simp [hs])
    cases hr
    rcases renAcquire_cases s with ⟨-, e⟩ | ⟨hseen, hok, e⟩ | ⟨-, -, e⟩ <;> rw [e]
    · exact renderRanges_at_rest (.inl hs) hcur htp
    · have hp : AnswerPending s := by_contra fun hn => hseen (h.handshake.syncOut_ackSync hn)
      obtain ⟨-, -, hheld, hidx⟩ := h.handshake.of_answerPending hp
      exact renderRanges_decode rfl hcur htp (Config.cap_pos h.handshake.legal) (hheld.trans hok) (hidx hok).symm
    · exact renderRanges_at_rest (.inl hs) hcur htp
  · next hs =>
    exact renDecode_ranges hs (hidle (by simp [hs])) h hr
  · next hs => exact renEmit_ranges hs h hr
  · next hs =>
    cases hr
    have htp : (renCommit s).ren.tp = .idle := by
      simp only [renCommit]
      split <;> exact hidle (by simp [hs])
    exact renderRanges_at_rest (.inl rfl) hcur htp
  · next hs => cases hr; exact renderRanges_at_rest (.inl rfl) hcur (hidle (by simp [hs]))

/-- R300: short of a breach of TP's duty REN's cycle completes, and keeps what the next one needs. -/
theorem RenderSound.cycle_completes {s : State} {tp : TpIn} (h : RenderSound s)
    (hduty : ¬(tp.respValid = true ∧ s.ren.tp ≠ .resp)) (y : Sync) : ∃ t, renCycle tp y s = .next t ∧ RenderSound t := by
  have hbegin : RenderSound (renBegin y s) := ⟨h.handshake.begin_ren y, h.partition, h.render, h.offering⟩
  obtain ⟨u, hu⟩ := renRule_completes hbegin tp
  have hc : renCycle tp y s = .next (renFinish y u) := by rw [renCycle, if_neg hduty, hu, Answer.andThen_next]
  obtain ⟨hcfg, hing, -⟩ := renCycle_keeps hc
  obtain ⟨hrender, hoff⟩ := renRule_ranges hbegin hu
  refine ⟨_, hc, h.handshake.of_renCycle hc, ?_, hrender, hoff⟩
  rw [OwnershipPartition, places, hing, hcfg]
  exact h.partition

end Sys2Proof.Machine
end

section
/-! Progress of the handshake (41_exchange.md R268, R269): in time on the reference synchronisers, and on fair infinite runs. -/

namespace Sys2Proof.Machine
open Sys2Proof Sys2Proof.Safety

/-! ## In time (R269) -/

/-- A served request is a pending answer (R253). -/
theorem answerPending_of_served {s t : State} {bus : BusIn} {y : Sync} (h : HandshakeSound s) (hp : RequestPending s)
    (hc : ingCycle bus y s = .next t) (hserved : t.ing.ackTgl ≠ s.ing.ackTgl) : AnswerPending t := by
  obtain ⟨-, -, hren, -⟩ := ingCycle_keeps hc
  rw [AnswerPending, hren, ← not_not.1 (h.of_requestPending hp).2]
  exact hserved

/-- ING leaves a pending answer (R254). -/
theorem ingCycle_keeps_answerPending {s t : State} {bus : BusIn} {y : Sync} (h : HandshakeSound s) (hp : AnswerPending s)
    (hc : ingCycle bus y s = .next t) : AnswerPending t := by
  obtain ⟨-, -, hren, -⟩ := ingCycle_keeps hc
  rw [AnswerPending, hren, ingCycle_ackTgl_of_not_requestPending h (h.of_answerPending hp).2.1 hc]
  exact hp

/-- A request that has come through `j` stages is served within the rest of them and one cycle more. -/
theorem ingCycles_serve {buses : List BusIn} {s : State} {j : Nat} (hs : ExchangeSound s) (hh : HandshakeSound s)
    (hrun : AnswerPending s ∨
      (RequestPending s ∧ Through j s.ren.reqTgl s.ing.reqSync ∧ s.cfg.syncStages < j + buses.length)) :
    ∃ t, ingCycles buses s = .next t ∧ HandshakeSound t ∧ AnswerPending t := by
  induction buses generalizing s j with
  | nil =>
    rcases hrun with hp | ⟨-, ⟨hj, -⟩, hlt⟩
    · exact ⟨s, rfl, hh, hp⟩
    · rw [hh.reqSync_length] at hj
      simp only [List.length_nil] at hlt
      omega
  | cons bus rest ih =>
    obtain ⟨t, ht, hst⟩ := hs.cycle_completes bus .shift
    rw [ingCycles, ht, Answer.andThen_next]
    refine ih (j := j + 1) hst (hh.of_ingCycle ht) ?_
    rcases hrun with hp | ⟨hp, hj, hlt⟩
    · exact .inl (ingCycle_keeps_answerPending hh hp ht)
    · rcases ingCycle_request hp ht with hserved | hp'
      · exact .inl (answerPending_of_served hh hp ht hserved)
      · refine .inr ⟨hp', (ingCycle_through hh ht hp' hj).2 (by simp), ?_⟩
        rw [(ingCycle_keeps ht).1]
        simp only [List.length_cons] at hlt
        omega

/-- An answer that has come through `j` stages is taken within the rest of them and one cycle more. -/
theorem renCycles_take {tps : List TpIn} {s : State} {j : Nat} (hs : RenderSound s)
    (hrun : ¬AnswerPending s ∨
      (AnswerPending s ∧ Through j s.ing.ackTgl s.ren.ackSync ∧ s.cfg.syncStages < j + tps.length)) :
    renCycles tps s = .refused .tpDutyBreach ∨ ∃ t, renCycles tps s = .next t ∧ ¬AnswerPending t := by
  induction tps generalizing s j with
  | nil =>
    rcases hrun with hn | ⟨-, ⟨hj, -⟩, hlt⟩
    · exact .inr ⟨s, rfl, hn⟩
    · rw [hs.handshake.ackSync_length] at hj
      simp only [List.length_nil] at hlt
      omega
  | cons tp rest ih =>
    by_cases hduty : tp.respValid = true ∧ s.ren.tp ≠ .resp
    · exact .inl (by rw [renCycles, renCycle, if_pos hduty, Answer.andThen_refused])
    · obtain ⟨t, ht, hst⟩ := hs.cycle_completes hduty .shift
      rw [renCycles, ht, Answer.andThen_next]
      refine ih (j := j + 1) hst ?_
      rcases hrun with hn | ⟨hp, hj, hlt⟩
      · exact .inl (renCycle_keeps_not_answerPending hs.handshake hn ht)
      · by_cases hp' : AnswerPending t
        · refine .inr ⟨hp', (renCycle_through hs.handshake hp ht hp' hj).2 (by simp), ?_⟩
          rw [(renCycle_keeps ht).1]
          simp only [List.length_cons] at hlt
          omega
        · exact .inl hp'

/-! ## One step of a run (R268) -/

/-- R450: a reset leaves nothing under way. -/
theorem HandshakeSound.applyReset {s : State} (h : HandshakeSound s) : HandshakeSound s.applyReset := by
  refine ⟨h.legal, List.length_replicate, List.length_replicate, .inl ⟨?_, ?_, ?_, ?_, ?_⟩⟩
  · simp [State.resetOf]
  · simp [RequestPending, State.resetOf]
  · simp [AnswerPending, State.resetOf]
  · exact fun x hx => (List.mem_replicate.1 hx).2
  · exact fun x hx => (List.mem_replicate.1 hx).2

theorem HandshakeSound.of_runTick {k : Tick} {s t : State} (h : HandshakeSound s) (hr : runTick k s = .next t) :
    HandshakeSound t := by
  rcases runTick_next hr with ⟨bus, y, -, hc⟩ | ⟨tp, y, -, hc⟩ | ⟨-, rfl⟩
  · exact h.of_ingCycle hc
  · exact h.of_renCycle hc
  · exact h.applyReset

/-- A pending request is served by a step, or stays pending, unless a reset comes. -/
theorem requestPending_persists {k : Tick} {s t : State} (h : HandshakeSound s) (hp : RequestPending s)
    (hr : runTick k s = .next t) (hk : k ≠ .reset) : Serve k s t ∨ RequestPending t := by
  rcases runTick_next hr with ⟨bus, y, -, hc⟩ | ⟨tp, y, -, hc⟩ | ⟨hreset, -⟩
  · exact (ingCycle_request hp hc).imp_left fun hne => ⟨hk, hne⟩
  · rw [renCycle_waits h hp hc]; exact .inr hp
  · exact absurd hreset hk

/-- A pending answer is taken by a step, or stays pending, unless a reset comes. -/
theorem answerPending_persists {k : Tick} {s t : State} (h : HandshakeSound s) (hp : AnswerPending s)
    (hr : runTick k s = .next t) (hk : k ≠ .reset) : Take k s t ∨ AnswerPending t := by
  rcases runTick_next hr with ⟨bus, y, -, hc⟩ | ⟨tp, y, -, hc⟩ | ⟨hreset, -⟩
  · exact .inr (ingCycle_keeps_answerPending h hp hc)
  · by_cases htaken : t.ren.ackSeen = s.ren.ackSeen
    · obtain ⟨-, hing, -⟩ := renCycle_keeps hc
      exact .inr (by rw [AnswerPending, hing, htaken]; exact hp)
    · exact .inl ⟨hk, htaken⟩
  · exact absurd hreset hk

/-- A request that is pending before and after a step keeps its place in the synchroniser, and a clk_i cycle that does not hold
moves it on. -/
theorem runTick_request_through {k : Tick} {s t : State} {j : Nat} (h : HandshakeSound s) (hs : RequestPending s)
    (hr : runTick k s = .next t) (ht : RequestPending t) (hj : Through j s.ren.reqTgl s.ing.reqSync) :
    Through j t.ren.reqTgl t.ing.reqSync ∧
      ((∃ bus y, y ≠ .hold ∧ k = .clkI bus y) → Through (j + 1) t.ren.reqTgl t.ing.reqSync) := by
  rcases runTick_next hr with ⟨bus, y, rfl, hc⟩ | ⟨tp, y, rfl, hc⟩ | ⟨-, rfl⟩
  · obtain ⟨hkeep, hmove⟩ := ingCycle_through h hc ht hj
    refine ⟨hkeep, ?_⟩
    rintro ⟨_, _, hy, ⟨⟩⟩
    exact hmove hy
  · rw [renCycle_waits h hs hc]
    refine ⟨hj, ?_⟩
    rintro ⟨_, _, -, ⟨⟩⟩
  · simp [RequestPending, State.resetOf] at ht

/-- The same of an answer and clk_r. -/
theorem runTick_answer_through {k : Tick} {s t : State} {j : Nat} (h : HandshakeSound s) (hs : AnswerPending s)
    (hr : runTick k s = .next t) (ht : AnswerPending t) (hj : Through j s.ing.ackTgl s.ren.ackSync) :
    Through j t.ing.ackTgl t.ren.ackSync ∧
      ((∃ tp y, y ≠ .hold ∧ k = .clkR tp y) → Through (j + 1) t.ing.ackTgl t.ren.ackSync) := by
  rcases runTick_next hr with ⟨bus, y, rfl, hc⟩ | ⟨tp, y, rfl, hc⟩ | ⟨-, rfl⟩
  · obtain ⟨-, -, hren, -⟩ := ingCycle_keeps hc
    rw [hren, ingCycle_ackTgl_of_not_requestPending h (h.of_answerPending hs).2.1 hc]
    refine ⟨hj, ?_⟩
    rintro ⟨_, _, -, ⟨⟩⟩
  · obtain ⟨hkeep, hmove⟩ := renCycle_through h hs hc ht hj
    refine ⟨hkeep, ?_⟩
    rintro ⟨_, _, hy, ⟨⟩⟩
    exact hmove hy
  · simp [AnswerPending, State.resetOf] at ht

/-! ## Infinite runs (R269, D39) -/

/-- The listed choice of a run is the step it takes, and the handshake's invariant holds all along. -/
theorem run_sound {env : Nat → Tick} {run : Nat → State} (h0 : CoreInv (run 0)) (hrun : Run env run) (n : Nat) :
    HandshakeSound (run n) ∧ runTick (env n) { run n with inputs := [] } = .next (run (n + 1)) := by
  have htick (m : Nat) (h : HandshakeSound (run m)) : runTick (env m) { run m with inputs := [] } = .next (run (m + 1)) :=
    (step_inputs_cons (s := { run m with inputs := [env m] }) h.legal rfl).symm.trans (hrun m)
  have hsound : HandshakeSound (run n) := by
    induction n with
    | zero => exact .of_coreInv h0
    | succ n ih => exact HandshakeSound.of_runTick (s := { run n with inputs := [] }) ⟨ih.legal, ih.inv⟩ (htick n ih)
  exact ⟨hsound, htick n hsound⟩

/-- Under weak fairness an action that stays enabled until it happens does happen, unless a reset comes. -/
theorem weaklyFair_happens {env : Nat → Tick} {run : Nat → State} {enabled : State → Prop}
    {acts : Tick → State → State → Prop}
    (hfair : WeaklyFair env run enabled acts)
    (hpersists : ∀ m, enabled (run m) → env m ≠ .reset → acts (env m) (run m) (run (m + 1)) ∨ enabled (run (m + 1)))
    {n : Nat} (hn : enabled (run n)) : ∃ m, n ≤ m ∧ (acts (env m) (run m) (run (m + 1)) ∨ env m = .reset) := by
  by_contra hnever
  push Not at hnever
  have hall (m : Nat) (hm : n ≤ m) : enabled (run m) := by
    induction m, hm using Nat.le_induction with
    | base => exact hn
    | succ m hm ih => exact (hpersists m ih (hnever m hm).2).resolve_left (hnever m hm).1
  obtain ⟨m, hm, hact⟩ := hfair n hall
  exact (hnever m hm).1 hact

/-- A toggle that keeps its place from `n` on, and again and again moves on one stage, comes through any number of stages. -/
theorem eventually_through {toggle : Nat → Bool} {chain : Nat → List Bool} {moves : Nat → Prop} {n : Nat}
    (hkeeps : ∀ m j, n ≤ m → Through j (toggle m) (chain m) →
      Through j (toggle (m + 1)) (chain (m + 1)) ∧ (moves m → Through (j + 1) (toggle (m + 1)) (chain (m + 1))))
    (hmoves : ∀ k, ∃ m, k ≤ m ∧ moves m) (j : Nat) : ∃ m, n ≤ m ∧ Through j (toggle m) (chain m) := by
  induction j with
  | zero => exact ⟨n, le_rfl, .zero _ _⟩
  | succ j ih =>
    obtain ⟨k, hk, hthrough⟩ := ih
    obtain ⟨m, hm, hmove⟩ := hmoves k
    have hstill : Through j (toggle m) (chain m) := by
      clear hmove
      induction m, hm using Nat.le_induction with
      | base => exact hthrough
      | succ m hm ih => exact (hkeeps m j (hk.trans hm) ih).1
    exact ⟨m + 1, by omega, (hkeeps m j (hk.trans hm) hstill).2 hmove⟩

theorem runTick_cfg {k : Tick} {s t : State} (h : runTick k s = .next t) : t.cfg = s.cfg := by
  rcases runTick_next h with ⟨bus, y, -, hc⟩ | ⟨tp, y, -, hc⟩ | ⟨-, rfl⟩
  · exact (ingCycle_keeps hc).1
  · exact (renCycle_keeps hc).1
  · rfl

theorem run_cfg {env : Nat → Tick} {run : Nat → State} (h0 : CoreInv (run 0)) (hrun : Run env run) (n : Nat) :
    (run n).cfg = (run 0).cfg := by
  induction n with
  | zero => rfl
  | succ n ih => exact (runTick_cfg (run_sound h0 hrun n).2).trans ih

/-- Running clocks serve a pending request: were it pending for ever, its toggle would come through more stages than there are. -/
theorem serve_fair_of_clocksRun {env : Nat → Tick} {run : Nat → State} (hclocks : ClocksRun env) (h0 : CoreInv (run 0))
    (hrun : Run env run) : WeaklyFair env run RequestPending Serve := by
  intro n hpending
  have hkeeps (m j : Nat) (hm : n ≤ m) (hj : Through j (run m).ren.reqTgl (run m).ing.reqSync) :
      Through j (run (m + 1)).ren.reqTgl (run (m + 1)).ing.reqSync ∧
        ((∃ bus y, y ≠ .hold ∧ env m = .clkI bus y) →
          Through (j + 1) (run (m + 1)).ren.reqTgl (run (m + 1)).ing.reqSync) := by
    obtain ⟨hs, ht⟩ := run_sound h0 hrun m
    exact runTick_request_through (s := { run m with inputs := [] }) ⟨hs.legal, hs.inv⟩ (hpending m hm) ht
      (hpending (m + 1) (by omega)) hj
  obtain ⟨m, -, hlen, -⟩ := eventually_through (toggle := fun m => (run m).ren.reqTgl) (chain := fun m => (run m).ing.reqSync)
    hkeeps (fun k => (hclocks k).1) ((run 0).cfg.syncStages + 1)
  rw [(run_sound h0 hrun m).1.reqSync_length, run_cfg h0 hrun m] at hlen
  omega

/-- The same of an answer and REN's clock. -/
theorem take_fair_of_clocksRun {env : Nat → Tick} {run : Nat → State} (hclocks : ClocksRun env) (h0 : CoreInv (run 0))
    (hrun : Run env run) : WeaklyFair env run AnswerPending Take := by
  intro n hpending
  have hkeeps (m j : Nat) (hm : n ≤ m) (hj : Through j (run m).ing.ackTgl (run m).ren.ackSync) :
      Through j (run (m + 1)).ing.ackTgl (run (m + 1)).ren.ackSync ∧
        ((∃ tp y, y ≠ .hold ∧ env m = .clkR tp y) →
          Through (j + 1) (run (m + 1)).ing.ackTgl (run (m + 1)).ren.ackSync) := by
    obtain ⟨hs, ht⟩ := run_sound h0 hrun m
    exact runTick_answer_through (s := { run m with inputs := [] }) ⟨hs.legal, hs.inv⟩ (hpending m hm) ht
      (hpending (m + 1) (by omega)) hj
  obtain ⟨m, -, hlen, -⟩ := eventually_through (toggle := fun m => (run m).ing.ackTgl) (chain := fun m => (run m).ren.ackSync)
    hkeeps (fun k => (hclocks k).2) ((run 0).cfg.syncStages + 1)
  rw [(run_sound h0 hrun m).1.ackSync_length, run_cfg h0 hrun m] at hlen
  omega

/-- Settles O39: in time, since each cycle that leaves a toggle pending moves it one stage on; and on infinite runs, since what is
pending stays pending until it is served or taken, or a reset comes. -/
theorem requestServedInTime : Obligations.RequestServedInTime := by
  refine ⟨fun s buses hinv hp hlen => ?served, fun s tps hinv hp hlen => ?taken, fun env run h0 hrun hfair n => ?fair,
    fun env run h0 hrun hclocks => ⟨serve_fair_of_clocksRun hclocks h0 hrun, take_fair_of_clocksRun hclocks h0 hrun⟩⟩
  case served =>
    obtain ⟨t, ht, hh, hp'⟩ := ingCycles_serve (buses := buses) (.of_coreInv hinv) (.of_coreInv hinv)
      (.inr ⟨hp, .zero _ _, by omega⟩)
    exact ⟨t, ht, (hh.of_answerPending hp').2.1, hp'⟩
  case taken => exact renCycles_take (.of_coreInv hinv) (.inr ⟨hp, .zero _ _, by omega⟩)
  case fair =>
    refine ⟨weaklyFair_happens hfair.1 fun m hm hk => ?_, weaklyFair_happens hfair.2 fun m hm hk => ?_⟩
    · obtain ⟨hs, ht⟩ := run_sound h0 hrun m
      exact requestPending_persists (s := { run m with inputs := [] }) ⟨hs.legal, hs.inv⟩ hm ht hk
    · obtain ⟨hs, ht⟩ := run_sound h0 hrun m
      exact answerPending_persists (s := { run m with inputs := [] }) ⟨hs.legal, hs.inv⟩ hm ht hk

end Sys2Proof.Machine
end

section
/-! REN's rules of CLEAR, ACQUIRE, DECODE, COMMIT and ABORT (42_render.md R301, R303, R308, R327, R328): what each answers. -/

namespace Sys2Proof.Machine
open Sys2Proof

/-! ## The rule of each state (R300) -/

theorem renRule_clear {s : State} (h : s.ren.renState = .clear) (tp : TpIn) : renRule tp s = renClear s := by
  simp only [renRule, h]

theorem renRule_acquire {s : State} (h : s.ren.renState = .acquire) (tp : TpIn) : renRule tp s = .next (renAcquire s) := by
  simp only [renRule, h]

theorem renRule_decode {s : State} (h : s.ren.renState = .decode) (tp : TpIn) : renRule tp s = renDecode s := by
  simp only [renRule, h]

theorem renRule_emit {s : State} (h : s.ren.renState = .emit) (tp : TpIn) : renRule tp s = renEmit tp s := by
  simp only [renRule, h]

theorem renRule_commit {s : State} (h : s.ren.renState = .commit) (tp : TpIn) : renRule tp s = .next (renCommit s) := by
  simp only [renRule, h]

theorem renRule_abort {s : State} (h : s.ren.renState = .abort) (tp : TpIn) : renRule tp s = .next (renAbort s) := by
  simp only [renRule, h]

/-! ## CLEAR and DECODE where their indices are in range -/

/-- CLEAR inside SB (R301). -/
theorem renClear_eq {s : State} (h : s.ren.clrPtr < s.cfg.cap) :
    renClear s = .next { s with
      dec := { s.dec with sb := Memory.write Space.sb.unlisted s.dec.sb s.ren.clrPtr 0x00 }
      ren := if s.ren.clrPtr + 1 = s.cfg.cap then enterAcquire { s.ren with clrPtr := s.ren.clrPtr + 1 }
        else { s.ren with clrPtr := s.ren.clrPtr + 1 } } := by
  rw [renClear, State.writeSb, if_pos h, Answer.andThen_next]

/-- DECODE inside the arena, on a byte that is handled (R308). -/
theorem renDecode_eq {s u : State} (hidx : s.ren.curIdx < s.cfg.nbuf) (hptr : s.ren.decPtr < s.cfg.cap)
    (hu : handleByte s.fetchByte s = .next u) : renDecode s = .next (decodeNext u) := by
  rw [renDecode, if_pos ⟨hidx, hptr⟩, hu, Answer.andThen_next]

/-- `handle_byte` leaves REN's registers and the parameters alone, so the decode index moves on from where it was. -/
theorem decodeNext_handled {b : Byte} {s u : State} (hu : handleByte b s = .next u) :
    decodeNext u = { u with
      ren := if s.ren.decPtr + 1 = s.cfg.cap then
          { s.ren with decPtr := s.ren.decPtr + 1, rowY := 0, rowDy := 0, renState := .emit }
        else { s.ren with decPtr := s.ren.decPtr + 1 } } := by
  rw [(handleByte_next hu).1]
  rfl

/-- Settles O25: the byte written reads as 0x00 because SB is in canonical form. -/
theorem clearStep : Obligations.ClearStep := fun tp _ hs hwf hptr =>
  ⟨_, (renRule_clear hs tp).trans (renClear_eq hptr), rfl, State.readSb_write_eq hwf, fun _ => State.readSb_write_ne⟩

/-- Settles O12: with the cursor in SB the fetched byte is handled, whatever it is. -/
theorem decodeStep : Obligations.DecodeStep := by
  intro tp s hs hidx hptr hcur
  obtain ⟨u, hu⟩ := handleByte_completes hcur s.fetchByte
  refine ⟨u, hu, ?_⟩
  rw [renRule_decode hs, renDecode_eq hidx hptr hu, decodeNext_handled hu]

/-! ## ACQUIRE (R303) -/

/-- Settles O40: no answer seen, a granted buffer, and "no frame". -/
theorem takeAnswerEffect : Obligations.TakeAnswerEffect := by
  intro tp s hs
  rw [renRule_acquire hs]
  rcases renAcquire_cases s with ⟨hwait, e⟩ | ⟨hseen, hok, e⟩ | ⟨hseen, hok, e⟩ <;> rw [e]
  · exact ⟨fun _ => rfl, fun h => absurd hwait h, fun h => absurd hwait h⟩
  · exact ⟨fun h => absurd h hseen, fun _ _ => rfl, fun _ hnone => (nomatch hok.symm.trans hnone)⟩
  · exact ⟨fun h => absurd h hseen, fun _ hgrant => (nomatch hok.symm.trans hgrant), fun _ _ => rfl⟩

/-! ## COMMIT (R327) and ABORT (R328) -/

theorem renCommit_copies {s : State} (h : s.cfg.dirtyEn = true) :
    renCommit s = { s with ren := { s.ren with
      pb := Memory.ofBytes s.cfg.cap s.readSb, prevValid := true, renState := .acquire, reqTgl := !s.ren.reqTgl } } := by
  simp only [renCommit, h, if_true]
  rfl

theorem renCommit_keeps_pb {s : State} (h : s.cfg.dirtyEn = false) :
    renCommit s = { s with ren := { s.ren with renState := .acquire, reqTgl := !s.ren.reqTgl } } := by
  simp only [renCommit, h, Bool.false_eq_true, if_false]
  rfl

/-- Settles O49: with `DIRTY_EN` PB is the copy of SB, whose bytes below CAP are all listed; without it PB stays. -/
theorem commitStep : Obligations.CommitStep := by
  intro tp s hs
  refine ⟨renCommit s, renRule_commit hs tp, ?_⟩
  cases hd : s.cfg.dirtyEn with
  | true =>
    rw [renCommit_copies hd]
    refine ⟨rfl, fun _ => ⟨rfl, fun i hi => ?_⟩, (nomatch ·)⟩
    simp only [State.readPb, Space.unlisted_pb, Memory.read_ofBytes s.readSb hi, Option.getD_some]
  | false =>
    rw [renCommit_keeps_pb hd]
    exact ⟨rfl, (nomatch ·), fun _ => ⟨rfl, fun _ => rfl⟩⟩

/-- Settles O50: `prev_valid` falls and the pass is counted; then ACQUIRE with its request. -/
theorem abortStep : Obligations.AbortStep := fun tp _ hs => renRule_abort hs tp

end Sys2Proof.Machine
end

section
/-! The rows of a pass (42_render.md R309 to R315, R322, R323): a scaled row's pixels, the rows that are skipped, a row's
rectangle in its 16-bit fields, and the order of a pass's rectangles. -/

namespace Sys2Proof.Machine
open Sys2Proof Sys2Proof.Safety

/-! ## Scaled and skipped rows -/

/-- Pixel `x` of `row(M, y)` (R309). -/
theorem State.rowOf_getElem? (s : State) (m : Nat → Byte) (y : Nat) {x : Nat} (hx : x < s.cfg.w) :
    (s.rowOf m y)[x]? = some (pixel s.cfg m x y) := by
  rw [State.rowOf, List.getElem?_map, List.getElem?_range hx, Option.map_some]

/-- Pixel `j` of `scaled(y)` (R311). -/
theorem State.scaledRow_getElem? (s : State) (y : Nat) {j : Nat} (hj : j < s.cfg.w * s.cfg.sx) :
    (s.scaledRow y)[j]? = some (pixel s.cfg s.readSb (j / s.cfg.sx) y) := by
  rw [State.scaledRow, Config.wd, List.getElem?_map, List.getElem?_range hj, Option.map_some]

/-- Settles O44: the source pixel of a destination pixel lies in the row, since `j < W*SX` gives `j / SX < W`. -/
theorem scaledRowPixels : Obligations.ScaledRowPixels := fun s y => by
  refine ⟨State.scaledRow_length s y, fun j hj => ?_⟩
  have hpixel := s.scaledRow_getElem? y hj
  have hsource : j / s.cfg.sx < s.cfg.w := Nat.div_lt_of_lt_mul (Nat.mul_comm s.cfg.w s.cfg.sx ▸ hj)
  exact ⟨hpixel.trans (s.rowOf_getElem? s.readSb y hsource).symm, hpixel⟩

/-- R310: two rows are equal when their W pixels are. -/
theorem State.rowEq_iff (s : State) (y : Nat) :
    s.rowEq y = true ↔ ∀ x, x < s.cfg.w → pixel s.cfg s.readSb x y = pixel s.cfg s.readPb x y := by
  rw [State.rowEq, beq_iff_eq, State.rowOf, State.rowOf, List.map_inj_left]
  simp only [List.mem_range]

/-- Settles O45: R312's three conditions, the last of them R310's. -/
theorem skipRowCondition : Obligations.SkipRowCondition := fun s y => by
  rw [State.skipRow, Bool.and_eq_true, Bool.and_eq_true, State.rowEq_iff, and_assoc]

/-! ## The rectangle of a row (R314, R315, R322) -/

theorem coord_toNat {n : Nat} (h : n ≤ 65535) : (BitVec.ofNat 16 n : Coord).toNat = n := by
  rw [BitVec.toNat_ofNat, Nat.mod_eq_of_lt (by omega)]

/-- The last of a row's SY repeats comes before the first of the next row's. -/
theorem row_lt_of_lt {c : Config} {y y' dy dy' : Nat} (hy : y < y') (hdy : dy < c.sy) : y * c.sy + dy < y' * c.sy + dy' := by
  have hrows : (y + 1) * c.sy ≤ y' * c.sy := Nat.mul_le_mul_right _ hy
  rw [Nat.succ_mul] at hrows
  omega

/-- R322: the image ends inside the destination, whose height fits the field. -/
theorem rowRect_y_toNat {s : State} (hl : s.cfg.Legal) {y dy : Nat} (hy : y < s.cfg.h) (hdy : dy < s.cfg.sy) :
    (s.rowRect y dy).y.toNat = s.cfg.yOff + y * s.cfg.sy + dy := by
  obtain ⟨-, ⟨-, hbottom, -, hdh, -⟩, -⟩ := Config.legal_parts hl
  have hrow := row_lt_of_lt (dy' := 0) hy hdy
  exact coord_toNat (by omega)

/-- Settles O46: R11's bounds keep every field below 2^16, and the row's length is R351's. -/
theorem rectangleOfRow : Obligations.RectangleOfRow := by
  intro s y dy hl hy hdy
  obtain ⟨⟨hw, -, -, hsx, -⟩, ⟨hright, hbottom, hdw, hdh, hwd⟩, -⟩ := Config.legal_parts hl
  have hwd_pos : 0 < s.cfg.w * s.cfg.sx := Nat.mul_pos hw hsx
  have hrow := row_lt_of_lt (dy' := 0) hy hdy
  have hlength : (s.rowRect y dy).bytes.length = (s.cfg.w * s.cfg.sx * s.cfg.bpp + 7) / 8 := by
    rw [State.rowRect, encodeRow_length hl, State.scaledRow_length, Config.rowBytes, Config.wd]
  exact ⟨coord_toNat (by omega), rowRect_y_toNat hl hy hdy, coord_toNat hwd, rfl, rfl, hlength,
    State.rowRect_bytes_pos hl y dy, by omega, by omega, hdh, hwd⟩

/-! ## The order of a pass's rectangles (R323) -/

/-- One rectangle lies above another. -/
abbrev Above (a b : Rect) : Prop := a.y.toNat < b.y.toNat

theorem repeats_pairwise_above {s : State} (hl : s.cfg.Legal) {y n : Nat} (hy : y < s.cfg.h) (hn : n ≤ s.cfg.sy) :
    ((List.range n).map (fun dy => s.rowRect y dy)).Pairwise Above := by
  refine List.pairwise_map.2 (List.pairwise_lt_range.imp_of_mem fun ha hb hab => ?_)
  rw [List.mem_range] at ha hb
  rw [Above, rowRect_y_toNat hl hy (by omega), rowRect_y_toNat hl hy (by omega)]
  omega

theorem above_of_row_lt {s : State} (hl : s.cfg.Legal) {y y' dy dy' : Nat} (hy : y < y') (hy' : y' < s.cfg.h)
    (hdy : dy < s.cfg.sy) (hdy' : dy' < s.cfg.sy) : Above (s.rowRect y dy) (s.rowRect y' dy') := by
  rw [Above, rowRect_y_toNat hl (by omega) hdy, rowRect_y_toNat hl hy' hdy', Nat.add_assoc, Nat.add_assoc]
  exact Nat.add_lt_add_left (row_lt_of_lt hy hdy) _

theorem mem_rowRects {s : State} {y : Nat} {r : Rect} (h : r ∈ rowRects s y) : ∃ dy < s.cfg.sy, r = s.rowRect y dy := by
  unfold rowRects at h
  split at h
  · exact absurd h List.not_mem_nil
  · obtain ⟨dy, hdy, rfl⟩ := List.mem_map.1 h
    exact ⟨dy, List.mem_range.1 hdy, rfl⟩

theorem rowRects_pairwise_above {s : State} (hl : s.cfg.Legal) {y : Nat} (hy : y < s.cfg.h) : (rowRects s y).Pairwise Above := by
  unfold rowRects
  split
  · exact .nil
  · exact repeats_pairwise_above hl hy le_rfl

/-- The rows before `y`, each with its repeats, in order. -/
theorem rows_pairwise_above {s : State} (hl : s.cfg.Legal) {y : Nat} (hy : y ≤ s.cfg.h) :
    ((List.range y).flatMap (rowRects s)).Pairwise Above := by
  refine List.pairwise_flatMap.2 ⟨fun z hz => ?_, List.pairwise_lt_range.imp_of_mem fun {z z'} _ hz' hlt a ha b hb => ?_⟩
  · exact rowRects_pairwise_above hl ((List.mem_range.1 hz).trans_le hy)
  · obtain ⟨dy, hdy, rfl⟩ := mem_rowRects ha
    obtain ⟨dy', hdy', rfl⟩ := mem_rowRects hb
    exact above_of_row_lt hl hlt ((List.mem_range.1 hz').trans_le hy) hdy hdy'

theorem rectsBefore_zero (s : State) (y : Nat) : rectsBefore s y 0 = (List.range y).flatMap (rowRects s) := List.append_nil _

theorem rectsBefore_succ (s : State) (y dy : Nat) : rectsBefore s y (dy + 1) = rectsBefore s y dy ++ [s.rowRect y dy] := by
  simp only [rectsBefore, List.range_succ, List.map_append, List.map_singleton, List.append_assoc]

theorem rectsBefore_pairwise_above {s : State} (hl : s.cfg.Legal) {y n : Nat} (hy : y < s.cfg.h) (hn : n ≤ s.cfg.sy) :
    (rectsBefore s y n).Pairwise Above := by
  refine List.pairwise_append.2 ⟨rows_pairwise_above hl hy.le, repeats_pairwise_above hl hy hn, fun a ha b hb => ?_⟩
  obtain ⟨z, hz, ha⟩ := List.mem_flatMap.1 ha
  obtain ⟨dy, hdy, rfl⟩ := mem_rowRects ha
  obtain ⟨dy', hdy', rfl⟩ := List.mem_map.1 hb
  exact above_of_row_lt hl (List.mem_range.1 hz) hy hdy ((List.mem_range.1 hdy').trans_le hn)

/-- Settles O60: what a pass has shown is the rows passed and the repeats of the current one; with a rectangle in progress, one
repeat more. -/
theorem emissionOrder : Obligations.EmissionOrder := by
  rintro s hinv ⟨-, hemit, hcommit⟩ (hs | hs)
  · obtain ⟨hidle, hoffered⟩ := hemit hs
    obtain ⟨-, -, -, hrange⟩ := hinv.render
    obtain ⟨hy, hdy, hend⟩ := hrange hs
    by_cases htp : s.ren.tp = .idle
    · rw [(hidle htp).2]
      rcases hy.lt_or_eq with hy | hy
      · exact rectsBefore_pairwise_above hinv.legal hy hdy.le
      · rw [hend hy, rectsBefore_zero]
        exact rows_pairwise_above hinv.legal hy.le
    · rw [(hoffered htp).2, ← rectsBefore_succ]
      exact rectsBefore_pairwise_above hinv.legal (hinv.transport.1 htp).2 hdy
  · rw [hcommit hs, rectsBefore_zero]
    exact rows_pairwise_above hinv.legal le_rfl

end Sys2Proof.Machine
end

section
/-! EMIT in one clk_r cycle (42_render.md R320, R321, R324; 10_state.md R86): the transport ports and the next state of each
phase; and the transitions between REN's states (R300). -/

namespace Sys2Proof.Machine
open Sys2Proof

/-! ## The ports in each phase (R86) -/

theorem State.tpCmdO_of_cmd {s : State} {r : Rect} (h : s.ren.tp = .cmd r) : s.tpCmdO = some r := by
  simp only [State.tpCmdO, h]

theorem State.tpDataO_of_cmd {s : State} {r : Rect} (h : s.ren.tp = .cmd r) : s.tpDataO = none := by
  simp only [State.tpDataO, h]

theorem State.tpCmdO_of_data {s : State} {r : Rect} {i : Nat} (h : s.ren.tp = .data r i) : s.tpCmdO = none := by
  simp only [State.tpCmdO, h]

theorem State.tpDataO_of_data {s : State} {r : Rect} {i : Nat} (h : s.ren.tp = .data r i) :
    s.tpDataO = (r.bytes[i]?).map (fun b => (b, i + 1 == r.bytes.length)) := by
  simp only [State.tpDataO, h]

theorem State.tp_outputs_of_quiet {s : State} (h : s.ren.tp = .idle ∨ s.ren.tp = .resp) :
    s.tpCmdO = none ∧ s.tpDataO = none := by
  rcases h with h | h <;> simp only [State.tpCmdO, State.tpDataO, h, and_self]

/-! ## The next state in each phase (R320, R321) -/

theorem renEmit_idle {s : State} (h : s.ren.tp = .idle) (tp : TpIn) : renEmit tp s = emitRow s := by
  simp only [renEmit, h]

theorem renEmit_cmd {s : State} {r : Rect} (h : s.ren.tp = .cmd r) (tp : TpIn) :
    renEmit tp s = .next (if tp.cmdReady then { s with ren := { s.ren with tp := dataFrom r 0 } } else s) := by
  simp only [renEmit, h]

theorem renEmit_data {s : State} {r : Rect} {i : Nat} (h : s.ren.tp = .data r i) (tp : TpIn) :
    renEmit tp s = .next (if tp.dataReady then { s with ren := { s.ren with tp := dataFrom r (i + 1) } } else s) := by
  simp only [renEmit, h]

theorem renEmit_resp {s : State} (h : s.ren.tp = .resp) (tp : TpIn) :
    renEmit tp s = .next (if tp.respValid then takeAnswer tp.respErr s else s) := by
  simp only [renEmit, h]

theorem emitRow_end {s : State} (h : s.ren.rowY = s.cfg.h) :
    emitRow s = .next { s with ren := { s.ren with renState := .commit } } := if_pos h

theorem emitRow_skip {s : State} (hy : s.ren.rowY < s.cfg.h) (hskip : s.ren.rowDy = 0 ∧ s.skipRow s.ren.rowY = true) :
    emitRow s = .next { s with ren := { s.ren with rowY := s.ren.rowY + 1 } } := by
  rw [emitRow, if_neg hy.ne, if_neg hy.not_gt, if_pos hskip]

theorem emitRow_offer {s : State} (hy : s.ren.rowY < s.cfg.h) (hskip : ¬(s.ren.rowDy = 0 ∧ s.skipRow s.ren.rowY = true)) :
    emitRow s = .next { s with
      ren := { s.ren with tp := .cmd (s.rowRect s.ren.rowY s.ren.rowDy) }
      shown := .rect (s.rowRect s.ren.rowY s.ren.rowDy) :: s.shown } := by
  rw [emitRow, if_neg hy.ne, if_neg hy.not_gt, if_neg hskip]

theorem dataFrom_lt {r : Rect} {i : Nat} (h : i < r.bytes.length) : dataFrom r i = .data r i := if_pos h

theorem dataFrom_length {r : Rect} {i : Nat} (h : i = r.bytes.length) : dataFrom r i = .resp := if_neg h.not_lt

/-- Settles O47: the ports, the row with no rectangle in progress, what TP takes, and TP's answer. -/
theorem emitStep : Obligations.EmitStep := by
  intro tp s hs
  rw [renRule_emit hs]
  refine ⟨fun r hr => ?cmdPorts, fun r i hr hi => ?dataPorts, fun hq => ?quietPorts,
    fun hidle hy => (renEmit_idle hidle tp).trans (emitRow_end hy),
    fun hidle hy hdy hskip => (renEmit_idle hidle tp).trans (emitRow_skip hy ⟨hdy, hskip⟩),
    fun hidle hy hskip => (renEmit_idle hidle tp).trans (emitRow_offer hy hskip),
    fun r hr hlen => ?cmd, fun r i hr hi => ?data, fun r i hr hlast => ⟨?lastPort, ?lastData⟩,
    fun hr hwait => ?waits, fun hr hvalid herr => ?error, fun hr hvalid hok => ?ok⟩
  case cmdPorts =>
    rw [State.tpCmdValidO, State.tpDataValidO, State.tpCmdO_of_cmd hr, State.tpDataO_of_cmd hr, State.tpFieldsO_of_cmd hr]
    exact ⟨rfl, rfl, rfl, rfl, rfl, rfl, rfl⟩
  case dataPorts =>
    rw [State.tpCmdValidO, State.tpDataValidO, State.tpCmdO_of_data hr, State.tpDataO_of_data hr, State.tpFieldsO_of_data hr hi,
      List.getElem?_eq_getElem hi]
    exact ⟨rfl, rfl, rfl, rfl, beq_iff_eq⟩
  case quietPorts =>
    obtain ⟨hcmd, hdata⟩ := State.tp_outputs_of_quiet hq
    rw [State.tpCmdValidO, State.tpDataValidO, hcmd, hdata]
    exact ⟨rfl, rfl⟩
  case cmd => rw [renEmit_cmd hr, dataFrom_lt hlen]
  case data => rw [renEmit_data hr, dataFrom_lt hi]
  case lastPort => rw [State.tpDataO_of_data hr, beq_iff_eq.2 hlast]
  case lastData => rw [renEmit_data hr, dataFrom_length hlast]
  case waits => rw [renEmit_resp hr, if_neg (by simp [hwait])]
  case error => rw [renEmit_resp hr, if_pos hvalid, herr]; rfl
  case ok => rw [renEmit_resp hr, if_pos hvalid, hok]; rfl

/-! ## REN's transitions (R300) -/

theorem renEmit_renState {tp : TpIn} {s t : State} (h : renEmit tp s = .next t) :
    t.ren.renState = s.ren.renState ∨ (t.ren.renState = .commit ∧ s.ren.rowY = s.cfg.h) ∨
      (t.ren.renState = .abort ∧ tp.respValid = true ∧ tp.respErr = true) := by
  cases hp : s.ren.tp with
  | idle =>
    rw [renEmit_idle hp] at h
    rcases emitRow_next h with ⟨hy, rfl⟩ | ⟨-, -, -, rfl⟩ | ⟨-, -, rfl⟩
    · exact .inr (.inl ⟨rfl, hy⟩)
    · exact .inl rfl
    · exact .inl rfl
  | cmd r => rw [renEmit_cmd hp] at h; cases h; left; split <;> rfl
  | data r i => rw [renEmit_data hp] at h; cases h; left; split <;> rfl
  | resp =>
    rw [renEmit_resp hp] at h
    cases h
    split
    · next hvalid =>
      rw [takeAnswer_ren]
      cases herr : tp.respErr with
      | true => exact .inr (.inr ⟨rfl, hvalid, rfl⟩)
      | false => exact .inl (nextRepeat_renState _ _)
    · exact .inl rfl

/-- R300: REN's rule keeps its state, or takes one of the seven transitions that change it. -/
theorem renRule_transition {tp : TpIn} {s t : State} (h : renRule tp s = .next t) :
    t.ren.renState = s.ren.renState ∨
    (s.ren.renState = .clear ∧ t.ren.renState = .acquire ∧ t.ren.clrPtr = s.cfg.cap) ∨
    (s.ren.renState = .acquire ∧ t.ren.renState = .decode ∧ s.ing.ackOk = true) ∨
    (s.ren.renState = .decode ∧ t.ren.renState = .emit ∧ t.ren.decPtr = s.cfg.cap) ∨
    (s.ren.renState = .emit ∧ t.ren.renState = .commit ∧ s.ren.rowY = s.cfg.h) ∨
    (s.ren.renState = .emit ∧ t.ren.renState = .abort ∧ tp.respValid = true ∧ tp.respErr = true) ∨
    (s.ren.renState = .commit ∧ t.ren.renState = .acquire) ∨
    (s.ren.renState = .abort ∧ t.ren.renState = .acquire) := by
  cases hs : s.ren.renState with
  | clear =>
    rw [renRule_clear hs] at h
    obtain ⟨-, rfl⟩ := renClear_next h
    by_cases hlast : s.ren.clrPtr + 1 = s.cfg.cap
    · simp [hlast]
    · simp [hlast, hs]
  | acquire =>
    rw [renRule_acquire hs] at h
    cases h
    rcases renAcquire_cases s with ⟨-, e⟩ | ⟨-, hok, e⟩ | ⟨-, -, e⟩ <;> rw [e]
    · exact .inl hs
    · exact .inr (.inr (.inl ⟨rfl, rfl, hok⟩))
    · exact .inl hs
  | decode =>
    rw [renRule_decode hs] at h
    obtain ⟨-, -, u, hu, rfl⟩ := renDecode_next h
    rw [decodeNext_handled hu]
    by_cases hlast : s.ren.decPtr + 1 = s.cfg.cap
    · simp [hlast]
    · simp [hlast, hs]
  | emit =>
    rw [renRule_emit hs] at h
    rcases renEmit_renState h with e | ⟨e, hy⟩ | ⟨e, hvalid, herr⟩
    · exact .inl (e.trans hs)
    · exact .inr (.inr (.inr (.inr (.inl ⟨rfl, e, hy⟩))))
    · exact .inr (.inr (.inr (.inr (.inr (.inl ⟨rfl, e, hvalid, herr⟩)))))
  | commit => rw [renRule_commit hs] at h; cases h; simp [renCommit]
  | abort => rw [renRule_abort hs] at h; cases h; simp [renAbort]

/-- COMMIT and ABORT last one cycle (log entry 11). -/
theorem renRule_to_acquire {tp : TpIn} {s t : State} (hs : s.ren.renState = .commit ∨ s.ren.renState = .abort)
    (h : renRule tp s = .next t) : t.ren.renState = .acquire := by
  rcases hs with hs | hs
  · rw [renRule_commit hs] at h; cases h; rfl
  · rw [renRule_abort hs] at h; cases h; rfl

/-- Settles O41: a clk_i cycle keeps REN's registers, and a clk_r cycle changes its state by its rule alone. -/
theorem renTransitions : Obligations.RenTransitions := by
  intro s t hk hstep
  rcases runTick_next (step_next hstep).2 with ⟨bus, y, hk', hc⟩ | ⟨tp, y, hk', hc⟩ | ⟨hk', -⟩
  · obtain ⟨-, -, hren, -⟩ := ingCycle_keeps hc
    rw [hren, State.popTick_ren, hk']
    exact ⟨.inl rfl, fun _ _ h => nomatch h⟩
  · obtain ⟨-, u, hu, rfl⟩ := renCycle_next hc
    rw [hk']
    constructor
    · simpa [renBegin, renFinish] using renRule_transition hu
    · intro _ _ _ hs
      exact renRule_to_acquire (s := renBegin y s.popTick) (t := u) (by simpa [renBegin] using hs) hu
  · exact absurd hk' hk

end Sys2Proof.Machine
end

section
/-! `power` gates nothing (42_render.md R304): each operation answers alike in two states that differ in `power` alone, and leaves
states that differ at most in it. -/

namespace Sys2Proof.Machine
open Sys2Proof

/-- The state with another value of `power` (R62). -/
def State.withPower (s : State) (p : Bool) : State := { s with dec := { s.dec with power := p } }

@[simp] theorem State.withPower_cfg (s : State) (p : Bool) : (s.withPower p).cfg = s.cfg := rfl
@[simp] theorem State.withPower_ren (s : State) (p : Bool) : (s.withPower p).ren = s.ren := rfl
@[simp] theorem State.withPower_ing (s : State) (p : Bool) : (s.withPower p).ing = s.ing := rfl
@[simp] theorem State.withPower_inputs (s : State) (p : Bool) : (s.withPower p).inputs = s.inputs := rfl

/-- Both answers complete, with states that differ at most in `power`, or both stop in the same way. -/
inductive SameButPower : Answer → Answer → Prop where
  | next (t : State) (q : Bool) : SameButPower (.next t) (.next (t.withPower q))
  | fault (f : Fault) : SameButPower (.fault f) (.fault f)
  | refused (r : Refusal) : SameButPower (.refused r) (.refused r)

/-- An operation to which `power` makes no difference but in `power` itself. -/
abbrev IgnoresPower (op : State → Answer) : Prop := ∀ (s : State) (p : Bool), SameButPower (op s) (op (s.withPower p))

theorem SameButPower.refl : ∀ o : Answer, SameButPower o o
  | .next t => .next t t.dec.power
  | .fault f => .fault f
  | .refused r => .refused r

theorem SameButPower.of_next {t : State} {o : Answer} (h : SameButPower (.next t) o) : ∃ q, o = .next (t.withPower q) := by
  cases h with
  | next _ q => exact ⟨q, rfl⟩

theorem SameButPower.of_fault {f : Fault} {o : Answer} (h : SameButPower (.fault f) o) : o = .fault f := by cases h; rfl

theorem SameButPower.of_refused {r : Refusal} {o : Answer} (h : SameButPower (.refused r) o) : o = .refused r := by cases h; rfl

theorem SameButPower.andThen {o o' : Answer} {k k' : State → Answer} (ho : SameButPower o o')
    (hk : ∀ t q, SameButPower (k t) (k' (t.withPower q))) : SameButPower (o.andThen k) (o'.andThen k') := by
  cases ho with
  | next t q => exact hk t q
  | fault f => exact .fault f
  | refused r => exact .refused r

theorem SameButPower.ite {c : Prop} [Decidable c] {a a' b b' : Answer} (ha : SameButPower a a') (hb : SameButPower b b') :
    SameButPower (if c then a else b) (if c then a' else b') := by
  split
  · exact ha
  · exact hb

theorem SameButPower.next_ite {c : Prop} [Decidable c] (s t : State) (p : Bool) :
    SameButPower (.next (if c then s else t)) (.next (if c then s.withPower p else t.withPower p)) := by
  split <;> exact .next _ p

theorem State.ite_withPower {c : Prop} [Decidable c] (s t : State) (p : Bool) :
    (if c then s else t).withPower p = if c then s.withPower p else t.withPower p := apply_ite (State.withPower · p) c s t

/-! ## ING's cycle (R250) -/

theorem ingServe_withPower (s : State) (p : Bool) : ingServe (s.withPower p) = (ingServe s).withPower p := by
  simp only [ingServe, State.ite_withPower]
  rfl

theorem ingBusEndsWait_withPower (bus : BusIn) (s : State) (p : Bool) :
    ingBusEndsWait bus (s.withPower p) = (ingBusEndsWait bus s).withPower p := by
  simp only [ingBusEndsWait, State.ite_withPower]
  rfl

theorem ingCountdown_withPower (waiting entered : Bool) (s : State) (p : Bool) :
    ingCountdown waiting entered (s.withPower p) = (ingCountdown waiting entered s).withPower p := by
  simp only [ingCountdown, State.ite_withPower]
  rfl

theorem pushFill_ignoresPower : IgnoresPower pushFill := by
  intro s p
  simp only [pushFill, State.withPower_ing]
  cases s.ing.free.min? with
  | none => exact .fault _
  | some b => exact .next _ p

theorem ingRetry_ignoresPower : IgnoresPower ingRetry := fun s p =>
  .ite ((pushFill_ignoresPower s p).andThen fun _ q => .next _ q) (.next s p)

theorem storeByte_ignoresPower (v : Byte) : IgnoresPower (storeByte v) := fun _ p =>
  .ite (.andThen (.ite (.next _ p) (.fault _)) fun _ q => .next _ q) (.next _ p)

theorem publish_ignoresPower : IgnoresPower publish := by
  intro s p
  simp only [publish, State.withPower_cfg, State.withPower_ing]
  cases s.cfg.policy with
  | bounded => exact .ite (pushFill_ignoresPower s p) (.ite (.next _ p) (.next _ p))
  | dropOldest => exact pushFill_ignoresPower { s with ing := discardOldest s.ing } p

theorem endTransfer_ignoresPower : IgnoresPower endTransfer := fun s p => .ite (publish_ignoresPower s p) (.next _ p)

theorem ingByte_ignoresPower (bus : BusIn) : IgnoresPower (ingByte bus) := fun s p =>
  .ite (storeByte_ignoresPower bus.inByte s p) (.next s p)

theorem ingEnd_ignoresPower (bus : BusIn) : IgnoresPower (ingEnd bus) := fun s p =>
  .ite (endTransfer_ignoresPower s p) (.next s p)

theorem ingEndAndCountdown_ignoresPower (waiting : Bool) (bus : BusIn) : IgnoresPower (ingEndAndCountdown waiting bus) :=
  fun s p => (ingEnd_ignoresPower bus s p).andThen fun t q => by
    rw [ingCountdown_withPower]
    exact .next _ q

theorem ingCycle_ignoresPower (bus : BusIn) (y : Sync) : IgnoresPower (ingCycle bus y) := fun s p => by
  refine .andThen (o' := ingRetry (ingServe ((ingBegin y s).withPower p))) ?retry fun b q => .andThen ?byte fun d r =>
    .andThen (ingEndAndCountdown_ignoresPower _ bus d r) fun f u => .next (ingFinish y f) u
  case retry => rw [ingServe_withPower]; exact ingRetry_ignoresPower _ p
  case byte => rw [ingBusEndsWait_withPower]; exact ingByte_ignoresPower bus _ q

/-! ## REN's cycle (R300) -/

theorem inDecState_ignoresPower {st : DecState} {s : State} {p : Bool} {e e' : Answer} (h : SameButPower e e') :
    SameButPower (inDecState st s e) (inDecState st (s.withPower p) e') := .ite h (.refused _)

/-- A byte's meaning writes `power` at most (R203, R204), and none reads it. -/
theorem exec_readByte_ignoresPower (m : CmdMap) (st : DecState) (b : Byte) : IgnoresPower (exec (readByte m st b)) := by
  intro s p
  cases st with
  | idle =>
    rw [readByte]
    rcases classify_cases m b with ⟨-, e⟩ | ⟨-, e⟩ | ⟨k, -, e⟩ | ⟨-, -, -, e⟩ <;> rw [e]
    · exact inDecState_ignoresPower (.refl _)
    · exact inDecState_ignoresPower (.refl _)
    · rw [exec_oneArg, exec_oneArg]
      exact inDecState_ignoresPower (.next _ p)
    · exact inDecState_ignoresPower (.next _ p)
  | awaitArg => exact inDecState_ignoresPower (.next _ p)
  | pixel => exact inDecState_ignoresPower (.andThen (.ite (.next _ p) (.fault _)) fun _ q => .next _ q)

theorem renClear_ignoresPower : IgnoresPower renClear := fun _ p =>
  .andThen (.ite (.next _ p) (.fault _)) fun _ q => .next _ q

theorem renAcquire_withPower (s : State) (p : Bool) : renAcquire (s.withPower p) = (renAcquire s).withPower p := by
  simp only [renAcquire, State.ite_withPower]
  rfl

theorem renDecode_ignoresPower : IgnoresPower renDecode := fun s p =>
  .ite (.andThen (exec_readByte_ignoresPower s.cfg.map s.dec.decState s.fetchByte s p) fun t q => .next (decodeNext t) q)
    (.fault _)

theorem emitRow_ignoresPower : IgnoresPower emitRow := fun _ p =>
  .ite (.next _ p) (.ite (.fault _) (.ite (.next _ p) (.next _ p)))

theorem takeAnswer_withPower (err : Bool) (s : State) (p : Bool) :
    takeAnswer err (s.withPower p) = (takeAnswer err s).withPower p := by cases err <;> rfl

theorem renEmit_ignoresPower (tp : TpIn) : IgnoresPower (renEmit tp) := by
  intro s p
  simp only [renEmit, State.withPower_ren, takeAnswer_withPower]
  cases s.ren.tp with
  | idle => exact emitRow_ignoresPower s p
  | cmd r => exact SameButPower.next_ite _ s p
  | data r i => exact SameButPower.next_ite _ s p
  | resp => exact SameButPower.next_ite _ s p

theorem renRule_ignoresPower (tp : TpIn) : IgnoresPower (renRule tp) := by
  intro s p
  simp only [renRule, State.withPower_ren, renAcquire_withPower]
  cases s.ren.renState with
  | clear => exact renClear_ignoresPower s p
  | acquire => exact .next _ p
  | decode => exact renDecode_ignoresPower s p
  | emit => exact renEmit_ignoresPower tp s p
  | commit => exact .next (renCommit s) p
  | abort => exact .next (renAbort s) p

theorem renCycle_ignoresPower (tp : TpIn) (y : Sync) : IgnoresPower (renCycle tp y) := fun s p =>
  .ite (.refused _) (.andThen (renRule_ignoresPower tp (renBegin y s) p) fun t q => .next (renFinish y t) q)

/-! ## The step -/

theorem runTick_ignoresPower (k : Tick) : IgnoresPower (runTick k) := by
  intro s p
  cases k with
  | clkI bus y => exact ingCycle_ignoresPower bus y s p
  | clkR tp y => exact renCycle_ignoresPower tp y s p
  | reset => exact .refl _

theorem State.popTick_withPower (s : State) (p : Bool) : (s.withPower p).popTick = s.popTick.withPower p := by
  simp only [State.popTick, State.withPower_inputs]
  cases s.inputs <;> rfl

theorem step_ignoresPower : IgnoresPower step := fun s p => by
  refine .ite (c := s.cfg.Legal) ?_ (.refused _)
  rw [State.popTick_withPower]
  exact runTick_ignoresPower s.nextTick s.popTick p

/-- Settles O43: the step is made of operations that ignore `power`. -/
theorem powerGatesNothing : Obligations.PowerGatesNothing := by
  intro s p
  have hsame : SameButPower (step s) (step (s.withPower p)) := step_ignoresPower s p
  exact ⟨fun t ht => SameButPower.of_next (ht ▸ hsame), fun f hf => SameButPower.of_fault (hf ▸ hsame),
    fun r hr => SameButPower.of_refused (hr ▸ hsame)⟩

end Sys2Proof.Machine
end

section
/-! The compositor (43_pixel_format.md): where each pixel stands in an encoded row, in the byte-multiple formats (R352) and in the
packed ones (R354, R355). -/

namespace Sys2Proof.Machine
open Sys2Proof

/-! ## The byte-multiple formats (R352, R353, R356) -/

theorem encodeRow_wide {c : Config} (h : 8 ≤ c.bpp) (px : List Bool) : encodeRow c px = px.flatMap (wideBytes c) := if_pos h

theorem wideRow_length (c : Config) (px : List Bool) : (px.flatMap (wideBytes c)).length = px.length * (c.bpp / 8) := by
  simp [List.length_flatMap, wideBytes_length]

/-- R352: the bytes of pixel `j` start after the `BPP/8` bytes of each pixel before it. -/
theorem wideRow_getElem? {c : Config} {k : Nat} (hk : k < c.bpp / 8) (px : List Bool) (j : Nat) (hj : j < px.length) :
    (px.flatMap (wideBytes c))[j * (c.bpp / 8) + k]? = some (if px[j] then 0xFF else 0x00) := by
  induction px generalizing j with
  | nil => cases hj
  | cons p rest ih =>
    rw [List.flatMap_cons]
    cases j with
    | zero =>
      rw [Nat.zero_mul, Nat.zero_add, List.getElem?_append_left (by rwa [wideBytes_length]), wideBytes,
        List.getElem?_replicate_of_lt hk]
      rfl
    | succ j =>
      have hskip : (j + 1) * (c.bpp / 8) + k = (wideBytes c p).length + (j * (c.bpp / 8) + k) := by
        rw [wideBytes_length]; ring
      rw [hskip, List.getElem?_append_right (Nat.le_add_right _ _), Nat.add_sub_cancel_left]
      exact ih j (Nat.lt_of_succ_lt_succ hj)

/-- Settles O53: such a row is its pixels' bytes in order, and BPP is a multiple of 8. -/
theorem encodeByteMultiple : Obligations.EncodeByteMultiple := by
  intro c px h
  have h8 : 8 ≤ c.bpp := by omega
  have hdvd : 8 ∣ c.bpp := by omega
  rw [encodeRow_wide h8]
  refine ⟨?length, fun j k hj hk => wideRow_getElem? hk px j hj⟩
  rw [wideRow_length, Nat.mul_div_assoc _ hdvd]

/-! ## The packed formats (R351, R354, R355) -/

theorem encodeRow_packed {c : Config} (h : c.bpp < 8) (px : List Bool) :
    encodeRow c px = (List.range (c.rowBytes px.length)).map (packedByte c px) := if_neg (Nat.not_le.mpr h)

/-- R350: a lit pixel sets every one of its BPP bits, a dark one none. -/
theorem pixelValue_testBit (c : Config) (p : Bool) (t : Nat) : (pixelValue c p).testBit t = (decide (t < c.bpp) && p) := by
  cases p with
  | false => simp [pixelValue]
  | true => simp [pixelValue, Nat.testBit_two_pow_sub_one]

/-- A pixel's value at `shift` fills the BPP bits from `shift` on, and no other. -/
theorem shiftedPixel_getLsbD (c : Config) (p : Bool) (shift i : Nat) (hi : i < 8) :
    (BitVec.ofNat 8 (pixelValue c p * 2 ^ shift)).getLsbD i = (decide (shift ≤ i ∧ i < shift + c.bpp) && p) := by
  have hrange : (shift ≤ i ∧ i - shift < c.bpp) ↔ (shift ≤ i ∧ i < shift + c.bpp) := by omega
  rw [BitVec.getLsbD_ofNat, decide_eq_true hi, Bool.true_and, Nat.testBit_mul_two_pow, pixelValue_testBit, ← Bool.and_assoc,
    ← Bool.decide_and, decide_eq_decide.mpr hrange]

/-- A bit of bytes joined by bitwise or is set where one of them sets it. -/
theorem foldl_or_getLsbD (f : Nat → Byte) (l : List Nat) (out : Byte) (i : Nat) :
    (l.foldl (fun out m => out ||| f m) out).getLsbD i = (out.getLsbD i || l.any fun m => (f m).getLsbD i) := by
  induction l generalizing out with
  | nil => simp
  | cons m rest ih => rw [List.foldl_cons, ih, BitVec.getLsbD_or, List.any_cons, Bool.or_assoc]

/-- R355: the slots of a byte end inside it. -/
theorem slot_end_le {c : Config} {m : Nat} (hm : m < 8 / c.bpp) : c.bpp * m + c.bpp ≤ 8 :=
  calc c.bpp * m + c.bpp = c.bpp * (m + 1) := (Nat.mul_succ _ _).symm
    _ ≤ c.bpp * (8 / c.bpp) := Nat.mul_le_mul_left _ hm
    _ ≤ 8 := Nat.mul_div_le _ _

theorem slotShift_add_lt {c : Config} {m t : Nat} (hm : m < 8 / c.bpp) (ht : t < c.bpp) : slotShift c m + t < 8 := by
  have hend := slot_end_le hm
  rw [slotShift, Nat.mul_succ]
  split <;> omega

/-- R355: of two slots of a byte, one ends at or below the low bit of the other, whatever the packing order. -/
theorem slots_apart {c : Config} {m n : Nat} (hn : n < 8 / c.bpp) (hmn : m < n) :
    slotShift c n + c.bpp ≤ slotShift c m ∨ slotShift c m + c.bpp ≤ slotShift c n := by
  have hend := slot_end_le hn
  have hstep : c.bpp * m + c.bpp ≤ c.bpp * n := Nat.mul_succ _ _ ▸ Nat.mul_le_mul_left c.bpp hmn
  rw [slotShift, slotShift, Nat.mul_succ, Nat.mul_succ]
  split <;> omega

/-- A bit is in one slot at most. -/
theorem slot_unique {c : Config} {m n i : Nat} (hm : m < 8 / c.bpp) (hn : n < 8 / c.bpp)
    (hiM : slotShift c m ≤ i ∧ i < slotShift c m + c.bpp) (hiN : slotShift c n ≤ i ∧ i < slotShift c n + c.bpp) : n = m := by
  rcases Nat.lt_trichotomy n m with hlt | heq | hgt
  · have := slots_apart hm hlt
    omega
  · exact heq
  · have := slots_apart hn hgt
    omega

/-- R354, R355: each bit of slot `m` of byte `k` is pixel `k*P + m`. -/
theorem packedByte_getLsbD {c : Config} (px : List Bool) (k : Nat) {m t : Nat} (hm : m < 8 / c.bpp) (ht : t < c.bpp) :
    (packedByte c px k).getLsbD (slotShift c m + t) = px.getD (k * (8 / c.bpp) + m) false := by
  have hslot : slotShift c m ≤ slotShift c m + t ∧ slotShift c m + t < slotShift c m + c.bpp :=
    ⟨Nat.le_add_right _ _, Nat.add_lt_add_left ht _⟩
  rw [packedByte, foldl_or_getLsbD, Bool.eq_iff_iff]
  simp only [BitVec.ofNat_eq_ofNat, BitVec.getLsbD_zero, Bool.false_or, List.any_eq_true, List.mem_range,
    shiftedPixel_getLsbD c _ _ _ (slotShift_add_lt hm ht), Bool.and_eq_true, decide_eq_true_eq]
  constructor
  · rintro ⟨n, hn, hbit, hlit⟩
    rwa [slot_unique hm hn hslot hbit] at hlit
  · intro hlit
    exact ⟨m, hm, hslot, hlit⟩

/-- Settles O54: byte `k` is the joined slots of `packedByte`, each in bits of its own. -/
theorem encodePacked : Obligations.EncodePacked := by
  intro c px h
  have h8 : c.bpp < 8 := by omega
  refine ⟨?length, fun k m t hk hm ht => ?bit⟩
  case length => rw [encodeRow_packed h8, List.length_map, List.length_range, Config.rowBytes]
  case bit =>
    have hbyte : (encodeRow c px)[k] = packedByte c px k := by simp [encodeRow_packed h8]
    rw [hbyte]
    exact packedByte_getLsbD px k hm ht

end Sys2Proof.Machine
end

section
/-! The diagnostic pulse (60_exceptions.md R411): a byte that is ignored starts one, and the clk_r cycle after it ends it. -/

namespace Sys2Proof.Machine
open Sys2Proof

/-! ## What a step is, by its choice (R9) -/

theorem step_clkI {s t : State} {bus : BusIn} {y : Sync} (h : step s = .next t) (hk : s.nextTick = .clkI bus y) :
    ingCycle bus y s.popTick = .next t := by
  have hrun := (step_next h).2
  rwa [hk, runTick] at hrun

theorem step_clkR {s t : State} {tp : TpIn} {y : Sync} (h : step s = .next t) (hk : s.nextTick = .clkR tp y) :
    ∃ u, renRule tp (renBegin y s.popTick) = .next u ∧ t = renFinish y u := by
  have hrun := (step_next h).2
  rw [hk, runTick] at hrun
  exact (renCycle_next hrun).2

/-- What surrounds REN's rule in a cycle leaves the byte it fetches, and how it is read, alone (R150, R308). -/
theorem State.fetchInstr_renBegin (y : Sync) (s : State) : (renBegin y s.popTick).fetchInstr = s.fetchInstr := by
  simp [State.fetchInstr, State.fetchByte, State.readArena, renBegin]

/-! ## The diagnostic register -/

theorem OneArg.instr_ne_ignored (k : OneArg) (c b : Byte) : k.instr c ≠ .ignored b := by cases k <;> exact nofun

/-- R401, R411: IGNORED sets the register, and no other meaning writes it. -/
theorem exec_diag {i : Instr} {s t : State} (h : exec i s = .next t) :
    (∃ b, i = .ignored b ∧ t.dec.diagValid = true ∧ t.dec.diagByte = b) ∨
    ((∀ b, i ≠ .ignored b) ∧ t.dec.diagValid = s.dec.diagValid ∧ t.dec.diagByte = s.dec.diagByte) := by
  obtain ⟨-, ⟨rfl, rfl⟩ | ⟨rfl, rfl⟩ | ⟨k, c, rfl, rfl⟩ | ⟨b, rfl, rfl⟩ | ⟨a, rfl, rfl⟩ | ⟨d, rfl, -, rfl⟩⟩ := exec_next h
  · exact .inr ⟨nofun, rfl, rfl⟩
  · exact .inr ⟨nofun, rfl, rfl⟩
  · exact .inr ⟨OneArg.instr_ne_ignored k c, rfl, rfl⟩
  · exact .inl ⟨b, rfl, rfl, rfl⟩
  · exact .inr ⟨nofun, rfl, rfl⟩
  · exact .inr ⟨nofun, rfl, rfl⟩

/-- REN's rule ignores the byte `b`: in DECODE, where the fetched byte is IGNORED (R308, R401). -/
def State.Ignores (s : State) (b : Byte) : Prop := s.ren.renState = .decode ∧ s.fetchInstr = .ignored b

theorem renRule_diag {tp : TpIn} {s t : State} (h : renRule tp s = .next t) :
    (∃ b, s.Ignores b ∧ t.dec.diagValid = true ∧ t.dec.diagByte = b) ∨
    ((∀ b, ¬s.Ignores b) ∧ t.dec.diagValid = s.dec.diagValid ∧ t.dec.diagByte = s.dec.diagByte) := by
  rcases renRule_dec h with ⟨hs, u, hu, e⟩ | ⟨hs, e⟩
  · rw [e]
    rcases exec_diag hu with ⟨b, hb, hdiag⟩ | ⟨hne, hkept⟩
    · exact .inl ⟨b, ⟨hs, hb⟩, hdiag⟩
    · exact .inr ⟨fun b hb => hne b hb.2, hkept⟩
  · rw [e]
    exact .inr ⟨fun _ hb => hs hb.1, rfl, rfl⟩

/-- R411: a clk_r cycle ends with the pulse of the byte it ignores, or without one. -/
theorem step_clkR_diag {s t : State} {tp : TpIn} {y : Sync} (h : step s = .next t) (hk : s.nextTick = .clkR tp y) :
    (∃ b, s.Ignores b ∧ t.dec.diagValid = true ∧ t.dec.diagByte = b) ∨
    ((∀ b, ¬s.Ignores b) ∧ t.dec.diagValid = false ∧ t.dec.diagByte = s.dec.diagByte) := by
  obtain ⟨u, hu, rfl⟩ := step_clkR h hk
  have hdiag := renRule_diag hu
  simp only [State.Ignores, State.fetchInstr_renBegin] at hdiag
  simpa [State.Ignores, renBegin, renFinish] using hdiag

/-- Settles O51: in a clk_r cycle the two outcomes of the register are told apart by the byte fetched; a clk_i cycle leaves the
decoder's registers alone. -/
theorem diagnosticPulse : Obligations.DiagnosticPulse := by
  refine fun s t h => ⟨fun tp y b hk hs hb => ?ignores, fun tp y hk hno => ?quiet, fun bus y hk => ?clkI⟩
  case ignores =>
    rcases step_clkR_diag h hk with ⟨b', ⟨-, hb'⟩, hvalid, hbyte⟩ | ⟨hno, -⟩
    · exact ⟨hvalid, hbyte.trans (Instr.ignored.inj (hb'.symm.trans hb))⟩
    · exact absurd ⟨hs, hb⟩ (hno b)
  case quiet =>
    rcases step_clkR_diag h hk with ⟨b, hb, -⟩ | ⟨-, hquiet⟩
    · exact absurd hb (hno b)
    · exact hquiet
  case clkI =>
    obtain ⟨-, hdec, -⟩ := ingCycle_keeps (step_clkI h hk)
    rw [hdec, State.popTick_dec]
    exact ⟨rfl, rfl⟩

end Sys2Proof.Machine
end

section
/-! The frame of a step (60_exceptions.md R410, R413, R415): what it counts, and what each domain leaves alone. -/

namespace Sys2Proof.Machine
open Sys2Proof Sys2Proof.Safety

/-! ## What a clk_i cycle counts (R257, R261, R410) -/

/-- From `s` to `t`, `o` transfers overran and `d` frames were dropped, modulo 2^32. -/
abbrev Counted (o d : Count) (s t : State) : Prop :=
  t.ing.overrunCnt = s.ing.overrunCnt + o ∧ t.ing.droppedCnt = s.ing.droppedCnt + d

theorem Counted.of_eq {s t : State} (ho : t.ing.overrunCnt = s.ing.overrunCnt) (hd : t.ing.droppedCnt = s.ing.droppedCnt) :
    Counted 0 0 s t := by simp [Counted, ho, hd]

theorem Counted.refl (s : State) : Counted 0 0 s s := .of_eq rfl rfl

theorem Counted.trans {o d o' d' : Count} {s t u : State} (h : Counted o d s t) (h' : Counted o' d' t u) :
    Counted (o + o') (d + d') s u := by
  simp only [Counted, h'.1, h'.2, h.1, h.2, add_assoc, and_self]

theorem Counted.after_none {o d : Count} {s t u : State} (h : Counted 0 0 s t) (h' : Counted o d t u) : Counted o d s u := by
  simpa using h.trans h'

theorem Counted.then_none {o d : Count} {s t u : State} (h : Counted o d s t) (h' : Counted 0 0 t u) : Counted o d s u := by
  simpa using h.trans h'

theorem pushFill_counted {s t : State} (h : pushFill s = .next t) : Counted 0 0 s t := by
  obtain ⟨b, -, rfl⟩ := pushFill_next h
  exact .of_eq rfl rfl

/-- Step B counts nothing and begins no wait (R262). -/
theorem ingRetry_counted {s t : State} (h : ingRetry s = .next t) :
    Counted 0 0 s t ∧ (t.ing.rxState = .pubWait → s.ing.rxState = .pubWait) := by
  unfold ingRetry at h
  split at h
  · next hw =>
    obtain ⟨u, hu, ht⟩ := Answer.andThen_eq_next h
    cases ht
    exact ⟨(pushFill_counted hu).then_none (.of_eq rfl rfl), fun _ => hw.1⟩
  · cases h
    exact ⟨.refl s, id⟩

/-- Step C does nothing, or ends a wait by a drop (R263). -/
theorem ingBusEndsWait_cases (bus : BusIn) (s : State) :
    ingBusEndsWait bus s = s ∨ (s.ing.rxState = .pubWait ∧ ingBusEndsWait bus s = dropWait s) := by
  unfold ingBusEndsWait
  split
  · next hw => exact .inr ⟨hw.1, rfl⟩
  · exact .inl rfl

theorem dropWait_counted (s : State) : Counted 0 1 s (dropWait s) := by simp [Counted]

/-- Step D counts neither kind of event, and leaves the receiver's state (R255). -/
theorem ingByte_counted {bus : BusIn} {s t : State} (h : ingByte bus s = .next t) :
    Counted 0 0 s t ∧ t.cfg = s.cfg ∧ t.ing.rxState = s.ing.rxState := by
  unfold ingByte at h
  split at h
  · rcases storeByte_next h with ⟨-, -, rfl⟩ | ⟨-, rfl⟩ <;> exact ⟨.of_eq rfl rfl, rfl, rfl⟩
  · cases h
    exact ⟨.refl s, rfl, rfl⟩

/-- `publish` drops a frame only where a full queue allows no wait (R259, R260). -/
theorem publish_counted {s t : State} (h : publish s = .next t) :
    Counted 0 0 s t ∨ (s.cfg.policy = .bounded ∧ s.cfg.pubTimeout = 0 ∧ Counted 0 1 s t) := by
  rcases publish_next h with ⟨-, -, h⟩ | ⟨hp, -, ht, rfl⟩ | ⟨-, -, -, rfl⟩ | ⟨-, h⟩
  · exact .inl (pushFill_counted h)
  · exact .inr ⟨hp, ht, by simp [Counted]⟩
  · exact .inl (.of_eq rfl rfl)
  · refine .inl (Counted.after_none ?_ (pushFill_counted h))
    exact .of_eq (discardOldest_overrunCnt _) (discardOldest_droppedCnt _)

/-- Step E counts at most one event: an overrun, or a drop where no wait is allowed (R256). -/
theorem ingEnd_counted {bus : BusIn} {s t : State} (h : ingEnd bus s = .next t) :
    Counted 0 0 s t ∨ Counted 1 0 s t ∨ (s.cfg.policy = .bounded ∧ s.cfg.pubTimeout = 0 ∧ Counted 0 1 s t) := by
  unfold ingEnd at h
  split at h
  · rcases endTransfer_next h with ⟨-, h⟩ | ⟨-, rfl⟩
    · exact (publish_counted h).imp_right .inr
    · exact .inr (.inl (by simp [Counted]))
  · cases h
    exact .inl (.refl s)

theorem ingEnd_pubWait {s : State} (h : s.ing.rxState = .pubWait) (bus : BusIn) : ingEnd bus s = .next s :=
  if_neg (by simp [h])

/-- Step F does not count a wait down in a cycle whose step E found the receiver in RX: there is no wait, or it has just begun
(R250, R259). -/
theorem ingCountdown_of_rx {d : State} (h : d.ing.rxState = .rx) (waiting : Bool) (e : State) :
    ingCountdown waiting (d.ing.rxState = .rx ∧ e.ing.rxState = .pubWait) e = e :=
  if_neg (by simp +contextual [h])

/-- Step F drops a frame at most (R262). -/
theorem ingCountdown_counted (waiting entered : Bool) (s : State) :
    Counted 0 0 s (ingCountdown waiting entered s) ∨ Counted 0 1 s (ingCountdown waiting entered s) := by
  unfold ingCountdown
  split
  · dsimp only
    split
    · exact .inr (.after_none (.of_eq rfl rfl) (dropWait_counted _))
    · exact .inl (.of_eq rfl rfl)
  · exact .inl (.refl s)

theorem RxState.eq_rx_or_pubWait (r : RxState) : r = .rx ∨ r = .pubWait := by cases r <;> simp

/-- A publish waits only under BOUNDED with a timeout (R259). -/
abbrev WaitsByPolicy (s : State) : Prop :=
  s.ing.rxState = .pubWait → s.cfg.policy = .bounded ∧ s.cfg.pubTimeout ≠ 0

theorem WaitsByPolicy.of_receiverInv {s : State} (h : ReceiverInv s) : WaitsByPolicy s := fun hw => by
  obtain ⟨-, hp, hleft, htimeout⟩ := h.2.2 hw
  exact ⟨hp, by omega⟩

/-- The events a clk_i cycle counts: none; an overrun; a drop under BOUNDED; or the drop that ends a wait and an overrun. -/
def CycleCounts (s t : State) : Prop :=
  Counted 0 0 s t ∨ Counted 1 0 s t ∨ (s.cfg.policy = .bounded ∧ Counted 0 1 s t) ∨
    (s.ing.rxState = .pubWait ∧ s.cfg.policy = .bounded ∧ Counted 1 1 s t)

/-- Steps E and F on a receiver that step D left in RX, when nothing has been counted (R250). -/
theorem CycleCounts.of_end {bus : BusIn} {s d e : State} (hcfg : d.cfg = s.cfg) (hd : Counted 0 0 s d)
    (he : ingEnd bus d = .next e) : CycleCounts s e := by
  rcases ingEnd_counted he with hc | hc | ⟨hp, -, hc⟩
  · exact .inl (hd.after_none hc)
  · exact .inr (.inl (hd.after_none hc))
  · exact .inr (.inr (.inl ⟨hcfg ▸ hp, hd.after_none hc⟩))

/-- The same when step C has ended a wait: publish then begins another wait rather than drop a second frame (R263). -/
theorem CycleCounts.of_end_after_drop {bus : BusIn} {s d e : State} (hw : WaitsByPolicy s) (hs : s.ing.rxState = .pubWait)
    (hcfg : d.cfg = s.cfg) (hd : Counted 0 1 s d) (he : ingEnd bus d = .next e) : CycleCounts s e := by
  obtain ⟨hp, hto⟩ := hw hs
  rcases ingEnd_counted he with hc | hc | ⟨-, hno, -⟩
  · exact .inr (.inr (.inl ⟨hp, hd.then_none hc⟩))
  · exact .inr (.inr (.inr ⟨hs, hp, by simpa using hd.trans hc⟩))
  · exact absurd (hcfg ▸ hno) hto

/-- R250, R410: what the steps A to F of a cycle count together. -/
theorem ingCycle_counts {bus : BusIn} {y : Sync} {s t : State} (hw : WaitsByPolicy s) (h : ingCycle bus y s = .next t) :
    CycleCounts s t := by
  obtain ⟨b, d, e, hb, hd, he, rfl⟩ := ingCycle_next h
  obtain ⟨hab, hwait⟩ := ingRetry_counted hb
  rw [ingServe_rxState] at hwait
  have hsa : Counted 0 0 s (ingServe (ingBegin y s)) := .of_eq (ingServe_overrunCnt _) (ingServe_droppedCnt _)
  have hsb := hsa.after_none hab
  have hbcfg : b.cfg = s.cfg := (ingRetry_keeps hb).1.trans (ingServe_cfg _)
  obtain ⟨hcd, hdcfg, hdrx⟩ := ingByte_counted hd
  change CycleCounts s (ingCountdown _ _ e)
  rcases ingBusEndsWait_cases bus b with hc | ⟨hbw, hc⟩ <;> rw [hc] at hcd hdcfg hdrx
  · have hsd := hsb.after_none hcd
    rcases RxState.eq_rx_or_pubWait d.ing.rxState with hrx | hrx
    · rw [ingCountdown_of_rx hrx]
      exact .of_end (hdcfg.trans hbcfg) hsd he
    · have hs := hwait (hdrx.symm.trans hrx)
      rw [ingEnd_pubWait hrx] at he
      cases he
      rcases ingCountdown_counted (s.ing.rxState = .pubWait) (d.ing.rxState = .rx ∧ d.ing.rxState = .pubWait) d with hf | hf
      · exact .inl (hsd.after_none hf)
      · exact .inr (.inr (.inl ⟨(hw hs).1, hsd.after_none hf⟩))
  · rw [ingCountdown_of_rx hdrx]
    exact .of_end_after_drop hw (hwait hbw) (hdcfg.trans hbcfg) ((hsb.after_none (dropWait_counted b)).then_none hcd) he

/-- R410, R263: each counter adds at most 1, a drop is under BOUNDED, and two events end a wait. -/
theorem CycleCounts.at_most_one_each {s t : State} (h : CycleCounts s t) :
    (t.ing.overrunCnt = s.ing.overrunCnt ∨ t.ing.overrunCnt = s.ing.overrunCnt + 1) ∧
    (t.ing.droppedCnt = s.ing.droppedCnt ∨ t.ing.droppedCnt = s.ing.droppedCnt + 1) ∧
    (t.ing.overrunCnt ≠ s.ing.overrunCnt → t.ing.droppedCnt ≠ s.ing.droppedCnt → s.ing.rxState = .pubWait) ∧
    (t.ing.droppedCnt ≠ s.ing.droppedCnt → s.cfg.policy = .bounded) := by
  simp only [CycleCounts, Counted, add_zero] at h
  rcases h with ⟨ho, hd⟩ | ⟨ho, hd⟩ | ⟨hp, ho, hd⟩ | ⟨hs, hp, ho, hd⟩
  · exact ⟨.inl ho, .inl hd, fun h _ => absurd ho h, fun h => absurd hd h⟩
  · exact ⟨.inr ho, .inl hd, fun _ h => absurd hd h, fun h => absurd hd h⟩
  · exact ⟨.inl ho, .inr hd, fun h _ => absurd ho h, fun _ => hp⟩
  · exact ⟨.inr ho, .inr hd, fun _ _ => hs, fun _ => hp⟩

/-! ## What a clk_r cycle counts and writes (R328, R225, R64) -/

/-- EMIT writes none of the decoder's registers, and leaves the count of aborts to ABORT (R320, R324). -/
theorem renEmit_frame {tp : TpIn} {s t : State} (h : renEmit tp s = .next t) :
    t.dec = s.dec ∧ t.ren.abortCnt = s.ren.abortCnt := by
  rcases renEmit_next h with ⟨-, h⟩ | ⟨-, rfl⟩ | ⟨r, -, rfl⟩ | ⟨r, i, -, rfl⟩ | ⟨-, rfl⟩
  · rcases emitRow_next h with ⟨-, rfl⟩ | ⟨-, -, -, rfl⟩ | ⟨-, -, rfl⟩ <;> exact ⟨rfl, rfl⟩
  · exact ⟨rfl, rfl⟩
  · exact ⟨rfl, rfl⟩
  · exact ⟨rfl, rfl⟩
  · refine ⟨takeAnswer_dec _ _, ?_⟩
    rw [takeAnswer_ren]
    cases tp.respErr with
    | true => rfl
    | false => exact nextRepeat_abortCnt _ _

theorem renAcquire_frame (s : State) : (renAcquire s).dec = s.dec ∧ (renAcquire s).ren.abortCnt = s.ren.abortCnt := by
  rcases renAcquire_cases s with ⟨-, e⟩ | ⟨-, -, e⟩ | ⟨-, -, e⟩ <;> rw [e] <;> exact ⟨rfl, rfl⟩

/-- R328, R413: only ABORT counts an abort, and it counts one. -/
theorem renRule_abortCnt {tp : TpIn} {s t : State} (h : renRule tp s = .next t) :
    t.ren.abortCnt = s.ren.abortCnt ∨ (s.ren.renState = .abort ∧ t.ren.abortCnt = s.ren.abortCnt + 1) := by
  cases hs : s.ren.renState with
  | clear =>
    rw [renRule_clear hs] at h
    obtain ⟨-, rfl⟩ := renClear_next h
    left
    dsimp only
    split <;> rfl
  | acquire =>
    rw [renRule_acquire hs] at h
    cases h
    exact .inl (renAcquire_frame s).2
  | decode =>
    rw [renRule_decode hs] at h
    obtain ⟨-, -, u, hu, rfl⟩ := renDecode_next h
    left
    rw [decodeNext_abortCnt, (handleByte_next hu).1]
  | emit =>
    rw [renRule_emit hs] at h
    exact .inl (renEmit_frame h).2
  | commit =>
    rw [renRule_commit hs] at h
    cases h
    left
    simp only [renCommit]
    split <;> rfl
  | abort =>
    rw [renRule_abort hs] at h
    cases h
    exact .inr ⟨rfl, rfl⟩

/-- Outside DECODE and CLEAR REN writes nothing of the decoder's, SB included (R64, R225). -/
theorem renRule_dec_eq {tp : TpIn} {s t : State} (hd : s.ren.renState ≠ .decode) (hc : s.ren.renState ≠ .clear)
    (h : renRule tp s = .next t) : t.dec = s.dec := by
  cases hs : s.ren.renState with
  | clear => exact absurd hs hc
  | acquire =>
    rw [renRule_acquire hs] at h
    cases h
    exact (renAcquire_frame s).1
  | decode => exact absurd hs hd
  | emit =>
    rw [renRule_emit hs] at h
    exact (renEmit_frame h).1
  | commit => rw [renRule_commit hs] at h; cases h; rfl
  | abort => rw [renRule_abort hs] at h; cases h; rfl

/-! ## The whole step -/

theorem step_clkI_frame {s t : State} {bus : BusIn} {y : Sync} (hinv : CoreInv s) (h : step s = .next t)
    (hk : s.nextTick = .clkI bus y) :
    t.cfg = s.cfg ∧ t.dec = s.dec ∧ t.ren = s.ren ∧ t.shown = s.shown ∧ CycleCounts s t := by
  have hcycle := step_clkI h hk
  obtain ⟨hcfg, hdec, hren, -, -, -, hshown⟩ := ingCycle_keeps hcycle
  have hw : WaitsByPolicy s.popTick := by
    simpa [WaitsByPolicy] using WaitsByPolicy.of_receiverInv hinv.receiver
  have hcounts := ingCycle_counts hw hcycle
  simp only [CycleCounts, Counted, State.popTick_ing, State.popTick_cfg] at hcounts
  exact ⟨hcfg.trans s.popTick_cfg, hdec.trans s.popTick_dec, hren.trans s.popTick_ren, hshown.trans s.popTick_shown, hcounts⟩

theorem step_clkR_frame {s t : State} {tp : TpIn} {y : Sync} (h : step s = .next t) (hk : s.nextTick = .clkR tp y) :
    t.cfg = s.cfg ∧ t.ing = s.ing ∧ t.arena = s.arena ∧
      (t.ren.abortCnt = s.ren.abortCnt ∨ (s.ren.renState = .abort ∧ t.ren.abortCnt = s.ren.abortCnt + 1)) ∧
      (s.ren.renState ≠ .decode → t.dec = { s.dec with sb := t.dec.sb, diagValid := false } ∧
        (s.ren.renState ≠ .clear → t.dec.sb = s.dec.sb)) := by
  obtain ⟨u, hu, rfl⟩ := step_clkR h hk
  obtain ⟨hcfg, hing, harena, -⟩ := renRule_keeps hu
  have habort := renRule_abortCnt hu
  simp only [renBegin, State.endPulse_ren, State.popTick_ren] at habort
  refine ⟨hcfg.trans s.popTick_cfg, hing.trans s.popTick_ing, harena.trans s.popTick_arena, habort,
    fun hd => ⟨?_, fun hc => ?_⟩⟩
  · have hdec := (renRule_dec hu).resolve_left fun h => hd (by simpa [renBegin] using h.1)
    simpa [renBegin, renFinish] using hdec.2
  · have hdec := renRule_dec_eq (by simpa [renBegin] using hd) (by simpa [renBegin] using hc) hu
    simp [renFinish, renBegin, hdec]

/-- Settles O37: a clk_i cycle counts what `CycleCounts` lists and keeps the clk_r domain, and a clk_r cycle keeps the clk_i domain
and writes the decoder in DECODE and CLEAR only. -/
theorem countersAndConfiguration : Obligations.CountersAndConfiguration := by
  intro s t hinv hne h
  cases hk : s.nextTick with
  | clkI bus y =>
    obtain ⟨hcfg, hdec, hren, hshown, hcounts⟩ := step_clkI_frame hinv h hk
    obtain ⟨hover, hdrop, hboth, hpolicy⟩ := hcounts.at_most_one_each
    refine ⟨hcfg, hover, hdrop, .inl (by rw [hren]), hboth, hpolicy, fun _ _ _ => ⟨hdec, hren, hshown⟩, nofun,
      fun _ => ?_⟩
    rw [hdec]
    exact ⟨rfl, rfl, rfl, rfl, fun _ => congrFun (State.readSb_congr (by rw [hdec]))⟩
  | clkR tp y =>
    obtain ⟨hcfg, hing, harena, habort, hdec⟩ := step_clkR_frame h hk
    refine ⟨hcfg, .inl (by rw [hing]), .inl (by rw [hing]), habort, fun ho => absurd (by rw [hing]) ho,
      fun hd => absurd (by rw [hing]) hd, nofun, fun _ _ _ => ⟨hing, harena⟩, fun hne => ?_⟩
    obtain ⟨hregs, hsb⟩ := hdec hne
    rw [hregs]
    exact ⟨rfl, rfl, rfl, rfl, fun hc => congrFun (State.readSb_congr (hsb hc))⟩
  | reset => exact absurd hk hne

end Sys2Proof.Machine
end

section
/-! The state right after a reset (70_reset_and_hazards.md R450): what the three byte spaces read as, which arena buffers are free, and
what the outputs show; and the codes of `dec_state_o` (10_state.md R60). -/

namespace Sys2Proof.Machine
open Sys2Proof

/-! ## The table of R450 -/

@[simp] theorem State.readSb_resetOf (c : Config) (i : Nat) : (State.resetOf c).readSb i = 0x00 := rfl

/-- PB is unspecified at reset (I3). -/
@[simp] theorem State.readPb_resetOf (c : Config) (i : Nat) : (State.resetOf c).readPb i = Config.freePrevByte 0 i := rfl

/-- The arena is unspecified at reset (I1). -/
@[simp] theorem State.readArena_resetOf (c : Config) (b i : Nat) :
    (State.resetOf c).readArena b i = Config.freeArenaByte 0 b i := rfl

/-- Buffer 0 is the fill buffer; every other one is free. -/
theorem State.mem_free_resetOf (c : Config) (b : Nat) : b ∈ (State.resetOf c).ing.free ↔ 1 ≤ b ∧ b < c.nbuf := by
  have hfree : (State.resetOf c).ing.free = List.range' 1 (c.nbuf - 1) := by
    simp only [State.resetOf, List.range_eq_range', List.tail_range']
  rw [hfree, List.mem_range'_1]
  omega

/-- No transport output is asserted, and the fields are 0 (D20). -/
theorem State.tp_outputs_resetOf (c : Config) :
    (State.resetOf c).tpCmdO = none ∧ (State.resetOf c).tpDataO = none ∧
      (State.resetOf c).tpFieldsO = { x := 0, y := 0, w := 0, h := 0, data := 0x00, dataLast := false } := by
  obtain ⟨hcmd, hdata⟩ := State.tp_outputs_of_quiet (s := State.resetOf c) (.inl rfl)
  exact ⟨hcmd, hdata, State.tpFieldsO_of_quiet rfl rfl⟩

/-! ## The codes of `dec_state_o` (R60) -/

theorem DecState.code_injective : Function.Injective DecState.code := by
  intro a b
  cases a <;> cases b <;> simp [DecState.code]

theorem DecState.code_ne_three (d : DecState) : d.code ≠ 0b11 := by cases d <;> decide

/-- The output names the decoder's state, since no two states have one code. -/
theorem State.decStateO_eq_code_iff (s : State) (d : DecState) : s.decStateO = d.code ↔ s.dec.decState = d :=
  DecState.code_injective.eq_iff

/-! ## The obligation -/

/-- Settles O22: the table of R450 is `State.resetOf`'s own, read through the laws of its spaces and outputs; and no two decoder states
have one code. -/
theorem resetValues : Obligations.ResetValues := by
  refine ⟨fun c => ?_, fun s => ?_⟩
  · obtain ⟨hcmd, hdata, hfields⟩ := State.tp_outputs_resetOf c
    have hcmdValid : (State.resetOf c).tpCmdValidO = false := by simp [State.tpCmdValidO, hcmd]
    have hdataValid : (State.resetOf c).tpDataValidO = false := by simp [State.tpDataValidO, hdata]
    simp only [State.readSb_resetOf, State.readPb_resetOf, State.readArena_resetOf, State.mem_free_resetOf, hcmd, hdata, hfields,
      hcmdValid, hdataValid]
    simp [State.resetOf, State.overrunCntO, State.droppedCntO, State.abortCntO, State.powerO, State.decStateO, State.diagValidO,
      State.diagByteO, DecState.code]
  · exact ⟨rfl, rfl, rfl, rfl, rfl, rfl, s.decStateO_eq_code_iff .idle, s.decStateO_eq_code_iff .awaitArg,
      s.decStateO_eq_code_iff .pixel, DecState.code_ne_three s.dec.decState⟩

end Sys2Proof.Machine
end

section
/-! The invariant right after a reset (70_reset_and_hazards.md R450). -/

namespace Sys2Proof.Machine
open Sys2Proof Sys2Proof.Safety

/-- Buffer 0 is the fill buffer and the others are free, in their rising order (R110, R450). -/
theorem places_resetOf (c : Config) : places (State.resetOf c) = List.range c.nbuf := by
  simp [places, State.resetOf, Config.nbuf, List.range_succ_eq_map]

theorem settled_replicate (n : Nat) (v : Bool) : Settled v (List.replicate n v) := fun _ hx => (List.mem_replicate.1 hx).2

/-- R450: nothing is under way, and CLEAR is about to write SB's first byte. -/
theorem coreInv_resetOf {c : Config} (hl : c.Legal) : CoreInv (State.resetOf c) where
  legal := hl
  partition := by rw [OwnershipPartition, places_resetOf]; rfl
  freeRising := List.pairwise_lt_range.sublist (List.tail_sublist _)
  receiver := ⟨Nat.zero_le _, Nat.zero_le _, nofun⟩
  fill := ⟨nofun, nofun, nofun⟩
  wait := nofun
  handshake := ⟨List.length_replicate, List.length_replicate,
    .inl ⟨nofun, not_not.2 rfl, not_not.2 rfl, settled_replicate _ _, settled_replicate _ _⟩⟩
  render := ⟨Config.cap_pos hl, fun _ => Config.cap_pos hl, nofun, nofun⟩
  transport := ⟨fun h => absurd rfl h, nofun, nofun⟩
  prev := nofun
  memory := ⟨⟨Memory.nil_wf _, Memory.nil_within _⟩, ⟨Memory.nil_wf _, Memory.nil_within _⟩, Memory.nil_wf _, Memory.nil_within _⟩

/-- Outside a pass nothing is said of what was shown. -/
theorem passShows_outside_pass {s : State}
    (hs : s.ren.renState = .clear ∨ s.ren.renState = .acquire ∨ s.ren.renState = .abort) : PassShows s := by
  rcases hs with hs | hs | hs <;> exact ⟨by simp [hs], by simp [hs], by simp [hs]⟩

/-- Settles O55: the table of R450 meets each part of the invariant, and no pass has begun. -/
theorem resetMeetsCoreInv : Obligations.ResetMeetsCoreInv :=
  ⟨rfl, by decide, fun _ hl => ⟨coreInv_resetOf hl, passShows_outside_pass (.inl rfl)⟩⟩

end Sys2Proof.Machine
end

section
/-! Every step keeps the machine's invariant: the exchange's part of it, through the steps A to F of ING's cycle (41_exchange.md R250,
R255 to R263), and the render domain's, through REN's rules (42_render.md R300 to R328). -/

namespace Sys2Proof.Machine
open Sys2Proof Sys2Proof.Safety

/-! ## What the steps of ING's cycle can do (R250) -/

/-- Step B: nothing, or the waiting chunk is pushed and the wait ends. -/
theorem ingRetry_cases {s t : State} (h : ingRetry s = .next t) :
    (¬(s.ing.rxState = .pubWait ∧ s.ing.q.length < s.cfg.depth) ∧ t = s) ∨
    (s.ing.rxState = .pubWait ∧ s.ing.q.length < s.cfg.depth ∧
      ∃ u, pushFill s = .next u ∧ t = { u with ing := { u.ing with rxState := .rx } }) := by
  unfold ingRetry at h
  split at h
  · next hw =>
    obtain ⟨u, hu, ht⟩ := Answer.andThen_eq_next h
    exact .inr ⟨hw.1, hw.2, u, hu, by cases ht; rfl⟩
  · next hw => exact .inl ⟨hw, by cases h; rfl⟩

/-- Step D: nothing, or the bus's byte is stored. -/
theorem ingByte_cases {bus : BusIn} {s t : State} (h : ingByte bus s = .next t) :
    t = s ∨ (s.ing.rxState = .rx ∧ storeByte bus.inByte s = .next t) := by
  unfold ingByte at h
  split at h
  · next hw => exact .inr ⟨hw.1, h⟩
  · exact .inl (by cases h; rfl)

/-- Step E: nothing, or the size check. -/
theorem ingEnd_cases {bus : BusIn} {s t : State} (h : ingEnd bus s = .next t) :
    t = s ∨ (s.ing.rxState = .rx ∧ endTransfer s = .next t) := by
  unfold ingEnd at h
  split at h
  · next hw => exact .inr ⟨hw.1, h⟩
  · exact .inl (by cases h; rfl)

/-- Step F: nothing, or the wait counts down, and ends by a drop at 0. -/
theorem ingCountdown_cases (waiting entered : Bool) (s : State) :
    ingCountdown waiting entered s = s ∨
    (s.ing.waitLeft - 1 ≠ 0 ∧
      ingCountdown waiting entered s = { s with ing := { s.ing with waitLeft := s.ing.waitLeft - 1 } }) ∨
    ingCountdown waiting entered s = dropWait { s with ing := { s.ing with waitLeft := s.ing.waitLeft - 1 } } := by
  unfold ingCountdown
  split
  · by_cases hleft : s.ing.waitLeft - 1 = 0
    · exact .inr (.inr (if_pos hleft))
    · exact .inr (.inl ⟨hleft, if_neg hleft⟩)
  · exact .inl rfl

/-! ## The chunks in the arena (R111, R76, R104) -/

/-- What the receiver's registers say of the arena's bytes, with the free set and the arena in their forms. -/
structure ChunksSound (s : State) : Prop where
  freeRising : FreeRising s
  count : s.ing.rxCount ≤ s.cfg.cap + 1
  fill : FillInv s
  canonical : Memory.wf Space.arena.unlisted s.arena
  within : Memory.within (s.cfg.nbuf * s.cfg.cap) s.arena

theorem ChunksSound.of_coreInv {s : State} (h : CoreInv s) : ChunksSound s := by
  obtain ⟨hcount, -, -⟩ := h.receiver
  obtain ⟨-, -, hwf, hin⟩ := h.memory
  exact ⟨h.freeRising, hcount, h.fill, hwf, hin⟩

/-- A write to the arena leaves every byte written that was. -/
theorem Memory.isSome_read_write {m : Memory} (hwf : Memory.wf none m) (a b : Nat) (v : Byte)
    (h : b = a ∨ (Memory.read none m b).isSome = true) : (Memory.read none (Memory.write none m a v) b).isSome = true := by
  by_cases hab : b = a
  · rw [hab, Memory.read_write_eq _ _ _ _ hwf]; rfl
  · rw [Memory.read_write_ne _ _ _ _ _ hab]; exact h.resolve_left hab

/-- The registers that `ChunksSound` does not speak of may change. -/
theorem ChunksSound.of_eq {s t : State} (h : ChunksSound s) (hcfg : t.cfg = s.cfg) (harena : t.arena = s.arena)
    (hing : t.ing = { t.ing with
      rxCount := s.ing.rxCount, fillIdx := s.ing.fillIdx, q := s.ing.q, heldValid := s.ing.heldValid, heldIdx := s.ing.heldIdx
      free := s.ing.free }) : ChunksSound t := by
  obtain ⟨hfree, hcount, hfill, hwf, hin⟩ := h
  refine ⟨?_, ?_, ?_, harena ▸ hwf, hcfg ▸ harena ▸ hin⟩
  · rw [FreeRising, hing]; exact hfree
  · rw [hing, hcfg]; exact hcount
  · simp only [FillInv, Filled, Written, hcfg, harena]
    rw [hing]
    exact hfill

/-- An empty count says nothing of the fill buffer. -/
theorem ChunksSound.emptied {s : State} (h : ChunksSound s) : ChunksSound { s with ing := { s.ing with rxCount := 0 } } := by
  obtain ⟨hq, hheld, -⟩ := h.fill
  exact ⟨h.freeRising, Nat.zero_le _, ⟨hq, hheld, nofun⟩, h.canonical, h.within⟩

theorem ChunksSound.dropWait {s : State} (h : ChunksSound s) : ChunksSound (dropWait s) := h.emptied.of_eq rfl rfl rfl

/-- Step A: the granted buffer was the queue's first, so it is filled; the released one joins the rising list (R252). -/
theorem ChunksSound.serve {s : State} (h : ChunksSound s) : ChunksSound (ingServe s) := by
  obtain ⟨hfree, hcount, ⟨hq, hheld, hfill⟩, hwf, hin⟩ := h
  by_cases hseen : syncOut s.ing.reqSync = s.ing.reqSeen
  · rw [ingServe_unseen hseen]
    exact ⟨hfree, hcount, ⟨hq, hheld, hfill⟩, hwf, hin⟩
  · have hrel : (releaseHeld s.ing).free.Pairwise (· < ·) := by
      unfold releaseHeld
      split
      · exact insertIdx_rising hfree
      · exact hfree
    rw [ingServe_eq_serveAcquire hseen]
    cases hqs : s.ing.q with
    | nil => rw [serveAcquire_nil hqs]; exact ⟨hrel, hcount, ⟨hq, nofun, hfill⟩, hwf, hin⟩
    | cons b rest =>
      rw [hqs] at hq
      rw [serveAcquire_cons hqs]
      exact ⟨hrel, hcount, ⟨fun c hc => hq c (List.mem_cons_of_mem _ hc), fun _ => hq b List.mem_cons_self, hfill⟩, hwf, hin⟩

/-- R258, R111: a whole chunk enters the queue, and the new fill buffer has no byte yet. -/
theorem ChunksSound.push {s t : State} (h : ChunksSound s) (hfull : s.ing.rxCount = s.cfg.cap) (ht : pushFill s = .next t) :
    ChunksSound t := by
  obtain ⟨hfree, -, ⟨hq, hheld, hfill⟩, hwf, hin⟩ := h
  obtain ⟨b, -, rfl⟩ := pushFill_next ht
  refine ⟨hfree.sublist List.erase_sublist, Nat.zero_le _, ⟨fun c hc => ?_, hheld, nofun⟩, hwf, hin⟩
  rcases List.mem_append.1 hc with hc | hc
  · exact hq c hc
  · rw [List.mem_singleton.1 hc]
    exact fun i hi => hfill i hi (hfull ▸ hi)

/-- R260: the discarded mailbox frame joins the rising list. -/
theorem ChunksSound.discard {s : State} (h : ChunksSound s) : ChunksSound { s with ing := discardOldest s.ing } := by
  obtain ⟨-, hheld, hfill⟩ := h.fill
  unfold discardOldest
  split
  · exact ⟨insertIdx_rising h.freeRising, h.count, ⟨nofun, hheld, hfill⟩, h.canonical, h.within⟩
  · exact h

/-- R256 to R261: only a whole chunk is published. -/
theorem ChunksSound.endTransfer {s t : State} (h : ChunksSound s) (ht : endTransfer s = .next t) : ChunksSound t := by
  rcases endTransfer_next ht with ⟨hfull, hp⟩ | ⟨-, rfl⟩
  · rcases publish_next hp with ⟨-, -, hp⟩ | ⟨-, -, -, rfl⟩ | ⟨-, -, -, rfl⟩ | ⟨-, hp⟩
    · exact h.push hfull hp
    · exact h.emptied.of_eq rfl rfl rfl
    · exact h.of_eq rfl rfl rfl
    · exact h.discard.push ((discardOldest_rxCount _).trans hfull) hp
  · exact h.emptied.of_eq rfl rfl rfl

/-- R255: the byte stored is the next of the fill buffer. -/
theorem ChunksSound.store {v : Byte} {s t : State} (h : ChunksSound s) (ht : storeByte v s = .next t) : ChunksSound t := by
  obtain ⟨hfree, hcount, ⟨hq, hheld, hfill⟩, hwf, hin⟩ := h
  rcases storeByte_next ht with ⟨hc, hb, rfl⟩ | ⟨hc, rfl⟩
  · have hkept (a : Nat) (ha : (Memory.read none s.arena a).isSome = true) :=
      Memory.isSome_read_write hwf (arenaIndex s.cfg s.ing.fillIdx s.ing.rxCount) a v (.inr ha)
    refine ⟨hfree, Nat.min_le_right _ _, ⟨fun b hb i hi => hkept _ (hq b hb i hi), fun hv i hi => hkept _ (hheld hv i hi),
      fun i hi hlt => ?_⟩, Memory.write_wf _ _ _ _ hwf, Memory.write_within _ _ hin (arenaIndex_lt hb hc)⟩
    rcases Nat.lt_succ_iff_lt_or_eq.1 (hlt.trans_le (Nat.min_le_left _ _)) with hlt | rfl
    · exact hkept _ (hfill i hi hlt)
    · exact Memory.isSome_read_write hwf _ _ v (.inl rfl)
  · exact ⟨hfree, Nat.min_le_right _ _, ⟨hq, hheld, fun i hi _ => hfill i hi (hi.trans_le (Nat.le_of_not_lt hc))⟩, hwf, hin⟩

/-! ## The publish wait (R75, R79, R259, R262) -/

/-- What the registers of a wait hold (R259, R262). -/
abbrev WaitRegisters (s : State) : Prop :=
  s.ing.rxState = .pubWait →
    s.ing.rxCount = s.cfg.cap ∧ s.cfg.policy = .bounded ∧ 1 ≤ s.ing.waitLeft.toNat ∧ s.ing.waitLeft.toNat ≤ s.cfg.pubTimeout

/-- A wait has its registers and a full queue. -/
abbrev WaitSound (s : State) : Prop := WaitRegisters s ∧ WaitInv s

theorem WaitSound.of_rx {s : State} (h : s.ing.rxState = .rx) : WaitSound s := ⟨by simp [h], by simp [h]⟩

theorem pushFill_rxState {s t : State} (h : pushFill s = .next t) : t.ing.rxState = s.ing.rxState := by
  obtain ⟨b, -, rfl⟩ := pushFill_next h
  rfl

/-- R259: only a full queue begins a wait, of PUB_TIMEOUT cycles. -/
theorem WaitSound.endTransfer {s t : State} (hs : ExchangeSound s) (hrx : s.ing.rxState = .rx) (ht : endTransfer s = .next t) :
    WaitSound t := by
  rcases endTransfer_next ht with ⟨hfull, hp⟩ | ⟨-, rfl⟩
  · rcases publish_next hp with ⟨-, -, hp⟩ | ⟨-, -, -, rfl⟩ | ⟨hpol, hq, hto, rfl⟩ | ⟨-, hp⟩
    · exact .of_rx ((pushFill_rxState hp).trans hrx)
    · exact .of_rx hrx
    · obtain ⟨-, -, -, ⟨-, -, hlt, -⟩, -⟩ := Config.legal_parts hs.legal
      have hleft : (BitVec.ofNat 32 s.cfg.pubTimeout).toNat = s.cfg.pubTimeout := by
        rw [BitVec.toNat_ofNat, Nat.mod_eq_of_lt hlt]
      refine ⟨fun _ => ⟨hfull, hpol, ?_, hleft.le⟩, fun _ => hs.queue.antisymm (Nat.le_of_not_lt hq)⟩
      exact hleft.symm ▸ Nat.one_le_iff_ne_zero.2 hto
    · exact .of_rx ((pushFill_rxState hp).trans ((discardOldest_rxState _).trans hrx))
  · exact .of_rx hrx

/-- R262: a wait that goes on after counting down has cycles left. -/
theorem WaitSound.countdown {s : State} (h : WaitSound s) (waiting entered : Bool) : WaitSound (ingCountdown waiting entered s) := by
  rcases ingCountdown_cases waiting entered s with e | ⟨hleft, e⟩ | e <;> rw [e]
  · exact h
  · refine ⟨fun hw => ?_, h.2⟩
    obtain ⟨hcount, hpol, hpos, hle⟩ := h.1 hw
    refine ⟨hcount, hpol, ?_, ?_⟩ <;> dsimp only at hleft ⊢ <;> bv_omega
  · exact .of_rx rfl

/-! ## ING's cycle -/

theorem ExchangeSound.of_retry {s t : State} (h : ExchangeSound s) (ht : ingRetry s = .next t) : ExchangeSound t := by
  obtain ⟨u, hu, hsound⟩ := h.retry_completes
  cases hu.symm.trans ht
  exact hsound

theorem ExchangeSound.of_byte {bus : BusIn} {s t : State} (h : ExchangeSound s) (ht : ingByte bus s = .next t) :
    ExchangeSound t := by
  obtain ⟨u, hu, hsound⟩ := h.byte_completes bus
  cases hu.symm.trans ht
  exact hsound

theorem ExchangeSound.of_ingCycle {bus : BusIn} {y : Sync} {s t : State} (h : ExchangeSound s)
    (ht : ingCycle bus y s = .next t) : ExchangeSound t := by
  obtain ⟨u, hu, hsound⟩ := h.cycle_completes bus y
  cases hu.symm.trans ht
  exact hsound

/-- Step B: a waiting chunk is whole, and what goes on waiting has a full queue. -/
theorem ingRetry_chunks {s t : State} (hs : ExchangeSound s) (hc : ChunksSound s) (hw : WaitRegisters s)
    (ht : ingRetry s = .next t) : ChunksSound t ∧ WaitSound t := by
  rcases ingRetry_cases ht with ⟨hno, rfl⟩ | ⟨hwait, -, u, hu, rfl⟩
  · exact ⟨hc, hw, fun hwait => hs.queue.antisymm (Nat.le_of_not_lt fun hlt => hno ⟨hwait, hlt⟩)⟩
  · exact ⟨(hc.push (hw hwait).1 hu).of_eq rfl rfl rfl, .of_rx rfl⟩

/-- Steps C and D: the wait ends where the bus is active, and its byte goes to a receiver in RX. -/
theorem ingByte_chunks {bus : BusIn} {s t : State} (hc : ChunksSound s) (hw : WaitSound s)
    (ht : ingByte bus (ingBusEndsWait bus s) = .next t) : ChunksSound t ∧ WaitSound t := by
  have hbus : ChunksSound (ingBusEndsWait bus s) ∧ WaitSound (ingBusEndsWait bus s) := by
    rcases ingBusEndsWait_cases bus s with e | ⟨-, e⟩ <;> rw [e]
    · exact ⟨hc, hw⟩
    · exact ⟨hc.dropWait, .of_rx rfl⟩
  rcases ingByte_cases ht with rfl | ⟨hrx, hstore⟩
  · exact hbus
  · exact ⟨hbus.1.store hstore, .of_rx ((storeByte_rxState hstore).trans hrx)⟩

/-- Steps E and F. -/
theorem ingEnd_chunks {bus : BusIn} {s t : State} (hs : ExchangeSound s) (hc : ChunksSound s) (hw : WaitSound s)
    (ht : ingEnd bus s = .next t) (waiting entered : Bool) :
    ChunksSound (ingCountdown waiting entered t) ∧ WaitSound (ingCountdown waiting entered t) := by
  have hend : ChunksSound t ∧ WaitSound t := by
    rcases ingEnd_cases ht with rfl | ⟨hrx, he⟩
    · exact ⟨hc, hw⟩
    · exact ⟨hc.endTransfer he, .endTransfer hs hrx he⟩
  refine ⟨?_, hend.2.countdown waiting entered⟩
  rcases ingCountdown_cases waiting entered t with e | ⟨-, e⟩ | e <;> rw [e]
  · exact hend.1
  · exact hend.1.of_eq rfl rfl rfl
  · exact hend.1.dropWait.of_eq rfl rfl rfl

/-- R250: the steps A to F, each from what the one before it left. -/
theorem ingCycle_chunks {bus : BusIn} {y : Sync} {s t : State} (hs : ExchangeSound s) (hc : ChunksSound s) (hw : WaitRegisters s)
    (h : ingCycle bus y s = .next t) : ChunksSound t ∧ WaitSound t := by
  obtain ⟨b, d, e, hb, hd, he, rfl⟩ := ingCycle_next h
  have hsa := (hs.begin y).serve
  have hsb := hsa.of_retry hb
  have hsd := (hsb.busEndsWait bus).of_byte hd
  have hca : ChunksSound (ingServe (ingBegin y s)) := (hc.of_eq rfl rfl rfl : ChunksSound (ingBegin y s)).serve
  have hwa : WaitRegisters (ingServe (ingBegin y s)) := by
    obtain ⟨hstate, hleft, hcount⟩ := ingServe_receiver (ingBegin y s)
    simp only [WaitRegisters, hstate, hleft, hcount, ingServe_cfg]
    exact hw
  obtain ⟨hcb, hwb⟩ := ingRetry_chunks hsa hca hwa hb
  obtain ⟨hcd, hwd⟩ := ingByte_chunks hcb hwb hd
  obtain ⟨hcf, hwf⟩ := ingEnd_chunks hsd hcd hwd he (s.ing.rxState = .pubWait) (d.ing.rxState = .rx ∧ e.ing.rxState = .pubWait)
  exact ⟨hcf.of_eq rfl rfl rfl, hwf⟩

/-! ## SB, PB and the transport's registers, through REN's rules (R64, R65, R321) -/

/-- Outside EMIT no rule touches the transport's registers (R321). -/
theorem renRule_tp {tp : TpIn} {s t : State} (hs : s.ren.renState ≠ .emit) (h : renRule tp s = .next t) :
    t.ren.tp = s.ren.tp := by
  cases hst : s.ren.renState with
  | clear =>
    rw [renRule_clear hst] at h
    obtain ⟨-, rfl⟩ := renClear_next h
    dsimp only
    split <;> rfl
  | acquire =>
    rw [renRule_acquire hst] at h
    cases h
    rcases renAcquire_cases s with ⟨-, e⟩ | ⟨-, -, e⟩ | ⟨-, -, e⟩ <;> rw [e]
  | decode =>
    rw [renRule_decode hst] at h
    obtain ⟨-, -, u, hu, rfl⟩ := renDecode_next h
    rw [decodeNext_tp, (handleByte_next hu).1]
  | emit => exact absurd hst hs
  | commit =>
    rw [renRule_commit hst] at h
    cases h
    simp only [renCommit]
    split <;> rfl
  | abort => rw [renRule_abort hst] at h; cases h; rfl

/-- Outside COMMIT and ABORT no rule touches PB or `prev_valid` (R65). -/
theorem renRule_pb {tp : TpIn} {s t : State} (hc : s.ren.renState ≠ .commit) (ha : s.ren.renState ≠ .abort)
    (h : renRule tp s = .next t) : t.ren.pb = s.ren.pb ∧ t.ren.prevValid = s.ren.prevValid := by
  cases hst : s.ren.renState with
  | clear =>
    rw [renRule_clear hst] at h
    obtain ⟨-, rfl⟩ := renClear_next h
    dsimp only
    split <;> exact ⟨rfl, rfl⟩
  | acquire =>
    rw [renRule_acquire hst] at h
    cases h
    rcases renAcquire_cases s with ⟨-, e⟩ | ⟨-, -, e⟩ | ⟨-, -, e⟩ <;> rw [e] <;> exact ⟨rfl, rfl⟩
  | decode =>
    rw [renRule_decode hst] at h
    obtain ⟨-, -, u, hu, rfl⟩ := renDecode_next h
    rw [decodeNext_pb, decodeNext_prevValid, (handleByte_next hu).1]
    exact ⟨rfl, rfl⟩
  | emit =>
    rw [renRule_emit hst] at h
    rcases renEmit_next h with ⟨-, h⟩ | ⟨-, rfl⟩ | ⟨r, -, rfl⟩ | ⟨r, i, -, rfl⟩ | ⟨-, rfl⟩
    · rcases emitRow_next h with ⟨-, rfl⟩ | ⟨-, -, -, rfl⟩ | ⟨-, -, rfl⟩ <;> exact ⟨rfl, rfl⟩
    · exact ⟨rfl, rfl⟩
    · exact ⟨rfl, rfl⟩
    · exact ⟨rfl, rfl⟩
    · rw [takeAnswer_ren]
      cases tp.respErr with
      | true => exact ⟨rfl, rfl⟩
      | false => exact ⟨nextRepeat_pb _ _, nextRepeat_prevValid _ _⟩
  | commit => exact absurd hst hc
  | abort => exact absurd hst ha

/-- A byte memory in canonical form and inside its CAP bytes (R104). -/
abbrev BitmapSound (c : Config) (d : Option Byte) (m : Memory) : Prop := Memory.wf d m ∧ Memory.within c.cap m

/-- R64: every write to SB is inside it. -/
theorem renRule_sb_sound {tp : TpIn} {s t : State} (hsb : BitmapSound s.cfg Space.sb.unlisted s.dec.sb)
    (h : renRule tp s = .next t) : BitmapSound s.cfg Space.sb.unlisted t.dec.sb := by
  have hwrite (a : Nat) (v : Byte) (ha : a < s.cfg.cap) :
      BitmapSound s.cfg Space.sb.unlisted (Memory.write Space.sb.unlisted s.dec.sb a v) :=
    ⟨Memory.write_wf _ _ _ _ hsb.1, Memory.write_within _ _ hsb.2 ha⟩
  by_cases hd : s.ren.renState = .decode
  · rw [renRule_decode hd] at h
    obtain ⟨-, -, u, hu, rfl⟩ := renDecode_next h
    rw [decodeNext_dec]
    obtain ⟨-, -, e | ⟨hc, d, e⟩, -⟩ := handleByte_next hu <;> rw [e]
    · exact hsb
    · exact hwrite _ d hc
  · by_cases hc : s.ren.renState = .clear
    · rw [renRule_clear hc] at h
      obtain ⟨hlt, rfl⟩ := renClear_next h
      exact hwrite _ _ hlt
    · rw [renRule_dec_eq hd hc h]
      exact hsb

/-- R327: a commit writes all of PB; R328: an abort gives it up. -/
theorem renRule_pb_sound {tp : TpIn} {s t : State} (hpb : BitmapSound s.cfg Space.pb.unlisted s.ren.pb) (hprev : PrevInv s)
    (h : renRule tp s = .next t) : BitmapSound s.cfg Space.pb.unlisted t.ren.pb ∧ PrevInv t := by
  by_cases hc : s.ren.renState = .commit
  · rw [renRule_commit hc] at h
    cases h
    cases hd : s.cfg.dirtyEn with
    | true =>
      rw [renCommit_copies hd]
      refine ⟨⟨Memory.ofBytes_wf _ _, Memory.ofBytes_within _ _⟩, fun _ => ⟨hd, fun i hi => ?_⟩⟩
      exact Option.isSome_of_eq_some (Memory.read_ofBytes s.readSb hi)
    | false => rw [renCommit_keeps_pb hd]; exact ⟨hpb, hprev⟩
  · by_cases ha : s.ren.renState = .abort
    · rw [renRule_abort ha] at h
      cases h
      exact ⟨hpb, nofun⟩
    · obtain ⟨hpb', hvalid⟩ := renRule_pb hc ha h
      obtain ⟨hcfg, -⟩ := renRule_keeps h
      rw [PrevInv, hpb', hvalid, hcfg]
      exact ⟨hpb, hprev⟩

/-- R321: what is offered to the transport is the current row's rectangle, and a byte of it. -/
abbrev OffersRow (s : State) : Prop :=
  (∀ r, s.ren.tp = .cmd r → r = s.rowRect s.ren.rowY s.ren.rowDy) ∧
  (∀ r i, s.ren.tp = .data r i → r = s.rowRect s.ren.rowY s.ren.rowDy ∧ i < r.bytes.length)

theorem OffersRow.of_idle {s : State} (h : s.ren.tp = .idle) : OffersRow s := ⟨by simp [h], by simp [h]⟩

/-- The command or a byte is taken: the same rectangle's next byte is offered, if it has one. -/
theorem OffersRow.dataFrom {s : State} {r : Rect} (hr : r = s.rowRect s.ren.rowY s.ren.rowDy) (i : Nat) :
    OffersRow { s with ren := { s.ren with tp := dataFrom r i } } := by
  refine ⟨fun r' h => absurd h ((dataFrom_ne r i).2 r'), fun r' j h => ?_⟩
  obtain ⟨rfl, rfl, hlt⟩ := dataFrom_eq_data h
  exact ⟨hr, hlt⟩

theorem takeAnswer_tp (err : Bool) (s : State) : (takeAnswer err s).ren.tp = .idle := by
  rw [takeAnswer_ren]
  cases err with
  | true => rfl
  | false => exact nextRepeat_tp _ _

theorem renEmit_offersRow {tp : TpIn} {s t : State} (ho : OffersRow s) (h : renEmit tp s = .next t) : OffersRow t := by
  rcases renEmit_next h with ⟨hp, h⟩ | ⟨-, rfl⟩ | ⟨r, hp, rfl⟩ | ⟨r, i, hp, rfl⟩ | ⟨-, rfl⟩
  · rcases emitRow_next h with ⟨-, rfl⟩ | ⟨-, -, -, rfl⟩ | ⟨-, -, rfl⟩
    · exact .of_idle hp
    · exact .of_idle hp
    · refine ⟨?_, nofun⟩
      rintro r ⟨⟩
      rfl
  · exact ho
  · exact .dataFrom (ho.1 r hp) 0
  · exact .dataFrom (ho.2 r i hp).1 (i + 1)
  · exact .of_idle (takeAnswer_tp _ _)

/-! ## The two domains' cycles, and the step -/

/-- The invariant speaks of the core's own registers and memories alone. -/
theorem coreInv_of_eq {s t : State} (h : CoreInv s) (hcfg : t.cfg = s.cfg) (hdec : t.dec = s.dec) (hren : t.ren = s.ren)
    (hing : t.ing = s.ing) (harena : t.arena = s.arena) : CoreInv t := by
  obtain ⟨cfg, dec, ren, ing, arena, inputs, ticks, epoch, shown⟩ := s
  obtain ⟨cfg', dec', ren', ing', arena', inputs', ticks', epoch', shown'⟩ := t
  obtain ⟨rfl, rfl, rfl, rfl, rfl⟩ : cfg' = cfg ∧ dec' = dec ∧ ren' = ren ∧ ing' = ing ∧ arena' = arena :=
    ⟨hcfg, hdec, hren, hing, harena⟩
  exact ⟨h.legal, h.partition, h.freeRising, h.receiver, h.fill, h.wait, h.handshake, h.render, h.transport, h.prev, h.memory⟩

theorem coreInv_popTick {s : State} (h : CoreInv s) : CoreInv s.popTick :=
  coreInv_of_eq h s.popTick_cfg s.popTick_dec s.popTick_ren s.popTick_ing s.popTick_arena

/-- While no request is pending ING keeps the held buffer (R252, R266). -/
theorem ingCycle_held {bus : BusIn} {y : Sync} {s t : State} (h : HandshakeSound s) (hn : ¬RequestPending s)
    (hc : ingCycle bus y s = .next t) : t.ing.heldValid = s.ing.heldValid ∧ t.ing.heldIdx = s.ing.heldIdx := by
  obtain ⟨hvalid, hidx, -⟩ := ingCycle_handshake hc
  rw [hvalid, hidx, ingServe_unseen ((h.begin_ing y).syncOut_reqSync hn)]
  exact ⟨rfl, rfl⟩

/-- A clk_i cycle keeps the exchange's part of the invariant, and the held buffer while REN decodes it. -/
theorem coreInv_ingCycle {bus : BusIn} {y : Sync} {s t : State} (h : CoreInv s) (hc : ingCycle bus y s = .next t) : CoreInv t := by
  obtain ⟨hcfg, hdec, hren, -⟩ := ingCycle_keeps hc
  have hsound := (ExchangeSound.of_coreInv h).of_ingCycle hc
  obtain ⟨-, -, hregs⟩ := h.receiver
  obtain ⟨hchunks, hwait⟩ := ingCycle_chunks (.of_coreInv h) (.of_coreInv h) hregs hc
  obtain ⟨hcur, hclear, hdecode, hemit⟩ := h.render
  obtain ⟨hsb, hpb, -⟩ := h.memory
  have hheld (hs : s.ren.renState = .decode) : t.ing.heldValid = s.ing.heldValid ∧ t.ing.heldIdx = s.ing.heldIdx := by
    refine ingCycle_held (.of_coreInv h) (fun hp => ?_) hc
    have hacq := ((HandshakeSound.of_coreInv h).of_requestPending hp).1
    exact nomatch hacq.symm.trans hs
  refine ⟨hsound.legal, hsound.partition, hchunks.freeRising, ⟨hchunks.count, hsound.queue, hwait.1⟩, hchunks.fill, hwait.2,
    ((HandshakeSound.of_coreInv h).of_ingCycle hc).inv, ?render, ?transport, ?prev, ?memory⟩
  case render =>
    rw [RenderInv, hcfg, hdec, hren]
    refine ⟨hcur, hclear, fun hs => ?_, hemit⟩
    rw [(hheld hs).1, (hheld hs).2]
    exact hdecode hs
  case transport =>
    rw [TransportInv, State.rowRect_congr hcfg (congrArg Decoder.sb hdec), hcfg, hren]
    exact h.transport
  case prev =>
    rw [PrevInv, hcfg, hren]
    exact h.prev
  case memory =>
    rw [MemoryInv, hdec, hren]
    exact ⟨hcfg ▸ hsb, hcfg ▸ hpb, hchunks.canonical, hchunks.within⟩

theorem RenderSound.of_renCycle {tp : TpIn} {y : Sync} {s t : State} (h : RenderSound s) (hc : renCycle tp y s = .next t) :
    RenderSound t := by
  obtain ⟨u, hu, hsound⟩ := h.cycle_completes (renCycle_next hc).1 y
  cases hu.symm.trans hc
  exact hsound

/-- R300: REN's rule offers the current row's rectangle alone. -/
theorem renRule_offersRow {tp : TpIn} {s t : State} (hoff : s.ren.tp ≠ .idle → s.ren.renState = .emit) (ho : OffersRow s)
    (h : renRule tp s = .next t) : OffersRow t := by
  by_cases hs : s.ren.renState = .emit
  · exact renEmit_offersRow ho (renRule_emit hs tp ▸ h)
  · exact .of_idle ((renRule_tp hs h).trans (by_contra fun hp => hs (hoff hp)))

/-- A clk_r cycle keeps REN's part of the invariant, and leaves the exchange's registers and the arena alone. -/
theorem coreInv_renCycle {tp : TpIn} {y : Sync} {s t : State} (h : CoreInv s) (hc : renCycle tp y s = .next t) : CoreInv t := by
  obtain ⟨hcfg, hing, harena, -⟩ := renCycle_keeps hc
  have hsound := (RenderSound.of_coreInv h).of_renCycle hc
  obtain ⟨-, u, hu, rfl⟩ := renCycle_next hc
  obtain ⟨hsb, hpb, ha⟩ := h.memory
  have hoffers : OffersRow u :=
    renRule_offersRow (s := renBegin y s) (fun hp => (h.transport.1 hp).1) h.transport.2 hu
  have hsb' : BitmapSound s.cfg Space.sb.unlisted u.dec.sb := renRule_sb_sound (s := renBegin y s) hsb hu
  obtain ⟨hpb', hprev⟩ := renRule_pb_sound (s := renBegin y s) hpb h.prev hu
  refine ⟨hsound.handshake.legal, hsound.partition, ?freeRising, ?receiver, ?fill, ?wait, hsound.handshake.inv, hsound.render,
    ⟨hsound.offering, hoffers⟩, hprev, ?memory⟩
  case freeRising => rw [FreeRising, hing]; exact h.freeRising
  case receiver => rw [ReceiverInv, hing, hcfg]; exact h.receiver
  case fill => simp only [FillInv, Filled, Written, hing, hcfg, harena]; exact h.fill
  case wait => rw [WaitInv, hing, hcfg]; exact h.wait
  case memory =>
    rw [MemoryInv, harena, hcfg]
    exact ⟨hsb', hpb', ha⟩

/-- Settles O56: each domain's cycle keeps its own part and leaves the other's registers alone, and a reset sets the table of
R450. -/
theorem stepKeepsCoreInv : Obligations.StepKeepsCoreInv := by
  intro s t h hstep
  rcases runTick_next (step_next hstep).2 with ⟨bus, y, -, hc⟩ | ⟨tp, y, -, hc⟩ | ⟨-, rfl⟩
  · exact coreInv_ingCycle (coreInv_popTick h) hc
  · exact coreInv_renCycle (coreInv_popTick h) hc
  · exact coreInv_of_eq (coreInv_resetOf (coreInv_popTick h).legal) rfl rfl rfl rfl rfl

end Sys2Proof.Machine
end

section
/-! What a pass has shown (42_render.md R306, R320, R330, R331): each step keeps the account of the rows passed, and at COMMIT it is the
whole picture. -/

namespace Sys2Proof.Machine
open Sys2Proof Sys2Proof.Safety

/-! ## The rectangles of the rows passed (R312, R314) -/

theorem rowRects_of_skip {s : State} {y : Nat} (h : s.skipRow y = true) : rowRects s y = [] := if_pos h

theorem rowRects_of_not_skip {s : State} {y : Nat} (h : s.skipRow y = false) :
    rowRects s y = (List.range s.cfg.sy).map (fun dy => s.rowRect y dy) := if_neg (by simp [h])

/-- R320: past row `y` come its rectangles, all SY or none. -/
theorem rectsBefore_next_row (s : State) (y : Nat) : rectsBefore s (y + 1) 0 = rectsBefore s y 0 ++ rowRects s y := by
  rw [rectsBefore_zero, rectsBefore_zero, List.range_succ, List.flatMap_append, List.flatMap_singleton]

/-- The account depends on the parameters, SB, PB and `prev_valid` alone. -/
theorem rectsBefore_congr {s t : State} (hc : t.cfg = s.cfg) (h : t.dec.sb = s.dec.sb) (hp : t.ren.pb = s.ren.pb)
    (hv : t.ren.prevValid = s.ren.prevValid) (he : t.epoch = s.epoch) : rectsBefore t = rectsBefore s := by
  have hrows : rowRects t = rowRects s := by
    funext y
    simp only [rowRects, State.skipRow_congr hc h hp hv he, State.rowRect_congr hc h, hc]
  funext y dy
  simp only [rectsBefore, hrows, State.rowRect_congr hc h]

/-! ## The account in each state of REN -/

theorem passShows_decode {s : State} (hs : s.ren.renState = .decode) (h : passRects s.shown = []) : PassShows s :=
  ⟨fun _ => h, by simp [hs], by simp [hs]⟩

theorem passShows_emit_between {s : State} (hs : s.ren.renState = .emit) (htp : s.ren.tp = .idle)
    (hskip : s.ren.rowDy ≠ 0 → s.skipRow s.ren.rowY = false)
    (h : passRects s.shown = rectsBefore s s.ren.rowY s.ren.rowDy) : PassShows s :=
  ⟨by simp [hs], fun _ => ⟨fun _ => ⟨hskip, h⟩, fun hne => absurd htp hne⟩, by simp [hs]⟩

theorem passShows_emit_offering {s : State} (hs : s.ren.renState = .emit) (htp : s.ren.tp ≠ .idle)
    (hskip : s.skipRow s.ren.rowY = false)
    (h : passRects s.shown = rectsBefore s s.ren.rowY s.ren.rowDy ++ [s.rowRect s.ren.rowY s.ren.rowDy]) : PassShows s :=
  ⟨by simp [hs], fun _ => ⟨fun he => absurd he htp, fun _ => ⟨hskip, h⟩⟩, by simp [hs]⟩

theorem passShows_commit {s : State} (hs : s.ren.renState = .commit) (h : passRects s.shown = rectsBefore s s.cfg.h 0) :
    PassShows s := ⟨by simp [hs], by simp [hs], fun _ => h⟩

/-- What the account speaks of: the parameters, SB, REN's registers and what was shown. -/
theorem passShows_of_eq {s t : State} (h : PassShows s) (hcfg : t.cfg = s.cfg) (hsb : t.dec.sb = s.dec.sb)
    (hren : t.ren = { s.ren with ackSync := t.ren.ackSync, tpCycles := t.ren.tpCycles }) (he : t.epoch = s.epoch)
    (hshown : t.shown = s.shown) : PassShows t := by
  have hpb : t.ren.pb = s.ren.pb := by rw [hren]
  have hvalid : t.ren.prevValid = s.ren.prevValid := by rw [hren]
  rw [PassShows, rectsBefore_congr hcfg hsb hpb hvalid he, State.skipRow_congr hcfg hsb hpb hvalid he,
    State.rowRect_congr hcfg hsb, hcfg, hshown, hren]
  exact h

/-! ## REN's rules -/

/-- A diagnostic shows no rectangle (R411). -/
theorem handleByte_passRects {b : Byte} {s t : State} (h : handleByte b s = .next t) : passRects t.shown = passRects s.shown := by
  obtain ⟨-, e | ⟨d, e⟩, -⟩ := handleByte_next h <;> rw [e]
  rfl

/-- DECODE shows nothing, and EMIT begins before row 0 (R307, R308). -/
theorem renDecode_passShows {s t : State} (hs : s.ren.renState = .decode) (htp : s.ren.tp = .idle) (h : PassShows s)
    (hr : renDecode s = .next t) : PassShows t := by
  obtain ⟨-, -, u, hu, rfl⟩ := renDecode_next hr
  have hshown : passRects u.shown = [] := (handleByte_passRects hu).trans (h.1 hs)
  rw [decodeNext_handled hu]
  by_cases hlast : s.ren.decPtr + 1 = s.cfg.cap
  · rw [if_pos hlast]
    exact passShows_emit_between rfl htp (fun h0 => absurd rfl h0) hshown
  · rw [if_neg hlast]
    exact passShows_decode hs hshown

/-- R320: an OK answer ends the repeat, and after the SY-th the row is passed. -/
theorem takeAnswer_passShows {s : State} (hs : s.ren.renState = .emit) (hdy : s.ren.rowDy < s.cfg.sy)
    (hskip : s.skipRow s.ren.rowY = false)
    (h : passRects s.shown = rectsBefore s s.ren.rowY s.ren.rowDy ++ [s.rowRect s.ren.rowY s.ren.rowDy]) (err : Bool) :
    PassShows (takeAnswer err s) := by
  rw [← rectsBefore_succ] at h
  cases err with
  | true => exact passShows_outside_pass (.inr (.inr rfl))
  | false =>
    simp only [takeAnswer, nextRepeat, Bool.false_eq_true, if_false]
    by_cases hrep : s.ren.rowDy + 1 < s.cfg.sy
    · rw [if_pos hrep]
      exact passShows_emit_between hs rfl (fun _ => hskip) h
    · rw [if_neg hrep]
      refine passShows_emit_between hs rfl (fun h0 => absurd rfl h0) (h.trans ?_)
      have hrow : s.ren.rowDy + 1 = s.cfg.sy := by omega
      refine Eq.trans ?_ (rectsBefore_next_row s s.ren.rowY).symm
      rw [rowRects_of_not_skip hskip, rectsBefore_zero, ← hrow]
      rfl

/-- EMIT (R320, R321): a row is skipped or offered, and then its repeats are counted by TP's answers. -/
theorem renEmit_passShows {s t : State} {tp : TpIn} (hs : s.ren.renState = .emit) (hr : RenderInv s) (h : PassShows s)
    (ht : renEmit tp s = .next t) : PassShows t := by
  obtain ⟨-, -, -, hrange⟩ := hr
  obtain ⟨-, hdy, hend⟩ := hrange hs
  have ⟨_, hemit, _⟩ := h
  obtain ⟨hbetween, hoffering⟩ := hemit hs
  have htaken (r : Rect) (i : Nat) (hp : s.ren.tp ≠ .idle) : PassShows { s with ren := { s.ren with tp := dataFrom r i } } := by
    obtain ⟨hskip, hshown⟩ := hoffering hp
    exact passShows_emit_offering hs (dataFrom_ne r i).1 hskip hshown
  rcases renEmit_next ht with ⟨hp, ht⟩ | ⟨-, rfl⟩ | ⟨r, hp, rfl⟩ | ⟨r, i, hp, rfl⟩ | ⟨hp, rfl⟩
  · obtain ⟨hskip0, hshown⟩ := hbetween hp
    rcases emitRow_next ht with ⟨hy, rfl⟩ | ⟨-, h0, hskip, rfl⟩ | ⟨-, hno, rfl⟩
    · rw [hend hy, hy] at hshown
      exact passShows_commit rfl hshown
    · refine passShows_emit_between hs hp (fun hne => absurd h0 hne) (hshown.trans ?_)
      rw [h0]
      refine Eq.trans ?_ (rectsBefore_next_row s s.ren.rowY).symm
      rw [rowRects_of_skip hskip, List.append_nil]
    · have hskip : s.skipRow s.ren.rowY = false := by
        by_cases h0 : s.ren.rowDy = 0
        · exact Bool.eq_false_iff.2 fun hsk => hno ⟨h0, hsk⟩
        · exact hskip0 h0
      exact passShows_emit_offering hs (by simp) hskip (congrArg (· ++ [s.rowRect s.ren.rowY s.ren.rowDy]) hshown)
  · exact h
  · exact htaken r 0 (by simp [hp])
  · exact htaken r (i + 1) (by simp [hp])
  · obtain ⟨hskip, hshown⟩ := hoffering (by simp [hp])
    exact takeAnswer_passShows hs hdy hskip hshown _

theorem renRule_passShows {tp : TpIn} {s t : State} (hr : RenderInv s) (hoff : s.ren.tp ≠ .idle → s.ren.renState = .emit)
    (h : PassShows s) (ht : renRule tp s = .next t) : PassShows t := by
  cases hs : s.ren.renState with
  | clear =>
    rw [renRule_clear hs] at ht
    obtain ⟨-, rfl⟩ := renClear_next ht
    by_cases hlast : s.ren.clrPtr + 1 = s.cfg.cap
    · exact passShows_outside_pass (by simp [hlast])
    · exact passShows_outside_pass (by simp [hlast, hs])
  | acquire =>
    rw [renRule_acquire hs] at ht
    cases ht
    rcases renAcquire_cases s with ⟨-, e⟩ | ⟨-, -, e⟩ | ⟨-, -, e⟩ <;> rw [e]
    · exact h
    · exact passShows_decode rfl rfl
    · exact passShows_outside_pass (.inr (.inl hs))
  | decode =>
    rw [renRule_decode hs] at ht
    exact renDecode_passShows hs (by_contra fun hp => nomatch (hoff hp).symm.trans hs) h ht
  | emit => exact renEmit_passShows hs hr h (renRule_emit hs tp ▸ ht)
  | commit => exact passShows_outside_pass (.inr (.inl (renRule_to_acquire (.inl hs) ht)))
  | abort => exact passShows_outside_pass (.inr (.inl (renRule_to_acquire (.inr hs) ht)))

/-- Settles O58: a clk_i cycle leaves all that the account speaks of alone, a rule of REN keeps it, and a reset ends the pass. -/
theorem stepKeepsPassShows : Obligations.StepKeepsPassShows := by
  intro s t hinv h hstep
  have h' : PassShows s.popTick := passShows_of_eq h (by simp) (by simp) (by simp) (by simp) (by simp)
  rcases runTick_next (step_next hstep).2 with ⟨bus, y, -, hc⟩ | ⟨tp, y, -, hc⟩ | ⟨-, rfl⟩
  · obtain ⟨hcfg, hdec, hren, -, -, hepoch, hshown⟩ := ingCycle_keeps hc
    exact passShows_of_eq h' hcfg (by rw [hdec]) (by rw [hren]) hepoch hshown
  · obtain ⟨-, u, hu, rfl⟩ := renCycle_next hc
    have hinv' := coreInv_popTick hinv
    have hbegin : PassShows (renBegin y s.popTick) := passShows_of_eq h' rfl rfl rfl rfl rfl
    have hrule := renRule_passShows (s := renBegin y s.popTick) hinv'.render (fun hp => (hinv'.transport.1 hp).1) hbegin hu
    exact passShows_of_eq hrule rfl rfl rfl rfl rfl
  · exact passShows_outside_pass (.inl rfl)

/-! ## At COMMIT (R330, R331) -/

/-- `n` entries for each of `m` rows, counted through. -/
theorem flatMap_range_map_range {α : Type} (f : Nat → Nat → α) (m : Nat) {n : Nat} (hn : 0 < n) :
    (List.range m).flatMap (fun y => (List.range n).map (f y)) = (List.range (m * n)).map (fun k => f (k / n) (k % n)) := by
  induction m with
  | zero => simp
  | succ m ih =>
    rw [List.range_succ, List.flatMap_append, List.flatMap_singleton, ih, Nat.succ_mul, List.range_add, List.map_append,
      List.map_map]
    congr 1
    refine List.map_congr_left fun d hd => ?_
    have hlt := List.mem_range.1 hd
    simp only [Function.comp_apply, Nat.mul_comm m n, Nat.mul_add_div hn, Nat.div_eq_of_lt hlt, Nat.add_zero, Nat.mul_add_mod,
      Nat.mod_eq_of_lt hlt]

theorem flatMap_ite_nil {α β : Type} (p : α → Bool) (f : α → List β) (l : List α) :
    l.flatMap (fun a => if p a then [] else f a) = (l.filter (fun a => !p a)).flatMap f := by
  induction l with
  | nil => rfl
  | cons a l ih => cases hp : p a <;> simp [hp, ih]

/-- R331: the rows passed are those that are not skipped. -/
theorem rectsBefore_eq_filter (s : State) (y : Nat) :
    rectsBefore s y 0 = ((List.range y).filter (fun z => !s.skipRow z)).flatMap
      (fun z => (List.range s.cfg.sy).map (fun dy => s.rowRect z dy)) := by
  rw [rectsBefore_zero]
  exact flatMap_ite_nil s.skipRow _ _

/-- Settles O59: without the dirty-line optimisation or a frame in PB no row is skipped; with both, the rows skipped are the equal
ones. -/
theorem committedPassShows : Obligations.CommittedPassShows := by
  intro s hl h hs
  obtain ⟨⟨-, -, -, -, hsy⟩, -⟩ := Config.legal_parts hl
  obtain ⟨-, -, hcommit⟩ := h
  rw [hcommit hs, rectsBefore_eq_filter]
  refine ⟨fun hall => ?_, fun hdirty hvalid => ?_⟩
  · have hskip (y : Nat) : s.skipRow y = false := by rcases hall with e | e <;> simp [State.skipRow, e]
    simp [hskip, flatMap_range_map_range s.rowRect s.cfg.h hsy]
  · have hskip : s.skipRow = s.rowEq := by funext y; simp [State.skipRow, hdirty, hvalid]
    rw [hskip]
    refine ⟨rfl, fun hequal => ?_, fun y hy hdiff hothers => ?_⟩
    · rw [List.filter_eq_nil_iff.2 (fun y hy => by simp [hequal y (List.mem_range.1 hy)])]
      rfl
    · have hone : (List.range s.cfg.h).filter (fun z => !s.rowEq z) = [y] := by
        have hcount : (List.range s.cfg.h).count y = 1 := List.count_eq_one_of_mem List.nodup_range (List.mem_range.2 hy)
        rw [List.filter_congr (q := (· == y)), List.filter_beq, hcount, List.replicate_one]
        intro z hz
        by_cases hzy : z = y
        · simp [hzy, hdiff]
        · simp [hzy, hothers z (List.mem_range.1 hz) hzy]
      rw [hone, List.flatMap_singleton]

end Sys2Proof.Machine
end

section
/-! Encoding and decoding agree (30_encoding.md R150 to R155), both ways. -/

namespace Sys2Proof.Machine
open Sys2Proof

/-- The six forms of an instruction; the eleven one-argument commands have one (R201). -/
theorem Instr.forms (i : Instr) :
    i = .displayOff ∨ i = .displayOn ∨ (∃ (k : OneArg) (c : Byte), i = k.instr c) ∨ (∃ b, i = .ignored b) ∨
      (∃ a, i = .argument a) ∨ ∃ d, i = .pixelData d := by
  cases i with
  | displayOff => exact .inl rfl
  | displayOn => exact .inr (.inl rfl)
  | setContrast c => exact .inr (.inr (.inl ⟨.contrast, c, rfl⟩))
  | setMuxRatio c => exact .inr (.inr (.inl ⟨.muxRatio, c, rfl⟩))
  | setDisplayOffset c => exact .inr (.inr (.inl ⟨.displayOffset, c, rfl⟩))
  | setChargePump c => exact .inr (.inr (.inl ⟨.chargePump, c, rfl⟩))
  | setAddrMode c => exact .inr (.inr (.inl ⟨.addrMode, c, rfl⟩))
  | setSegRemap c => exact .inr (.inr (.inl ⟨.segRemap, c, rfl⟩))
  | setComPins c => exact .inr (.inr (.inl ⟨.comPins, c, rfl⟩))
  | setPrecharge c => exact .inr (.inr (.inl ⟨.precharge, c, rfl⟩))
  | setVcom c => exact .inr (.inr (.inl ⟨.vcom, c, rfl⟩))
  | setClockDiv c => exact .inr (.inr (.inl ⟨.clockDiv, c, rfl⟩))
  | setStartLine c => exact .inr (.inr (.inl ⟨.startLine, c, rfl⟩))
  | ignored b => exact .inr (.inr (.inr (.inl ⟨b, rfl⟩)))
  | argument a => exact .inr (.inr (.inr (.inr (.inl ⟨a, rfl⟩))))
  | pixelData d => exact .inr (.inr (.inr (.inr (.inr ⟨d, rfl⟩))))

@[simp] theorem OneArg.instr_wf (m : CmdMap) (k : OneArg) (c : Byte) : (k.instr c).wf m = m.hasCode k c := by cases k <;> rfl

@[simp] theorem OneArg.encodeByte_instr (m : CmdMap) (k : OneArg) (c : Byte) : encodeByte m (k.instr c) = c := by cases k <;> rfl

/-- An ignored byte fails every line of R154. -/
theorem ignored_wf_iff (m : CmdMap) (b : Byte) :
    (Instr.ignored b).wf m = true ↔ b ≠ m.cmdOff ∧ b ≠ m.cmdOn ∧ ∀ k, b ∉ m.codes k := by
  simp only [Instr.wf, Bool.and_eq_true, bne_iff_ne, Bool.not_eq_true', ← Bool.not_eq_true, CmdMap.isOneArg_iff, not_exists,
    and_assoc]

/-- Read in its decoder state, the byte of a well-formed instruction is that instruction (R153, R154). -/
theorem readByte_encodeByte {m : CmdMap} {i : Instr} (hm : m.legal = true) (hwf : i.wf m = true) :
    readByte m i.readIn (encodeByte m i) = i := by
  obtain rfl | rfl | ⟨k, c, rfl⟩ | ⟨b, rfl⟩ | ⟨a, rfl⟩ | ⟨d, rfl⟩ := Instr.forms i
  · exact classify_cmdOff m
  · exact classify_cmdOn hm
  · rw [OneArg.instr_wf, CmdMap.hasCode_iff] at hwf
    rw [OneArg.instr_readIn, OneArg.encodeByte_instr]
    exact classify_code hm hwf
  · obtain ⟨hoff, hon, hcode⟩ := (ignored_wf_iff m b).1 hwf
    exact classify_ignored hoff hon hcode
  · rfl
  · rfl

/-- Settles O14: an instruction is one byte, which decode takes off the stream and reads back. -/
theorem decodeOfEncode : Obligations.DecodeOfEncode := by
  intro m i rest hm hwf
  rw [encode, List.singleton_append, decode, readByte_encodeByte hm hwf]

/-- What a byte is read as is well formed, and the byte is its encoding (R154, R155). -/
theorem encodeByte_readByte (m : CmdMap) (st : DecState) (b : Byte) :
    (readByte m st b).wf m = true ∧ encodeByte m (readByte m st b) = b := by
  cases st with
  | idle =>
    rw [readByte]
    rcases classify_cases m b with ⟨hb, e⟩ | ⟨hb, e⟩ | ⟨k, hk, e⟩ | ⟨hoff, hon, hcode, e⟩ <;> rw [e]
    · exact ⟨rfl, hb.symm⟩
    · exact ⟨rfl, hb.symm⟩
    · exact ⟨(OneArg.instr_wf m k b).trans ((m.hasCode_iff k b).2 hk), OneArg.encodeByte_instr m k b⟩
    · exact ⟨(ignored_wf_iff m b).2 ⟨hoff, hon, hcode⟩, rfl⟩
  | awaitArg => exact ⟨rfl, rfl⟩
  | pixel => exact ⟨rfl, rfl⟩

/-- Settles O15: the byte taken off the stream is the encoding of what it is read as, in every decoder state. -/
theorem encodeOfDecode : Obligations.EncodeOfDecode := by
  intro m st bytes rest i h
  cases bytes with
  | nil => cases h
  | cons b bs =>
    cases h
    obtain ⟨hwf, hbyte⟩ := encodeByte_readByte m st b
    refine ⟨hwf, readByte_readIn m st b, ?_⟩
    rw [encode, hbyte, List.singleton_append]

/-- Settles O13: each word is evaluated. -/
theorem decodeWordsFromSpec : Obligations.DecodeWordsFromSpec := ⟨rfl, rfl, rfl, rfl, rfl, rfl, rfl⟩

end Sys2Proof.Machine
end

section
/-! What every meaning has in common (40_decoder.md R200 to R202, R223): where it stops, what it leaves alone, what it reads; and the
step that runs it (42_render.md R308). -/

namespace Sys2Proof.Machine
open Sys2Proof Sys2Proof.Safety

/-! ## Stops (log entry 9) -/

theorem inDecState_refused {st : DecState} {s : State} {e : Answer} (h : s.dec.decState ≠ st) :
    inDecState st s e = .refused .decoderStateMismatch := if_neg h

/-- Settles O7: every meaning checks the decoder state first, and PIXEL_DATA then writes at the cursor. -/
theorem meaningStops : Obligations.MeaningStops := by
  refine ⟨fun i s hne => ?_, fun d s hs hc => ?_⟩
  · obtain rfl | rfl | ⟨k, c, rfl⟩ | ⟨b, rfl⟩ | ⟨a, rfl⟩ | ⟨d, rfl⟩ := Instr.forms i
    · exact inDecState_refused hne
    · exact inDecState_refused hne
    · rw [exec_oneArg]
      exact inDecState_refused (OneArg.instr_readIn k c ▸ hne)
    · exact inDecState_refused hne
    · exact inDecState_refused hne
    · exact inDecState_refused hne
  · refine (inDecState_eq hs).trans ?_
    rw [State.writeSb, if_neg hc.not_gt, Answer.andThen_fault]

/-! ## The frame (R200) -/

/-- Settles O8: each of the six effects names the fields it writes. -/
theorem instructionFrame : Obligations.InstructionFrame := by
  intro i s t h
  obtain ⟨-, ⟨rfl, rfl⟩ | ⟨rfl, rfl⟩ | ⟨k, c, rfl, rfl⟩ | ⟨b, rfl, rfl⟩ | ⟨a, rfl, rfl⟩ | ⟨d, rfl, -, rfl⟩⟩ := exec_next h
  · exact ⟨rfl, fun _ _ => rfl, fun _ => rfl, fun _ _ => rfl, fun hne => absurd rfl hne, fun _ _ => rfl, fun _ => rfl,
      fun _ => ⟨rfl, rfl, rfl⟩⟩
  · exact ⟨rfl, fun _ _ => rfl, fun _ => rfl, fun _ _ => rfl, fun _ hne => absurd rfl hne, fun hne => absurd rfl hne,
      fun _ => rfl, fun _ => ⟨rfl, rfl, rfl⟩⟩
  · exact ⟨rfl, fun _ _ => rfl, fun _ => rfl, fun _ _ => rfl, fun _ _ => rfl, fun _ _ => rfl, fun hne => absurd rfl (hne k c),
      fun _ => ⟨rfl, rfl, rfl⟩⟩
  · exact ⟨rfl, fun _ _ => rfl, fun _ => rfl, fun _ _ => rfl, fun _ _ => rfl, fun _ _ => rfl, fun _ => rfl,
      fun hne => absurd rfl (hne b)⟩
  · exact ⟨rfl, fun _ _ => rfl, fun _ => rfl, fun _ _ => rfl, fun _ _ => rfl, fun _ _ => rfl, fun _ => rfl,
      fun _ => ⟨rfl, rfl, rfl⟩⟩
  · exact ⟨rfl, fun _ _ => rfl, fun _ => rfl,
      fun a ha => State.readSb_storePixel_ne (ha.resolve_left fun hne => hne d rfl) d, fun _ _ => rfl,
      fun _ hne => absurd rfl (hne d), fun _ => rfl, fun _ => ⟨rfl, rfl, rfl⟩⟩

/-! ## What is read (R202), and that nothing else is needed (R201, R223) -/

/-- A meaning that answers from one state answers from every other with its parameters, `dec_state` and cursor, and moves those two
alike. -/
theorem exec_reads_decState_cursor {i : Instr} {s s' t : State} (hcfg : s'.cfg = s.cfg) (hst : s'.dec.decState = s.dec.decState)
    (hcur : s'.dec.cursor = s.dec.cursor) (h : exec i s = .next t) :
    ∃ t', exec i s' = .next t' ∧ t'.dec.decState = t.dec.decState ∧ t'.dec.cursor = t.dec.cursor := by
  obtain ⟨hread, hcase⟩ := exec_next h
  rw [← hst] at hread
  obtain ⟨rfl, rfl⟩ | ⟨rfl, rfl⟩ | ⟨k, c, rfl, rfl⟩ | ⟨b, rfl, rfl⟩ | ⟨a, rfl, rfl⟩ | ⟨d, rfl, hlt, rfl⟩ := hcase
  · exact ⟨_, exec_displayOff hread, rfl, hcur⟩
  · exact ⟨_, exec_displayOn hread, rfl, rfl⟩
  · exact ⟨_, exec_oneArg_idle (hread.trans (OneArg.instr_readIn k c)) k c, rfl, hcur⟩
  · exact ⟨_, exec_ignored hread b, hst, hcur⟩
  · exact ⟨_, exec_argument hread a, rfl, hcur⟩
  · refine ⟨_, exec_pixelData hread (by rwa [hcur, hcfg]) d, hst, ?_⟩
    rw [State.storePixel_cursor, hcur, hcfg]

/-- Settles O9: the byte is read by the parameters and `dec_state`, and its meaning reads the cursor besides. -/
theorem decoderReadsOnly : Obligations.DecoderReadsOnly := by
  refine ⟨fun b s s' t hcfg hst hcur h => ?_, fun a a' s hs => by rw [handleByte_awaitArg hs, handleByte_awaitArg hs]⟩
  rw [handleByte, hcfg, hst]
  exact exec_reads_decState_cursor hcfg hst hcur h

/-- Settles O10: the byte's meaning is the one of its decoder state, and the cursor is kept, cleared, or taken modulo CAP. -/
theorem everyByteHandled : Obligations.EveryByteHandled := by
  intro b s hc
  obtain ⟨t, ht⟩ := handleByte_completes hc b
  have hpos : 0 < s.cfg.cap := Nat.zero_lt_of_lt hc
  refine ⟨t, ht, ?_⟩
  rw [(handleByte_keeps ht).1]
  obtain ⟨-, -, -, e | e | e⟩ := handleByte_next ht <;> rw [e]
  · exact hc
  · exact hpos
  · exact Nat.mod_lt _ hpos

/-! ## The step that runs it (R308) -/

theorem Answer.andThen_assoc (o : Answer) (k k' : State → Answer) :
    (o.andThen k).andThen k' = o.andThen fun s => (k s).andThen k' := by cases o <;> rfl

/-- Settles O11: the byte at the decode index is the one fetched, and its reading is what REN's rule runs. -/
theorem stepRunsDecodedInstruction : Obligations.StepRunsDecodedInstruction := by
  intro s i tp y rest hl hin hduty hs hidx hptr hdec
  have hrun : renRule tp (renBegin y { s with inputs := rest }) =
      Answer.andThen (exec i (renBegin y { s with inputs := rest })) fun t => .next (decodeNext t) := by
    cases hdec
    exact (renRule_decode (s := renBegin y { s with inputs := rest }) hs tp).trans (if_pos ⟨hidx, hptr⟩)
  rw [step_inputs_cons hl hin, runTick, renCycle, if_neg hduty, hrun, Answer.andThen_assoc]
  rfl

/-- Settles O52: the cycle looks at TP's answer before REN's rule. -/
theorem tpBreachRefused : Obligations.TpBreachRefused := by
  intro s hl hbreach
  rw [step_eq hl]
  cases hk : s.nextTick with
  | clkR tp y =>
    rw [TpBreach, hk] at hbreach
    exact if_pos (by rwa [State.popTick_ren])
  | clkI bus y => simp [TpBreach, hk] at hbreach
  | reset => simp [TpBreach, hk] at hbreach

/-- Settles O57: each domain's cycle completes from what the invariant gives it, and a reset always does. -/
theorem stepNeverStops : Obligations.StepNeverStops := by
  intro s hinv hduty
  have hinv' := coreInv_popTick hinv
  rw [step_eq hinv.legal]
  cases hk : s.nextTick with
  | clkI bus y =>
    obtain ⟨t, ht, -⟩ := (ExchangeSound.of_coreInv hinv').cycle_completes bus y
    exact ⟨t, ht⟩
  | clkR tp y =>
    rw [TpBreach, hk] at hduty
    obtain ⟨t, ht, -⟩ := (RenderSound.of_coreInv hinv').cycle_completes (tp := tp) (by rwa [State.popTick_ren]) y
    exact ⟨t, ht⟩
  | reset => exact ⟨_, rfl⟩

end Sys2Proof.Machine
end

section
/-! What a step leaves of a pass and of an offer (42_render.md R307, R321). -/

namespace Sys2Proof.Machine
open Sys2Proof Sys2Proof.Safety

/-- Settles O42: DECODE's rule leaves the transport's registers and shows diagnostics alone, and EMIT's leaves the decoder. -/
theorem decodeBeforeEmit : Obligations.DecodeBeforeEmit := by
  intro s t hne h
  cases hk : s.nextTick with
  | clkI bus y =>
    obtain ⟨-, hdec, hren, -, -, -, hshown⟩ := ingCycle_keeps (step_clkI h hk)
    rw [hren, hshown, State.popTick_ren, State.popTick_shown]
    exact ⟨fun _ => ⟨rfl, rfl⟩, fun _ => congrFun (State.readSb_congr (by rw [hdec, State.popTick_dec]))⟩
  | clkR tp y =>
    obtain ⟨u, hu, rfl⟩ := step_clkR h hk
    refine ⟨fun hs => ⟨?_, ?_⟩, fun hs => congrFun (State.readSb_congr ?_)⟩
    · simpa [renBegin, renFinish] using renRule_tp (by simp [renBegin, hs]) hu
    · rw [renRule_decode (by simpa [renBegin] using hs)] at hu
      obtain ⟨-, -, v, hv, rfl⟩ := renDecode_next hu
      simpa [renBegin, renFinish] using handleByte_passRects hv
    · rw [renRule_emit (by simpa [renBegin] using hs)] at hu
      simp [renFinish, (renEmit_frame hu).1, renBegin]
  | reset => exact absurd hk hne

/-- An offer that TP does not take stays (R86, R321). -/
theorem renEmit_keeps_offer {tp : TpIn} {s t : State} (h : renEmit tp s = .next t)
    (hoffer : (∃ r, s.ren.tp = .cmd r ∧ tp.cmdReady = false) ∨ (∃ r i, s.ren.tp = .data r i ∧ tp.dataReady = false)) : t = s := by
  rcases hoffer with ⟨r, hp, hready⟩ | ⟨r, i, hp, hready⟩
  · rw [renEmit_cmd hp, hready] at h
    cases h
    rfl
  · rw [renEmit_data hp, hready] at h
    cases h
    rfl

/-- A step in which TP does not take the offer keeps the transport's registers. -/
theorem step_keeps_offer {s t : State} (hinv : CoreInv s) (hne : s.nextTick ≠ .reset) (h : step s = .next t)
    (hoffer : (∃ r, s.ren.tp = .cmd r ∧ ∀ tp y, s.nextTick = .clkR tp y → tp.cmdReady = false) ∨
      (∃ r i, s.ren.tp = .data r i ∧ ∀ tp y, s.nextTick = .clkR tp y → tp.dataReady = false)) : t.ren.tp = s.ren.tp := by
  cases hk : s.nextTick with
  | clkI bus y =>
    obtain ⟨-, -, hren, -⟩ := ingCycle_keeps (step_clkI h hk)
    rw [hren, State.popTick_ren]
  | clkR tp y =>
    have hs : s.ren.renState = .emit := by
      refine (hinv.transport.1 ?_).1
      rcases hoffer with ⟨r, hp, -⟩ | ⟨r, i, hp, -⟩ <;> simp [hp]
    obtain ⟨u, hu, rfl⟩ := step_clkR h hk
    rw [renRule_emit (by simpa [renBegin] using hs)] at hu
    rw [renEmit_keeps_offer hu ?_]
    · simp [renBegin, renFinish]
    · simp only [renBegin, State.endPulse_ren, State.popTick_ren]
      exact hoffer.imp (fun ⟨r, hp, hready⟩ => ⟨r, hp, hready tp y hk⟩) fun ⟨r, i, hp, hready⟩ => ⟨r, i, hp, hready tp y hk⟩
  | reset => exact absurd hk hne

theorem State.tp_of_tpCmdO {s : State} {r : Rect} (h : s.tpCmdO = some r) : s.ren.tp = .cmd r := by
  unfold State.tpCmdO at h
  split at h
  · next hp => cases h; exact hp
  · cases h

theorem State.tp_of_tpDataO {s : State} {d : Byte × Bool} (h : s.tpDataO = some d) : ∃ r i, s.ren.tp = .data r i := by
  unfold State.tpDataO at h
  split at h
  · next r i hp => exact ⟨r, i, hp⟩
  · cases h

/-- Settles O48: the ports show the transport's registers, which stay until TP takes the offer. -/
theorem transportPortsStable : Obligations.TransportPortsStable := by
  refine fun s t hinv hne h => ⟨fun r hr hready => ?_, fun d hd hready => ?_⟩
  · have hp := State.tp_of_tpCmdO hr
    have hkept := (step_keeps_offer hinv hne h (.inl ⟨r, hp, hready⟩)).trans hp
    exact ⟨State.tpCmdO_of_cmd hkept, State.tpDataO_of_cmd hkept⟩
  · obtain ⟨r, i, hp⟩ := State.tp_of_tpDataO hd
    have hkept := (step_keeps_offer hinv hne h (.inr ⟨r, i, hp, hready⟩)).trans hp
    rw [State.tpDataO_of_data hp] at hd
    exact ⟨(State.tpDataO_of_data hkept).trans hd, State.tpCmdO_of_data hkept⟩

end Sys2Proof.Machine
end

section
/-! The exchange over a step (41_exchange.md R253, R254, R264 to R266): the handshake's discipline, the queue's order, and the buffers
that no step writes. -/

namespace Sys2Proof.Machine
open Sys2Proof Sys2Proof.Safety

/-- Settles O34: publish completes wherever the buffers are in their places and the queue is in its bound. -/
theorem publishAlwaysCompletes : Obligations.PublishAlwaysCompletes := by
  intro s hl hpart hq
  obtain ⟨t, ht, hsound⟩ := ExchangeSound.publish_completes ⟨hl, hpart, hq⟩
  exact ⟨t, ht, hsound.partition, hsound.queue⟩

/-! ## The handshake (R253, R254) -/

/-- ING writes the answer's data only in the cycle that inverts its toggle (R252). -/
theorem ingCycle_answer_data {bus : BusIn} {y : Sync} {s t : State} (hc : ingCycle bus y s = .next t)
    (hkept : t.ing.ackTgl = s.ing.ackTgl) : t.ing.ackOk = s.ing.ackOk ∧ t.ing.ackIdx = s.ing.ackIdx := by
  obtain ⟨-, -, -, hack, hok, hidx, -⟩ := ingCycle_handshake hc
  by_cases hseen : syncOut (ingBegin y s).ing.reqSync = (ingBegin y s).ing.reqSeen
  · rw [hok, hidx, ingServe_unseen hseen]
    exact ⟨rfl, rfl⟩
  · rw [hack, ingServe_ackTgl_of_seen hseen] at hkept
    exact absurd hkept (Bool.not_ne_self _)

/-- ING inverts its toggle only to answer a pending request, whose answer is then pending (R268). -/
theorem ingCycle_answers {bus : BusIn} {y : Sync} {s t : State} (h : HandshakeSound s) (hc : ingCycle bus y s = .next t)
    (hne : t.ing.ackTgl ≠ s.ing.ackTgl) : RequestPending s ∧ ¬AnswerPending s ∧ ¬RequestPending t ∧ AnswerPending t := by
  have hp : RequestPending s := by_contra fun hn => hne (ingCycle_ackTgl_of_not_requestPending h hn hc)
  have ha := answerPending_of_served h hp hc hne
  obtain ⟨-, hserved, -⟩ := (h.of_ingCycle hc).of_answerPending ha
  exact ⟨hp, (h.of_requestPending hp).2, hserved, ha⟩

/-- REN inverts its toggle only while no request is pending, and then one is (R253, R302). -/
theorem renCycle_requests {tp : TpIn} {y : Sync} {s t : State} (h : HandshakeSound s) (hc : renCycle tp y s = .next t)
    (hne : t.ren.reqTgl ≠ s.ren.reqTgl) : ¬RequestPending s ∧ RequestPending t ∧ ¬AnswerPending t := by
  obtain ⟨-, hing, -⟩ := renCycle_keeps hc
  have hn : ¬RequestPending s := fun hp => hne (by rw [renCycle_waits h hp hc]; rfl)
  have hp : RequestPending t := by
    rw [RequestPending, hing, ← not_not.1 hn]
    exact hne
  exact ⟨hn, hp, ((h.of_renCycle hc).of_requestPending hp).2⟩

/-- Settles O38: each domain writes its own toggle alone. -/
theorem handshakeDiscipline : Obligations.HandshakeDiscipline := by
  intro s t hinv hk h
  have hsound := HandshakeSound.of_coreInv (coreInv_popTick hinv)
  rcases runTick_next (step_next h).2 with ⟨bus, y, -, hc⟩ | ⟨tp, y, -, hc⟩ | ⟨hreset, -⟩
  · obtain ⟨-, -, hren, -⟩ := ingCycle_keeps hc
    have hanswers := ingCycle_answers hsound hc
    have hdata := ingCycle_answer_data hc
    simp only [RequestPending, AnswerPending, State.popTick_ing, State.popTick_ren] at hanswers hdata
    exact ⟨fun hne => absurd (by rw [hren, State.popTick_ren]) hne, hanswers,
      fun hne htgl => hne.elim (fun ho => ho (hdata htgl).1) fun hi => hi (hdata htgl).2⟩
  · obtain ⟨-, hing, -⟩ := renCycle_keeps hc
    have hrequests := renCycle_requests hsound hc
    simp only [RequestPending, State.popTick_ing, State.popTick_ren] at hrequests
    rw [State.popTick_ing] at hing
    exact ⟨hrequests, fun hne => absurd (by rw [hing]) hne, fun hne => hne.elim (absurd (by rw [hing])) (absurd (by rw [hing]))⟩
  · exact absurd hreset hk

/-! ## The queue's order (R264) -/

/-- Step C moves no buffer and writes none (R263). -/
theorem ingBusEndsWait_buffers (bus : BusIn) (s : State) :
    (ingBusEndsWait bus s).ing.q = s.ing.q ∧ (ingBusEndsWait bus s).ing.fillIdx = s.ing.fillIdx ∧
      (ingBusEndsWait bus s).arena = s.arena := by
  rcases ingBusEndsWait_cases bus s with e | ⟨-, e⟩ <;> rw [e] <;> exact ⟨rfl, rfl, rfl⟩

/-- Step F moves no buffer and writes none (R262). -/
theorem ingCountdown_buffers (waiting entered : Bool) (s : State) :
    (ingCountdown waiting entered s).ing.q = s.ing.q ∧ (ingCountdown waiting entered s).arena = s.arena := by
  rcases ingCountdown_cases waiting entered s with e | ⟨-, e⟩ | e <;> rw [e] <;> exact ⟨rfl, rfl⟩

/-- The queue of `t` is that of `s` with frames behind it. -/
def QueueGrows (s t : State) : Prop := ∃ l, t.ing.q = s.ing.q ++ l

theorem QueueGrows.of_eq {s t : State} (h : t.ing.q = s.ing.q) : QueueGrows s t := ⟨[], by rw [h, List.append_nil]⟩

theorem QueueGrows.trans {s t u : State} (h : QueueGrows s t) (h' : QueueGrows t u) : QueueGrows s u := by
  obtain ⟨l, hl⟩ := h
  obtain ⟨l', hl'⟩ := h'
  exact ⟨l ++ l', by rw [hl', hl, List.append_assoc]⟩

theorem pushFill_queueGrows {s t : State} (h : pushFill s = .next t) : QueueGrows s t := by
  obtain ⟨b, -, rfl⟩ := pushFill_next h
  exact ⟨[s.ing.fillIdx], rfl⟩

theorem endTransfer_queueGrows {s t : State} (hp : s.cfg.policy = .bounded) (h : endTransfer s = .next t) : QueueGrows s t := by
  rcases endTransfer_next h with ⟨-, h⟩ | ⟨-, rfl⟩
  · rcases publish_next h with ⟨-, -, h⟩ | ⟨-, -, -, rfl⟩ | ⟨-, -, -, rfl⟩ | ⟨hd, -⟩
    · exact pushFill_queueGrows h
    · exact .of_eq rfl
    · exact .of_eq rfl
    · exact nomatch hp.symm.trans hd
  · exact .of_eq rfl

/-- R264: under BOUNDED the steps B to F of ING's cycle only append. -/
theorem ingCycle_queueGrows {bus : BusIn} {y : Sync} {s t : State} (hp : s.cfg.policy = .bounded)
    (h : ingCycle bus y s = .next t) : QueueGrows (ingServe (ingBegin y s)) t := by
  obtain ⟨b, d, e, hb, hd, he, rfl⟩ := ingCycle_next h
  have hdcfg : d.cfg = s.cfg := by
    rw [(ingByte_keeps hd).1, (ingBusEndsWait_keeps bus b).1, (ingRetry_keeps hb).1, ingServe_cfg]
    rfl
  have hretry : QueueGrows (ingServe (ingBegin y s)) b := by
    rcases ingRetry_cases hb with ⟨-, rfl⟩ | ⟨-, -, u, hu, rfl⟩
    · exact .of_eq rfl
    · exact (pushFill_queueGrows hu).trans (.of_eq rfl)
  have hbus : QueueGrows b (ingBusEndsWait bus b) := .of_eq (ingBusEndsWait_buffers bus b).1
  have hbyte : QueueGrows (ingBusEndsWait bus b) d := by
    rcases ingByte_cases hd with rfl | ⟨-, hst⟩
    · exact .of_eq rfl
    · rcases storeByte_next hst with ⟨-, -, rfl⟩ | ⟨-, rfl⟩ <;> exact .of_eq rfl
  have hend : QueueGrows d e := by
    rcases ingEnd_cases he with rfl | ⟨-, he⟩
    · exact .of_eq rfl
    · exact endTransfer_queueGrows (hdcfg ▸ hp) he
  exact hretry.trans <| hbus.trans <| hbyte.trans <| hend.trans (.of_eq (ingCountdown_buffers _ _ e).1)

/-- Settles O36: a clk_i cycle takes at most the first frame, to grant it in step A, and appends in the others. -/
theorem boundedQueueOrder : Obligations.BoundedQueueOrder := by
  intro s t hinv hp hk h
  rw [← State.popTick_cfg] at hp
  rw [← State.popTick_ing s]
  rcases runTick_next (step_next h).2 with ⟨bus, y, -, hc⟩ | ⟨tp, y, -, hc⟩ | ⟨hreset, -⟩
  · obtain ⟨l, hl⟩ := ingCycle_queueGrows hp hc
    obtain ⟨-, -, -, hack, hok, hidx, -⟩ := ingCycle_handshake hc
    rw [hack, hok, hidx, hl]
    by_cases hseen : syncOut (ingBegin y s.popTick).ing.reqSync = (ingBegin y s.popTick).ing.reqSeen
    · rw [ingServe_unseen hseen]
      exact .inl ⟨rfl, l, rfl⟩
    · rw [ingServe_eq_serveAcquire hseen]
      cases hq : (ingBegin y s.popTick).ing.q with
      | nil => rw [serveAcquire_nil hq]; exact .inr (.inl ⟨rfl, rfl, hq⟩)
      | cons b rest => rw [serveAcquire_cons hq]; exact .inr (.inr ⟨rfl, rfl, rest, l, hq, rfl⟩)
  · obtain ⟨-, hing, -⟩ := renCycle_keeps hc
    rw [hing]
    exact .inl ⟨rfl, [], (List.append_nil _).symm⟩
  · exact absurd hreset hk

/-! ## The buffers that REN may read (R266) -/

/-- Step B, and the drop of step C, leave the fill buffer or take a free one. -/
theorem ingRetry_fillIdx {bus : BusIn} {s t : State} (h : ingRetry s = .next t) :
    (ingBusEndsWait bus t).ing.fillIdx = s.ing.fillIdx ∨ (ingBusEndsWait bus t).ing.fillIdx ∈ s.ing.free := by
  obtain ⟨-, hfill, -⟩ := ingBusEndsWait_buffers bus t
  rw [hfill]
  rcases ingRetry_cases h with ⟨-, rfl⟩ | ⟨-, -, u, hu, rfl⟩
  · exact .inl rfl
  · obtain ⟨b, hb, rfl⟩ := pushFill_next hu
    exact .inr (List.min?_mem hb)

theorem ingRetry_arena {s t : State} (h : ingRetry s = .next t) : t.arena = s.arena := by
  rcases ingRetry_cases h with ⟨-, rfl⟩ | ⟨-, -, u, hu, rfl⟩
  · rfl
  · obtain ⟨b, -, rfl⟩ := pushFill_next hu
    rfl

theorem ingEnd_arena {bus : BusIn} {s t : State} (h : ingEnd bus s = .next t) : t.arena = s.arena := by
  rcases ingEnd_cases h with rfl | ⟨-, h⟩
  · rfl
  · exact endTransfer_arena h

/-- R104, R255: step D writes the fill buffer alone. -/
theorem ingByte_readArena {bus : BusIn} {s t : State} {b i : Nat} (h : ingByte bus s = .next t) (hi : i < s.cfg.cap)
    (hb : b ≠ s.ing.fillIdx) : t.readArena b i = s.readArena b i := by
  rcases ingByte_cases h with rfl | ⟨-, h⟩
  · rfl
  · rcases storeByte_next h with ⟨hc, -, rfl⟩ | ⟨-, rfl⟩
    · have hidx : arenaIndex s.cfg b i ≠ arenaIndex s.cfg s.ing.fillIdx s.ing.rxCount := fun e => hb (arenaIndex_inj hi hc e).1
      simp only [State.readArena, Memory.read_write_ne _ _ _ _ _ hidx]
    · rfl

/-- R266: a clk_i cycle writes no buffer but the fill buffer and those that are free after step A. -/
theorem ingCycle_readArena {bus : BusIn} {y : Sync} {s t : State} {b i : Nat} (h : ingCycle bus y s = .next t) (hi : i < s.cfg.cap)
    (hfill : b ≠ s.ing.fillIdx) (hfree : b ∉ (ingServe (ingBegin y s)).ing.free) : t.readArena b i = s.readArena b i := by
  obtain ⟨u, d, e, hu, hd, he, rfl⟩ := ingCycle_next h
  have hfront := (ingServe_keeps (ingBegin y s)).trans <| (ingRetry_keeps hu).trans (ingBusEndsWait_keeps bus u)
  have hback := (ingEnd_keeps he).trans
    (ingCountdown_keeps (s.ing.rxState = .pubWait) (d.ing.rxState = .rx ∧ e.ing.rxState = .pubWait) e)
  obtain ⟨hcfg, -, -, -, -, hepoch, -⟩ := hfront
  obtain ⟨hcfg', -, -, -, -, hepoch', -⟩ := hback
  have harena : (ingBusEndsWait bus u).arena = s.arena := by
    obtain ⟨-, -, hbus⟩ := ingBusEndsWait_buffers bus u
    rw [hbus, ingRetry_arena hu, ingServe_arena]
    rfl
  have harena' : (ingCountdown (s.ing.rxState = .pubWait) (d.ing.rxState = .rx ∧ e.ing.rxState = .pubWait) e).arena = d.arena :=
    (ingCountdown_buffers _ _ e).2.trans (ingEnd_arena he)
  have hne : b ≠ (ingBusEndsWait bus u).ing.fillIdx := by
    rintro rfl
    rcases ingRetry_fillIdx (bus := bus) hu with e | hmem
    · exact hfill (e.trans (ingServe_fillIdx _))
    · exact hfree hmem
  calc
    _ = d.readArena b i := State.readArena_congr hcfg' harena' hepoch' b i
    _ = (ingBusEndsWait bus u).readArena b i := ingByte_readArena hd (hcfg ▸ hi) hne
    _ = s.readArena b i := State.readArena_congr hcfg harena hepoch b i

/-- R110: a queued buffer is in no other place. -/
theorem queued_elsewhere {s : State} (h : OwnershipPartition s) {b : Nat} (hb : b ∈ s.ing.q) :
    b ≠ s.ing.fillIdx ∧ b ∉ s.ing.free ∧ ¬(s.ing.heldValid = true ∧ b = s.ing.heldIdx) := by
  have hn := places_nodup h
  rw [places, List.nodup_cons] at hn
  obtain ⟨hfill, hrest⟩ := hn
  obtain ⟨-, -, hdisj⟩ := List.nodup_append.1 hrest
  refine ⟨?_, fun hf => ?_, fun ⟨hv, he⟩ => ?_⟩
  · rintro rfl
    exact hfill (List.mem_append_left _ hb)
  · exact hdisj b hb b (List.mem_append_right _ hf) rfl
  · exact hdisj b hb b (by simp [hv, he]) rfl

/-- R110: the held buffer is neither the fill buffer nor free. -/
theorem held_elsewhere {s : State} (h : OwnershipPartition s) (hv : s.ing.heldValid = true) :
    s.ing.heldIdx ≠ s.ing.fillIdx ∧ s.ing.heldIdx ∉ s.ing.free := by
  have hn := places_nodup h
  rw [places, hv, if_pos rfl, List.singleton_append, List.nodup_cons] at hn
  obtain ⟨hfill, hrest⟩ := hn
  obtain ⟨-, hlast, -⟩ := List.nodup_append.1 hrest
  exact ⟨fun e => hfill (by simp [← e]), (List.nodup_cons.1 hlast).1⟩

/-- R266: a buffer that REN may read, now or once it takes the answer: a queued one, or the held one while no request is pending. -/
def State.Readable (s : State) (b : Nat) : Prop :=
  b ∈ s.ing.q ∨ (s.ing.heldValid = true ∧ ¬RequestPending s ∧ b = s.ing.heldIdx)

/-- Step A releases the held buffer only for a pending request, so no readable buffer is free after it. -/
theorem ingCycle_readArena_readable {bus : BusIn} {y : Sync} {s t : State} (hpart : OwnershipPartition s) (hs : HandshakeSound s)
    (h : ingCycle bus y s = .next t) {b i : Nat} (hb : s.Readable b) (hi : i < s.cfg.cap) :
    t.readArena b i = s.readArena b i := by
  obtain hq | ⟨hv, hn, rfl⟩ := hb
  · obtain ⟨hfill, hfree, hheld⟩ := queued_elsewhere hpart hq
    refine ingCycle_readArena h hi hfill fun hmem => ?_
    by_cases hseen : syncOut (ingBegin y s).ing.reqSync = (ingBegin y s).ing.reqSeen
    · rw [ingServe_unseen hseen] at hmem
      exact hfree hmem
    · rw [ingServe_eq_serveAcquire hseen, serveAcquire_free, mem_releaseHeld_free] at hmem
      exact hmem.elim hfree hheld
  · obtain ⟨hfill, hfree⟩ := held_elsewhere hpart hv
    refine ingCycle_readArena h hi hfill ?_
    rw [ingServe_unseen ((hs.begin_ing y).syncOut_reqSync hn)]
    exact hfree

theorem step_readArena_readable {s t : State} (hinv : CoreInv s) (hk : s.nextTick ≠ .reset) (h : step s = .next t) {b i : Nat}
    (hb : s.Readable b) (hi : i < s.cfg.cap) : t.readArena b i = s.readArena b i := by
  have hinv' := coreInv_popTick hinv
  have hpop : s.popTick.readArena b i = s.readArena b i := State.readArena_congr (by simp) (by simp) (by simp) b i
  have hb' : s.popTick.Readable b := by simpa [State.Readable] using hb
  refine Eq.trans ?_ hpop
  rcases runTick_next (step_next h).2 with ⟨bus, y, -, hc⟩ | ⟨tp, y, -, hc⟩ | ⟨hreset, -⟩
  · exact ingCycle_readArena_readable hinv'.partition (.of_coreInv hinv') hc hb' (by simpa using hi)
  · obtain ⟨hcfg, -, harena, -, -, hepoch⟩ := renCycle_keeps hc
    exact State.readArena_congr hcfg harena hepoch b i
  · exact absurd hreset hk

/-- Settles O35: the buffer that REN decodes, or whose answer it has to take, is the held one, with no request pending. -/
theorem readableBuffersUnwritten : Obligations.ReadableBuffersUnwritten := by
  intro s t hinv hk h
  have hs := HandshakeSound.of_coreInv hinv
  have hkept {b i : Nat} := step_readArena_readable (b := b) (i := i) hinv hk h
  refine ⟨fun b hb i => hkept (.inl hb), fun hd i => ?_, fun hv hn i => hkept (.inr ⟨hv, hn, rfl⟩), fun ha hok i => ?_⟩
  · obtain ⟨-, -, hdecode, -⟩ := hinv.render
    obtain ⟨-, hv, hidx⟩ := hdecode hd
    have hn : ¬RequestPending s := fun hp => nomatch (hs.of_requestPending hp).1.symm.trans hd
    exact hkept (.inr ⟨hv, hn, hidx⟩)
  · obtain ⟨-, hn, hv, hidx⟩ := hs.of_answerPending ha
    exact hkept (.inr ⟨hv.trans hok, hn, (hidx hok).symm⟩)

end Sys2Proof.Machine
end

section
/-! The publish wait (41_exchange.md R250, R259 to R263): how a cycle of it ends, or goes on. -/

namespace Sys2Proof.Machine
open Sys2Proof Sys2Proof.Safety

/-! ## The rest of a cycle once the receiver is in RX -/

/-- Steps E and F on a receiver in RX: the size check, and no countdown (R250, R259). -/
theorem ingEndAndCountdown_of_rx {d : State} (h : d.ing.rxState = .rx) (waiting : Bool) (bus : BusIn) :
    ingEndAndCountdown waiting bus d = if bus.inEnd then endTransfer d else .next d := by
  rw [ingEndAndCountdown, ingEnd_rx h]
  cases (if bus.inEnd then endTransfer d else .next d : Answer) with
  | next e => rw [Answer.andThen_next, ingCountdown_of_rx h]
  | fault f => rfl
  | refused r => rfl

/-- From step D on, a cycle that finds the receiver in RX is the bus's byte and its end, whether or not it began in a wait. -/
theorem ingCycle_rest_of_rx {c : State} (h : c.ing.rxState = .rx) (waiting : Bool) (bus : BusIn) (y : Sync) :
    ((ingByte bus c).andThen fun d => (ingEndAndCountdown waiting bus d).andThen fun f => .next (ingFinish y f)) =
      (busInRx bus c).andThen fun t => .next (ingFinish y t) := by
  rw [ingByte_rx h, busInRx, Answer.andThen_assoc]
  cases hbyte : (if bus.inValid then storeByte bus.inByte c else .next c : Answer) with
  | next d =>
    have hd : d.ing.rxState = .rx := by
      split at hbyte
      · exact (storeByte_rxState hbyte).trans h
      · cases hbyte; exact h
    rw [Answer.andThen_next, Answer.andThen_next, ingEndAndCountdown_of_rx hd]
  | fault f => rfl
  | refused r => rfl

/-- `busInRx_eq` needs of the partition only that the fill buffer lies in the arena (R255). -/
theorem busInRx_eq_busByte {s : State} (h : s.ing.fillIdx < s.cfg.nbuf) (bus : BusIn) :
    busInRx bus s = if bus.inEnd then endTransfer (s.busByte bus) else .next (s.busByte bus) := by
  rw [busInRx, State.busByte]
  split
  · rw [storeByte_eq h, Answer.andThen_next]
  · rw [Answer.andThen_next]

/-! ## Bus activity ends a wait (R263) -/

/-- Step B while the queue is full. -/
theorem ingRetry_full {s : State} (h : s.cfg.depth ≤ s.ing.q.length) : ingRetry s = .next s :=
  if_neg fun hw => h.not_gt hw.2

/-- With the queue full and no request seen, an active cycle of a wait is a drop and then a cycle in RX. -/
theorem ingCycle_ends_wait {s : State} {bus : BusIn} (hs : s.ing.rxState = .pubWait)
    (hseen : syncOut s.ing.reqSync = s.ing.reqSeen) (hq : s.cfg.depth ≤ s.ing.q.length) (hfill : s.ing.fillIdx < s.cfg.nbuf)
    (hbus : (bus.inValid || bus.inEnd) = true) :
    ingCycle bus .shift s =
      (if bus.inEnd then endTransfer ((dropWait s).busByte bus) else .next ((dropWait s).busByte bus) : Answer).andThen fun t =>
        .next (ingFinish .shift t) := by
  have hserve : ingServe (ingBegin .shift s) = s := ingServe_unseen (s := s) hseen
  rw [ingCycle, hserve, ingRetry_full hq, Answer.andThen_next, ingBusEndsWait, if_pos ⟨hs, hbus⟩,
    ingCycle_rest_of_rx (c := dropWait s) rfl, busInRx_eq_busByte (s := dropWait s) hfill]

/-- The receiver's registers once the wait has ended and the bus's byte is counted. -/
theorem dropWait_busByte_ing (s : State) (bus : BusIn) :
    ((dropWait s).busByte bus).ing = { s.ing with
      droppedCnt := s.ing.droppedCnt + 1, rxState := .rx, rxCount := if bus.inValid then 1 else 0 } := by
  rw [State.busByte_ing, dropWait_ing, Nat.zero_add, Nat.min_eq_left (Nat.le_add_left 1 _)]

/-- Settles O33: the new transfer has the cycle's byte alone, so its size is CAP only where CAP is 1. -/
theorem busEndsWait : Obligations.BusEndsWait := by
  intro s bus hs hseen hq hwf hfill hl
  have hcap := Config.cap_pos hl
  have hing := dropWait_busByte_ing s bus
  have hcfg : ((dropWait s).busByte bus).cfg = s.cfg := State.busByte_cfg _ _
  have hstored (hv : bus.inValid = true) : ((dropWait s).busByte bus).readArena s.ing.fillIdx 0 = bus.inByte :=
    State.readArena_busByte_same (s := dropWait s) hwf hv hcap
  refine ⟨fun hv he => ?byte, fun he hone => ?overrun, fun he hv hone hp hto => ?wait⟩
  case byte =>
    rw [ingCycle_ends_wait hs hseen hq hfill (by simp [hv]), he]
    refine ⟨_, rfl, ?_, ?_, hstored hv, ?_, ?_, ?_⟩ <;> simp [ingFinish, hing, hv]
  case overrun =>
    have hsize : ((dropWait s).busByte bus).ing.rxCount ≠ ((dropWait s).busByte bus).cfg.cap := by
      rw [hing, hcfg]
      cases hv : bus.inValid with
      | true => exact fun e => hone ⟨hv, e.symm⟩
      | false => exact hcap.ne
    rw [ingCycle_ends_wait hs hseen hq hfill (by simp [he]), he, if_pos rfl, endTransfer_overrun hsize]
    refine ⟨_, rfl, ?_, ?_, ?_, ?_, ?_⟩ <;> simp [ingFinish, hing]
  case wait =>
    have hsize : ((dropWait s).busByte bus).ing.rxCount = ((dropWait s).busByte bus).cfg.cap := by
      rw [hing, hcfg, hv, hone]
      rfl
    rw [ingCycle_ends_wait hs hseen hq hfill (by simp [he]), he, if_pos rfl, endTransfer_publish hsize,
      publish_wait (hcfg ▸ hp) (by rwa [hing, hcfg]) (hcfg ▸ hto)]
    refine ⟨_, rfl, rfl, ?_, hstored hv, ?_, ?_, ?_⟩ <;> simp [ingFinish, hing]

/-! ## Cycles without bus activity (R262) -/

/-- The bus is quiet in a cycle. -/
abbrev QuietBus (bus : BusIn) : Prop := bus.inValid = false ∧ bus.inEnd = false

/-- In a quiet cycle the steps C, D and E do nothing. -/
theorem ingCycle_quiet {bus : BusIn} (h : QuietBus bus) (y : Sync) (s : State) :
    ingCycle bus y s = (ingRetry (ingServe (ingBegin y s))).andThen fun b =>
      .next (ingFinish y (ingCountdown (s.ing.rxState = .pubWait) false b)) := by
  obtain ⟨hv, he⟩ := h
  have hbus (c : State) : ingBusEndsWait bus c = c := if_neg (by simp [hv, he])
  have hbyte (c : State) : ingByte bus c = .next c := if_neg (by simp [hv])
  have hend (c : State) : ingEnd bus c = .next c := if_neg (by simp [he])
  have hentered (c : State) : decide (c.ing.rxState = .rx ∧ c.ing.rxState = .pubWait) = false := by
    cases c.ing.rxState <;> rfl
  simp only [ingCycle, ingEndAndCountdown, hbus, hbyte, hend, Answer.andThen_next, hentered]

theorem ingCountdown_rx {s : State} (h : s.ing.rxState = .rx) (waiting entered : Bool) : ingCountdown waiting entered s = s :=
  if_neg (by simp [h])

theorem pushFill_eq {s : State} {b : Nat} (h : s.ing.free.min? = some b) :
    pushFill s = .next { s with ing := { s.ing with
      q := s.ing.q ++ [s.ing.fillIdx], fillIdx := b, free := s.ing.free.erase b, rxCount := 0 } } := by
  simp only [pushFill, h]

/-- The state in which a quiet cycle of a wait without a served request leaves a full queue (R262). -/
def State.waitedOn (s : State) : State :=
  { s with ing := { s.ing with reqSync := syncAfter .shift s.ing.reqSync s.ren.reqTgl, waitLeft := s.ing.waitLeft - 1 } }

theorem ingCycle_waits_on {s : State} {bus : BusIn} (hs : s.ing.rxState = .pubWait)
    (hseen : syncOut s.ing.reqSync = s.ing.reqSeen) (hbus : QuietBus bus) (hq : s.cfg.depth ≤ s.ing.q.length) :
    ingCycle bus .shift s = .next (if s.ing.waitLeft - 1 = 0 then dropWait s.waitedOn else s.waitedOn) := by
  have hserve : ingServe (ingBegin .shift s) = s := ingServe_unseen (s := s) hseen
  rw [ingCycle_quiet hbus, hserve, ingRetry_full hq, Answer.andThen_next, ingCountdown, if_pos (by simp [hs])]
  by_cases hleft : s.ing.waitLeft - 1 = 0
  · dsimp only
    rw [if_pos hleft, if_pos hleft]
    rfl
  · dsimp only
    rw [if_neg hleft, if_neg hleft]
    rfl

/-- R262: a quiet cycle of a wait that serves no request pushes the frame, counts down, or drops the frame. -/
theorem quiet_wait_cycle {s : State} {bus : BusIn} (hs : s.ing.rxState = .pubWait)
    (hseen : syncOut s.ing.reqSync = s.ing.reqSeen) (hbus : QuietBus bus) :
    let shifted := { s with ing := { s.ing with reqSync := syncAfter .shift s.ing.reqSync s.ren.reqTgl } }
    (s.ing.q.length < s.cfg.depth → s.ing.free ≠ [] →
      ∃ u, pushFill shifted = .next u ∧ ingCycle bus .shift s = .next { u with ing := { u.ing with rxState := .rx } }) ∧
    (s.cfg.depth ≤ s.ing.q.length → s.ing.waitLeft - 1 ≠ 0 →
      ingCycle bus .shift s = .next { shifted with ing := { shifted.ing with waitLeft := s.ing.waitLeft - 1 } }) ∧
    (s.cfg.depth ≤ s.ing.q.length → s.ing.waitLeft - 1 = 0 →
      ingCycle bus .shift s = .next { shifted with ing := { shifted.ing with
        waitLeft := 0, droppedCnt := s.ing.droppedCnt + 1, rxCount := 0, rxState := .rx } }) := by
  intro shifted
  refine ⟨fun hq hfree => ?push, fun hq hleft => ?countdown, fun hq hleft => ?drop⟩
  case push =>
    obtain ⟨u, hu⟩ := pushFill_completes (s := shifted) hfree
    refine ⟨u, hu, ?_⟩
    obtain ⟨b, hb, rfl⟩ := pushFill_next hu
    have hserve : ingServe (ingBegin .shift s) = s := ingServe_unseen (s := s) hseen
    rw [ingCycle_quiet hbus, hserve, ingRetry, if_pos ⟨hs, hq⟩, pushFill_eq (s := s) hb, Answer.andThen_next, Answer.andThen_next,
      ingCountdown_rx rfl]
    rfl
  case countdown => rw [ingCycle_waits_on hs hseen hbus hq, if_neg hleft]; rfl
  case drop =>
    rw [ingCycle_waits_on hs hseen hbus hq, if_pos hleft, State.waitedOn, hleft]
    rfl

/-! ## A request served in a wait (R252, R262) -/

/-- R259, R261: under BOUNDED with a timeout the size check drops no frame. -/
theorem endTransfer_drops_none {s t : State} (hto : s.cfg.pubTimeout ≠ 0) (h : endTransfer s = .next t) :
    t.ing.droppedCnt = s.ing.droppedCnt := by
  rcases endTransfer_next h with ⟨-, h⟩ | ⟨-, rfl⟩
  · rcases publish_counted h with ⟨-, hd⟩ | ⟨-, h0, -⟩
    · simpa using hd
    · exact absurd h0 hto
  · rfl

theorem fillIdx_not_mem_free {s : State} (h : OwnershipPartition s) : s.ing.fillIdx ∉ s.ing.free := by
  have hn := places_nodup h
  rw [places, List.nodup_cons] at hn
  exact fun hmem => hn.1 (by simp [hmem])

/-- Step A on a seen request with frame `b` first in the queue (R252). -/
theorem ingServe_grants {s : State} {b : Nat} {rest : List Nat} (hseen : syncOut s.ing.reqSync ≠ s.ing.reqSeen)
    (hq : s.ing.q = b :: rest) :
    ingServe s = { s with ing := { s.ing with
      free := (releaseHeld s.ing).free, q := rest, heldValid := true, heldIdx := b, ackOk := true, ackIdx := b
      ackTgl := !s.ing.ackTgl, reqSeen := syncOut s.ing.reqSync } } := by
  rw [ingServe_eq_serveAcquire hseen, serveAcquire_cons hq]

/-- `u` is `s` after steps A and B of a cycle that serves a request in a wait: frame `b`, the first of the queue, is granted, and the
waiting frame is behind the others. -/
structure ServedInWait (s u : State) (b : Nat) (rest : List Nat) : Prop where
  cfg : u.cfg = s.cfg
  wasQueued : s.ing.q = b :: rest
  queue : u.ing.q = rest ++ [s.ing.fillIdx]
  held : u.ing.heldValid = true ∧ u.ing.heldIdx = b
  answer : u.ing.ackOk = true ∧ u.ing.ackIdx = b ∧ u.ing.ackTgl = !s.ing.ackTgl
  fill : u.ing.fillIdx ≠ s.ing.fillIdx ∧ u.ing.rxCount = 0
  counters : u.ing.droppedCnt = s.ing.droppedCnt ∧ u.ing.overrunCnt = s.ing.overrunCnt

/-- Step A frees a slot of the full queue, and step B pushes the waiting frame into it. -/
theorem servedInWait_of_seen {s : State} {y : Sync} (hinv : CoreInv s) (hs : s.ing.rxState = .pubWait)
    (hseen : syncOut (ingBegin y s).ing.reqSync ≠ s.ing.reqSeen) :
    ∃ b rest u, ServedInWait s u b rest ∧ pushFill (ingServe (ingBegin y s)) = .next u ∧ ExchangeSound u ∧
      ingRetry (ingServe (ingBegin y s)) = .next { u with ing := { u.ing with rxState := .rx } } := by
  have hfull := hinv.wait hs
  obtain ⟨-, -, -, ⟨hdepth, -⟩, -⟩ := Config.legal_parts hinv.legal
  obtain ⟨b, rest, hq⟩ := List.exists_cons_of_ne_nil (List.ne_nil_of_length_pos (by omega : 0 < s.ing.q.length))
  have hserved := ((ExchangeSound.of_coreInv hinv).begin y).serve
  have ha := ingServe_grants (s := ingBegin y s) hseen hq
  have hroom : (ingServe (ingBegin y s)).ing.q.length < (ingServe (ingBegin y s)).cfg.depth := by
    rw [hq, List.length_cons] at hfull
    rw [ha]
    exact hfull.symm ▸ Nat.lt_succ_self rest.length
  obtain ⟨u, hu, hsound⟩ := hserved.push_completes hroom
  refine ⟨b, rest, u, ?_, hu, hsound, ?retry⟩
  case retry => rw [ingRetry, if_pos ⟨(ingServe_rxState _).trans hs, hroom⟩, hu, Answer.andThen_next]
  obtain ⟨c, hc, rfl⟩ := pushFill_next hu
  have hfill : c ≠ s.ing.fillIdx := by
    rintro rfl
    have hfree := fillIdx_not_mem_free hserved.partition
    rw [ingServe_fillIdx] at hfree
    exact hfree (List.min?_mem hc)
  rw [ha]
  exact ⟨rfl, hq, rfl, ⟨rfl, rfl⟩, ⟨rfl, rfl, rfl⟩, ⟨hfill, rfl⟩, ⟨rfl, rfl⟩⟩

/-- The rest of such a cycle is one in RX (R263). -/
theorem ingCycle_of_retry_rx {s c : State} {y : Sync} (hc : ingRetry (ingServe (ingBegin y s)) = .next c)
    (hrx : c.ing.rxState = .rx) (bus : BusIn) :
    ingCycle bus y s = (busInRx bus c).andThen fun t => .next (ingFinish y t) := by
  rw [ingCycle, hc, Answer.andThen_next, ingBusEndsWait_rx hrx, ingCycle_rest_of_rx hrx]

theorem busInRx_quiet {bus : BusIn} (h : QuietBus bus) (s : State) : busInRx bus s = .next s := by
  rw [busInRx, h.1, h.2]
  rfl

/-- The byte and the end of such a cycle drop no frame, and leave the queued ones in their order. -/
theorem busInRx_keeps_queue {bus : BusIn} {s : State} (h : ExchangeSound s) (hp : s.cfg.policy = .bounded)
    (hto : s.cfg.pubTimeout ≠ 0) :
    ∃ t, busInRx bus s = .next t ∧ t.ing.droppedCnt = s.ing.droppedCnt ∧ ∃ l, t.ing.q = s.ing.q ++ l := by
  have hcfg : (s.busByte bus).cfg = s.cfg := State.busByte_cfg _ _
  have hing := State.busByte_ing s bus
  rw [busInRx_eq h.partition]
  split
  · obtain ⟨t, ht, -⟩ := (State.busByte_exchangeSound h bus).endTransfer_completes
    obtain ⟨l, hl⟩ := endTransfer_queueGrows (hcfg ▸ hp) ht
    have hdrop := endTransfer_drops_none (hcfg ▸ hto) ht
    rw [hing] at hl hdrop
    exact ⟨t, ht, hdrop, l, hl⟩
  · refine ⟨_, rfl, ?_, [], ?_⟩ <;> simp [hing]

/-! ## A wait without bus activity (R262, R269) -/

/-- A quiet cycle in RX without a pending request moves the synchroniser alone. -/
theorem ingCycle_idle {s : State} {bus : BusIn} (hs : HandshakeSound s) (hn : ¬RequestPending s) (hrx : s.ing.rxState = .rx)
    (hbus : QuietBus bus) (y : Sync) : ingCycle bus y s = .next (ingFinish y (ingBegin y s)) := by
  rw [ingCycle_rx hrx, ingServe_unseen ((hs.begin_ing y).syncOut_reqSync hn), busInRx_quiet hbus, Answer.andThen_next]

/-- Quiet cycles in RX without a pending request leave everything but the synchroniser as it was. -/
theorem ingCycles_idle {buses : List BusIn} {s : State} (hs : HandshakeSound s) (hn : ¬RequestPending s)
    (hrx : s.ing.rxState = .rx) (hbus : ∀ bus ∈ buses, QuietBus bus) :
    ∃ chain, ingCycles buses s = .next { s with ing := { s.ing with reqSync := chain } } := by
  induction buses generalizing s with
  | nil => exact ⟨s.ing.reqSync, rfl⟩
  | cons bus rest ih =>
    have hc := ingCycle_idle hs hn hrx (hbus bus List.mem_cons_self) .shift
    obtain ⟨chain, hrun⟩ := ih (hs.of_ingCycle hc) hn hrx fun b hb => hbus b (List.mem_cons_of_mem _ hb)
    exact ⟨chain, by rw [ingCycles, hc, Answer.andThen_next]; exact hrun⟩

/-- How a wait of `s` that no bus activity ends has ended in `t`: its frame is queued, if a request was served, or dropped. -/
def WaitEnded (s t : State) : Prop :=
  t.ing.rxState = .rx ∧ t.ing.rxCount = 0 ∧ t.ing.overrunCnt = s.ing.overrunCnt ∧
    ((t.ing.ackTgl ≠ s.ing.ackTgl ∧ RequestPending s ∧ t.ing.q = s.ing.q.tail ++ [s.ing.fillIdx] ∧
        t.ing.droppedCnt = s.ing.droppedCnt) ∨
      (t.ing.ackTgl = s.ing.ackTgl ∧ t.ing.q = s.ing.q ∧ t.ing.fillIdx = s.ing.fillIdx ∧
        t.ing.droppedCnt = s.ing.droppedCnt + 1))

/-- The cycle that serves a request ends the wait, and the cycles after it find nothing to do. -/
theorem ingCycles_wait_served {bus : BusIn} {rest : List BusIn} {s : State} (hinv : CoreInv s) (hs : s.ing.rxState = .pubWait)
    (hseen : syncOut s.ing.reqSync ≠ s.ing.reqSeen) (hbus : ∀ b ∈ bus :: rest, QuietBus b) :
    ∃ t, ingCycles (bus :: rest) s = .next t ∧ WaitEnded s t := by
  have hsound := HandshakeSound.of_coreInv hinv
  obtain ⟨b, q, u, hserved, -, -, hretry⟩ := servedInWait_of_seen (y := .shift) hinv hs hseen
  have hcycle := ingCycle_of_retry_rx hretry rfl bus
  rw [busInRx_quiet (hbus bus List.mem_cons_self), Answer.andThen_next] at hcycle
  obtain ⟨-, -, hack⟩ := hserved.answer
  have htgl : u.ing.ackTgl ≠ s.ing.ackTgl := hack ▸ Bool.not_ne_self _
  obtain ⟨hp, -, hn, -⟩ := ingCycle_answers hsound hcycle htgl
  obtain ⟨chain, hrun⟩ := ingCycles_idle (hsound.of_ingCycle hcycle) hn rfl fun b hb => hbus b (List.mem_cons_of_mem _ hb)
  have hqueue : u.ing.q = s.ing.q.tail ++ [s.ing.fillIdx] := by rw [hserved.queue, hserved.wasQueued, List.tail_cons]
  rw [ingCycles, hcycle, Answer.andThen_next, hrun]
  exact ⟨_, rfl, rfl, hserved.fill.2, hserved.counters.2, .inl ⟨htgl, hp, hqueue, hserved.counters.1⟩⟩

/-- R262: `wait_left` cycles without bus activity end the wait, by a served request or by the drop at 0. -/
theorem ingCycles_end_wait {buses : List BusIn} {s : State} (hinv : CoreInv s) (hs : s.ing.rxState = .pubWait)
    (hlen : buses.length = s.ing.waitLeft.toNat) (hbus : ∀ bus ∈ buses, QuietBus bus) :
    ∃ t, ingCycles buses s = .next t ∧ WaitEnded s t := by
  induction buses generalizing s with
  | nil =>
    obtain ⟨-, -, hwait⟩ := hinv.receiver
    obtain ⟨-, -, hpos, -⟩ := hwait hs
    simp only [List.length_nil] at hlen
    omega
  | cons bus rest ih =>
    by_cases hseen : syncOut s.ing.reqSync = s.ing.reqSeen
    · have hc := ingCycle_waits_on hs hseen (hbus bus List.mem_cons_self) (hinv.wait hs).ge
      have hrest : rest.length = (s.ing.waitLeft - 1).toNat := by
        simp only [List.length_cons] at hlen
        bv_omega
      rw [ingCycles, hc, Answer.andThen_next]
      by_cases hleft : s.ing.waitLeft - 1 = 0
      · rw [hleft] at hrest
        rw [if_pos hleft, List.length_eq_zero_iff.1 hrest]
        exact ⟨_, rfl, rfl, rfl, rfl, .inr ⟨rfl, rfl, rfl, rfl⟩⟩
      · rw [if_neg hleft] at hc ⊢
        exact ih (coreInv_ingCycle hinv hc) hs hrest fun b hb => hbus b (List.mem_cons_of_mem _ hb)
    · exact ingCycles_wait_served hinv hs hseen hbus

/-- Settles O32: a quiet cycle of the wait, the cycle that serves a request, and the run of `wait_left` cycles. -/
theorem publishWaitCycle : Obligations.PublishWaitCycle := by
  refine ⟨fun s bus hs hseen hv he => quiet_wait_cycle hs hseen ⟨hv, he⟩, fun s bus y hinv hs hseen => ?served,
    fun s buses hinv hs hlen hbus => ingCycles_end_wait hinv hs hlen hbus⟩
  obtain ⟨b, rest, u, hserved, hu, hsound, hretry⟩ := servedInWait_of_seen hinv hs hseen
  have hcycle := ingCycle_of_retry_rx hretry rfl bus
  obtain ⟨-, -, hwait⟩ := hinv.receiver
  obtain ⟨-, hp, hpos, hle⟩ := hwait hs
  obtain ⟨hcfg, hq, hqu, ⟨hheld, hidx⟩, ⟨hok, hack, htgl⟩, ⟨hfill, hcount⟩, hdrop, hover⟩ := hserved
  refine ⟨b, rest, u, hq, hu, hcycle, fun hv he => ?quiet, hqu, hheld, hidx, hok, hack, htgl, hfill, hcount, hdrop, hover, ?total⟩
  case quiet => rw [hcycle, busInRx_quiet ⟨hv, he⟩, Answer.andThen_next]
  case total =>
    obtain ⟨t, ht, hdrop', l, hl⟩ := busInRx_keeps_queue (bus := bus) (s := { u with ing := { u.ing with rxState := .rx } })
      ⟨hsound.legal, hsound.partition, hsound.queue⟩ (hcfg ▸ hp) (by rw [hcfg]; omega)
    refine ⟨ingFinish y t, by rw [hcycle, ht, Answer.andThen_next], hdrop'.trans hdrop, l, hl.trans ?_⟩
    simp [hqu]

end Sys2Proof.Machine
end
